-- ==== Sys2Proof/Word.lean ====
section
/-! DEFINITION. The words of the machine: a byte (00_scope.md section 5.1) and a Pixel, a 4-tuple (r, g, b, a) of bytes. -/

namespace Sys2Proof

/-- `u8`: 8 bits, unsigned, bit 7 the most significant (00_scope.md section 5.1). -/
abbrev Byte := BitVec 8

/-- A Pixel: four channel bytes (00_scope.md section 5.1). -/
structure Pixel where
  r : Byte
  g : Byte
  b : Byte
  a : Byte
deriving DecidableEq, Repr

/-- The 32-bit packing of a Pixel: `r` in bits 31:24 (00_scope.md section 5.1, decision D7). -/
def Pixel.packed (p : Pixel) : BitVec 32 := p.r ++ p.g ++ p.b ++ p.a

/-- Every slot of the Color Cache at reset (10_state.md R16). -/
def Pixel.clear : Pixel := ⟨0, 0, 0, 0⟩

/-- The seed of the Previous Pixel register (10_state.md R15). -/
def Pixel.seed : Pixel := ⟨0, 0, 0, 255⟩

end Sys2Proof
end

