-- ==== Sys2Proof/Syntax.lean ====
section
/-! DEFINITION. The instructions: one constructor per row of spec/opcode_table.json, with the fields of 30_encoding.md as the
stream spells them, and the opcode kinds of the `op` register. -/

namespace Sys2Proof

/-- The six opcode kinds and `none` (10_state.md R12). -/
inductive Op
  | none
  | rgb
  | rgba
  | index
  | diff
  | luma
  | run
deriving DecidableEq, Repr

/-- The 3-bit encoding of `op` (10_state.md R12, decision D7). -/
def Op.code : Op → BitVec 3
  | .none => 0
  | .rgb => 1
  | .rgba => 2
  | .index => 3
  | .diff => 4
  | .luma => 5
  | .run => 6

/-- The part of the stream a record belongs to: the phase selects it, no tag does (30_encoding.md R60, R61, R73). -/
inductive RecordSpace
  | header
  | ops
  | trailer
deriving DecidableEq, Repr

/-- An instruction: one of the six opcodes or of the two framing records (00_scope.md R7). Fields are raw stream bits. -/
inductive Instr
  /-- RGB (30_encoding.md R65). -/
  | rgb (r g b : Byte)
  /-- RGBA (30_encoding.md R66). -/
  | rgba (r g b a : Byte)
  /-- INDEX (30_encoding.md R67). -/
  | index (idx : BitVec 6)
  /-- DIFF (30_encoding.md R68): the three 2-bit fields. -/
  | diff (fr fg fb : BitVec 2)
  /-- LUMA (30_encoding.md R69): the 6-bit field of byte 0 and the two nibbles of byte 1. -/
  | luma (fg : BitVec 6) (frg fbg : BitVec 4)
  /-- RUN (30_encoding.md R70): the 6-bit field, 0..61. -/
  | run (frun : BitVec 6)
  /-- HEADER (30_encoding.md R61): the record as received, the first magic byte in bits 31:24 of `magic`. -/
  | header (magic width height : BitVec 32) (channels colorspace : Byte)
  /-- TRAILER (30_encoding.md R73): a constant record. -/
  | trailer
deriving DecidableEq, Repr

/-- Where a record stands in the stream (30_encoding.md R60). -/
def Instr.space : Instr → RecordSpace
  | .rgb _ _ _ => .ops
  | .rgba _ _ _ _ => .ops
  | .index _ => .ops
  | .diff _ _ _ => .ops
  | .luma _ _ _ => .ops
  | .run _ => .ops
  | .header _ _ _ _ _ => .header
  | .trailer => .trailer

/-- The length of a record in bytes (30_encoding.md R63, R61, R73). -/
def Instr.length : Instr → Nat
  | .rgb _ _ _ => 4
  | .rgba _ _ _ _ => 5
  | .index _ => 1
  | .diff _ _ _ => 1
  | .luma _ _ _ => 2
  | .run _ => 1
  | .header _ _ _ _ _ => 14
  | .trailer => 8

end Sys2Proof
end

