-- ==== Sys2Proof/WellFormed.lean ====
section
/-! DEFINITION. Which instructions have a spelling (30_encoding.md R77). The types of the fields already bound every field but one: RUN's
field values 62 and 63 are the tags of RGB and RGBA (R74). -/

namespace Sys2Proof

/-- RUN's field is 0..61 (30_encoding.md R70, R74); every other field is legal at every value its width admits (R72). A HEADER record with a
bad magic, channels or colorspace is still a HEADER: executing it raises the error (41_header.md R111). -/
def Instr.wellFormed : Instr → Bool
  | .rgb _ _ _ => true
  | .rgba _ _ _ _ => true
  | .index _ => true
  | .diff _ _ _ => true
  | .luma _ _ _ => true
  | .run frun => decide (frun.toNat < 62)
  | .header _ _ _ _ _ => true
  | .trailer => true

end Sys2Proof
end

