-- ==== Sys2Proof/Decode.lean ====
section
/-! DEFINITION. From bytes to instructions (30_encoding.md R63 to R75), total, rejecting by name, and back. -/

namespace Sys2Proof

/-- Why bytes are no record of their space. -/
inductive DecodeError
  /-- There is no byte at all. -/
  | noBytes
  /-- The record is longer than the bytes given: more bytes are to come (40_stream_sequencer.md R100). -/
  | truncated
  /-- The bytes differ from the trailer pattern (30_encoding.md R73). -/
  | notTheTrailer
deriving DecidableEq, Repr

/-- Tag decode: the two whole-byte tags first, then the top two bits (30_encoding.md R64). -/
def kindOf (t : Byte) : Op :=
  if t = 0xFE then .rgb
  else if t = 0xFF then .rgba
  else if t.extractLsb' 6 2 = 0 then .index
  else if t.extractLsb' 6 2 = 1 then .diff
  else if t.extractLsb' 6 2 = 2 then .luma
  else .run

/-- `len(op)`: the length in bytes of an opcode of this kind (30_encoding.md R63, 42_opcodes.md R126). -/
def opLength : Op → Nat
  | .none => 0
  | .rgb => 4
  | .rgba => 5
  | .index => 1
  | .diff => 1
  | .luma => 2
  | .run => 1

/-- The instruction of kind `k` whose bytes stand in `v`, the tag in `v[0]` (30_encoding.md R65 to R70). It reads only the first
`opLength k` bytes. -/
def instrOf (k : Op) (v : Vector Byte 5) : Option Instr :=
  match k with
  | .none => .none
  | .rgb => some (.rgb v[1] v[2] v[3])
  | .rgba => some (.rgba v[1] v[2] v[3] v[4])
  | .index => some (.index (v[0].extractLsb' 0 6))
  | .diff => some (.diff (v[0].extractLsb' 4 2) (v[0].extractLsb' 2 2) (v[0].extractLsb' 0 2))
  | .luma => some (.luma (v[0].extractLsb' 0 6) (v[1].extractLsb' 4 4) (v[1].extractLsb' 0 4))
  | .run => some (.run (v[0].extractLsb' 0 6))

/-- The first five bytes of a list, zeros where it is shorter. -/
def firstFive (bs : List Byte) : Vector Byte 5 :=
  #v[bs.getD 0 0, bs.getD 1 0, bs.getD 2 0, bs.getD 3 0, bs.getD 4 0]

/-- One opcode from the front of a byte list, with the rest of the list. -/
def decodeOpcode (bs : List Byte) : Except DecodeError (Instr × List Byte) :=
  match bs with
  | [] => .error .noBytes
  | t :: _ =>
    if bs.length < opLength (kindOf t) then .error .truncated
    else
      match instrOf (kindOf t) (firstFive bs) with
      | some i => .ok (i, bs.drop (opLength (kindOf t)))
      | .none => .error .noBytes

/-- `be32` (20_memory.md R41): the first byte is the most significant. -/
def be32 (b0 b1 b2 b3 : Byte) : BitVec 32 := b0 ++ b1 ++ b2 ++ b3

/-- The HEADER record that 14 bytes spell (30_encoding.md R61). -/
def headerOf (h : Vector Byte 14) : Instr :=
  .header (be32 h[0] h[1] h[2] h[3]) (be32 h[4] h[5] h[6] h[7]) (be32 h[8] h[9] h[10] h[11]) h[12] h[13]

/-- The first 14 bytes of a list, zeros where it is shorter. -/
def firstFourteen (bs : List Byte) : Vector Byte 14 :=
  #v[bs.getD 0 0, bs.getD 1 0, bs.getD 2 0, bs.getD 3 0, bs.getD 4 0, bs.getD 5 0, bs.getD 6 0,
    bs.getD 7 0, bs.getD 8 0, bs.getD 9 0, bs.getD 10 0, bs.getD 11 0, bs.getD 12 0, bs.getD 13 0]

/-- A HEADER record from the front of a byte list. -/
def decodeHeader (bs : List Byte) : Except DecodeError (Instr × List Byte) :=
  match bs with
  | [] => .error .noBytes
  | _ :: _ => if bs.length < 14 then .error .truncated else .ok (headerOf (firstFourteen bs), bs.drop 14)

/-- The trailer byte accepted at position `k` of 0..7 (44_trailer.md R161). -/
def trailerExpected (k : Nat) : Byte := if k = 7 then 0x01 else 0x00

/-- The trailer pattern (30_encoding.md R73). -/
def trailerBytes : List Byte := (List.range 8).map trailerExpected

/-- A TRAILER record from the front of a byte list. -/
def decodeTrailer (bs : List Byte) : Except DecodeError (Instr × List Byte) :=
  match bs with
  | [] => .error .noBytes
  | _ :: _ =>
    if bs.length < 8 then .error .truncated
    else if bs.take 8 = trailerBytes then .ok (.trailer, bs.drop 8)
    else .error .notTheTrailer

/-- The record at the front of a byte list, in the space that the phase selects (40_stream_sequencer.md R93). -/
def decode : RecordSpace → List Byte → Except DecodeError (Instr × List Byte)
  | .header => decodeHeader
  | .ops => decodeOpcode
  | .trailer => decodeTrailer

/-- Byte `k` of a word written big-endian, byte 0 the most significant (20_memory.md R41). -/
def byteOf32 (w : BitVec 32) (k : Nat) : Byte := w.extractLsb' (8 * (3 - k)) 8

/-- The 14 bytes of a HEADER record (30_encoding.md R61, R76). -/
def headerBytes (magic width height : BitVec 32) (channels colorspace : Byte) : Vector Byte 14 :=
  #v[byteOf32 magic 0, byteOf32 magic 1, byteOf32 magic 2, byteOf32 magic 3,
    byteOf32 width 0, byteOf32 width 1, byteOf32 width 2, byteOf32 width 3,
    byteOf32 height 0, byteOf32 height 1, byteOf32 height 2, byteOf32 height 3, channels, colorspace]

/-- The bytes that spell an instruction (30_encoding.md R65 to R70, R61, R73, R76). -/
def encode : Instr → List Byte
  | .rgb r g b => [0xFE, r, g, b]
  | .rgba r g b a => [0xFF, r, g, b, a]
  | .index idx => [(0b00 : BitVec 2) ++ idx]
  | .diff fr fg fb => [(0b01 : BitVec 2) ++ fr ++ fg ++ fb]
  | .luma fg frg fbg => [(0b10 : BitVec 2) ++ fg, frg ++ fbg]
  | .run frun => [(0b11 : BitVec 2) ++ frun]
  | .header magic width height channels colorspace => (headerBytes magic width height channels colorspace).toList
  | .trailer => trailerBytes

/-- `serialize` (41_header.md R118): the header of an image under the magic `magic`. -/
def serialize (magic width height : BitVec 32) (channels colorspace : Byte) : List Byte :=
  encode (.header magic width height channels colorspace)

/-- The space of a table row, told by its width: 112 bits is HEADER, 64 bits is TRAILER, any other an opcode. -/
def spaceOfWidth (nbits : Nat) : RecordSpace :=
  if nbits = 112 then .header else if nbits = 64 then .trailer else .ops

/-- The bytes of a table word: byte `k` of the stream is bits 8k+7 .. 8k of `w`, and every bit from `nbits` on is 0. -/
def tableBytes (nbits w : Nat) : List Byte :=
  (List.range 14).map fun k => BitVec.ofNat 8 (w % 2 ^ nbits / 256 ^ k)

/-- The instruction that the decoder reads from a table word. -/
def decodeTableWord (nbits w : Nat) : Option Instr :=
  match decode (spaceOfWidth nbits) (tableBytes nbits w) with
  | .ok (i, _) => some i
  | .error _ => .none

end Sys2Proof
end

