-- ==== Sys2Proof/Config.lean ====
section
/-! DEFINITION. What an implementation fixes before reset (00_scope.md R5) and the values the spec leaves free. -/

namespace Sys2Proof

/-- The five error kinds (60_exceptions.md R180). -/
inductive ErrorKind
  | headerMagicMismatch
  | unsupportedChannelMode
  | unsupportedColorspaceMode
  | trailerMismatch
  | prematureEndOfStream
deriving DecidableEq, Repr

/-- Parameter `RUN_OVERRUN` (00_scope.md R5, 42_opcodes.md R134). -/
inductive RunOverrun
  | clamp
  | refuse
deriving DecidableEq, Repr

/-- Optional parameter `DIFF_CODING` (92_eei_decisions.md D3). -/
inductive DiffCoding
  | excess2
  | twosComplement
deriving DecidableEq, Repr

/-- The parameters of the model (00_scope.md R5). They are fixed before reset and are never state (10_state.md R27). -/
structure Params where
  /-- `MAGIC[0..3]`, the first byte in bits 31:24 (30_encoding.md R62). -/
  magic : BitVec 32
  /-- `MAX_PIXELS` (41_header.md R119). -/
  maxPixels : Nat
  /-- `ERR_CODE` (60_exceptions.md R180). -/
  errCode : ErrorKind → BitVec 3
  /-- `PB_BASE` (20_memory.md R45). -/
  pbBase : Nat
  /-- `RUN_OVERRUN` (42_opcodes.md R134). -/
  runOverrun : RunOverrun
  /-- `DIFF_CODING` (30_encoding.md R71). -/
  diffCoding : DiffCoding

namespace Config

/-- The default error codes: 1 to 5 in the order of the list of 60_exceptions.md R180. -/
def defaultErrCode : ErrorKind → BitVec 3
  | .headerMagicMismatch => 1
  | .unsupportedChannelMode => 2
  | .unsupportedColorspaceMode => 3
  | .trailerMismatch => 4
  | .prematureEndOfStream => 5

/-- The defaults of 00_scope.md R5. PRESUMED, unsafe: `magic` (log entry 6) and `diffCoding` (log entry 7) come from
general knowledge. DESIGN CHOICE of the spec: the other four (log entries 8, 9, 10). -/
def params : Params where
  magic := 0x716F6966
  maxPixels := 2 ^ 64 - 1
  errCode := defaultErrCode
  pbBase := 0
  runOverrun := .clamp
  diffCoding := .excess2

/-- FREE VALUE: the word the host's `n`-th register read sees where the spec leaves it unspecified (93_implementation_defined.md
U4, U6; log entry 14). -/
opaque freeHostWord : Nat → BitVec 32

/-- The output ports that at some time carry no value of the spec's. -/
inductive FreePort
  | pbIndex
  | pbR
  | pbG
  | pbB
  | pbA
  | hdrValid
  | width
  | height
  | channels
  | colorspace
  | npix
deriving DecidableEq, Repr

/-- FREE VALUE: what a port carries in the `n`-th cycle where the spec gives it no value (U4, U6; log entries 14 and 22). -/
opaque freePortWord : Nat → FreePort → BitVec 64

end Config

end Sys2Proof
end

