-- ==== Sys2Proof/Machine/State.lean ====
section
/-! DEFINITION. The state the spec gives the machine (10_state.md), its events, the reasons a step can stop, and the reset state. -/

namespace Sys2Proof.Machine

/-- The part of the stream the next byte belongs to (10_state.md R11). -/
inductive Phase
  | header
  | ops
  | trailer
  | done
  | failed
deriving DecidableEq, Repr

/-- The 3-bit encoding of `phase` (10_state.md R11, decision D7). -/
def Phase.code : Phase → BitVec 3
  | .header => 0
  | .ops => 1
  | .trailer => 2
  | .done => 3
  | .failed => 4

/-- An input event (40_stream_sequencer.md R91). -/
inductive InputEvent
  /-- `Byte(b)`. -/
  | byte (b : Byte)
  /-- `End`. -/
  | endOfStream
deriving DecidableEq, Repr

/-- An output event (40_stream_sequencer.md R92). -/
inductive OutputEvent
  | headerParsed (width height : BitVec 32) (channels colorspace : Byte)
  | pixelEmitted (index : BitVec 64) (p : Pixel)
  | trailerVerified
  | completed
  | failed (kind : ErrorKind)
deriving DecidableEq, Repr

/-- The Pixel Buffer's bytes: (byte offset, byte) pairs, offsets strictly rising. An unlisted offset is unwritten and holds no value
(20_memory.md R46; log entry 11). -/
abbrev Memory := List Host.Cell

/-- The state: every register of 10_state.md R10's table, the hidden run counter of R32, and two fields of the model's own. -/
structure State where
  /-- R11. -/
  phase : Phase
  /-- R12. -/
  op : Op
  /-- R13. -/
  scratch : Vector Byte 5
  /-- R14. -/
  cnt : BitVec 3
  /-- R15: the Previous Pixel register. -/
  px : Pixel
  /-- R16: the Color Cache. -/
  cache : Vector Pixel 64
  /-- R17. -/
  hbuf : Vector Byte 14
  /-- R17. -/
  hcnt : BitVec 4
  /-- R18. -/
  width : BitVec 32
  /-- R18. -/
  height : BitVec 32
  /-- R19. -/
  channels : Byte
  /-- R19. -/
  colorspace : Byte
  /-- R20. -/
  hdrValid : Bool
  /-- R21. -/
  npix : BitVec 64
  /-- R22: counts Pixels. -/
  wptr : BitVec 64
  /-- R23. -/
  tcnt : BitVec 4
  /-- R24: `none` is the register's value NONE. -/
  err : Option ErrorKind
  /-- R26: the Pixel Buffer, by byte offset. -/
  pb : Memory
  /-- R32 and 70_reset_and_hazards.md R220: cycle level only, 0 at step level. -/
  runcnt : BitVec 6
  /-- The model's own: the input events still to come (log entry 1). -/
  input : List InputEvent
  /-- The model's own: the output events so far, oldest first (log entry 3). -/
  outputs : List OutputEvent
deriving DecidableEq, Repr

/-- Why the model stops where the spec gives no effect. No state that keeps the invariant of 10_state.md R29 reaches one of these. -/
inductive Fault
  /-- Raised by the meaning of an opcode that emits when `wptr < npix`, the precondition of 42_opcodes.md R127, does not hold. Safe. -/
  | emitOnFullBuffer
  /-- Raised by the sequencer when a byte arrives while `op` is `index`, `diff` or `run` (10_state.md R12). Safe. -/
  | opcodeNotAssembling
deriving DecidableEq, Repr

/-- What the model gives no meaning. -/
inductive Refusal
  /-- Raised by an arm of `exec` without a meaning. Safe. No arm raises it. -/
  | notModelled (mnemonic : String)
  /-- Raised by RUN when it overruns the buffer and `RUN_OVERRUN` is `refuse` (42_opcodes.md R134). Safe. -/
  | runOverrun
  /-- Raised by HEADER when `width * height` exceeds `MAX_PIXELS` (41_header.md R119). Safe. -/
  | imageTooLarge
  /-- Raised by the ports when `in_end` is asserted together with `in_valid` (40_stream_sequencer.md R99, U12). Safe. -/
  | inputConflict
deriving DecidableEq, Repr

/-- The reset state (70_reset_and_hazards.md R210). DESIGN CHOICE, unsafe: `hbuf` (log entry 4) and `width`, `height`,
`channels`, `colorspace`, `npix` (log entry 5) hold zero, where the spec gives no value. -/
def State.reset : State where
  phase := .header
  op := .none
  scratch := #v[0, 0, 0, 0, 0]
  cnt := 0
  px := .seed
  cache := Vector.replicate 64 .clear
  hbuf := Vector.replicate 14 0
  hcnt := 0
  width := 0
  height := 0
  channels := 0
  colorspace := 0
  hdrValid := false
  npix := 0
  wptr := 0
  tcnt := 0
  err := none
  pb := []
  runcnt := 0
  input := []
  outputs := []

end Sys2Proof.Machine
end

