-- ==== Sys2Proof/Machine/Operands.lean ====
section
/-! DEFINITION. Operand assembly (30_encoding.md R71) and the arithmetic on channels (42_opcodes.md R136). -/

namespace Sys2Proof.Machine

/-- `unbias_K(f) = f - K` over the integers (00_scope.md section 5.1). -/
def unbias {n : Nat} (k : Nat) (f : BitVec n) : Int := (f.toNat : Int) - k

/-- One DIFF field as a delta, -2..1 (30_encoding.md R71; the coding is parameter DIFF_CODING, log entry 7). -/
def diffDelta (c : DiffCoding) (f : BitVec 2) : Int :=
  match c with
  | .excess2 => unbias 2 f
  | .twosComplement => f.toInt

/-- LUMA's `dg`, -32..31 (30_encoding.md R71). -/
def lumaDg (fg : BitVec 6) : Int := unbias 32 fg

/-- LUMA's `dr_dg` or `db_dg`, -8..7 (30_encoding.md R71). -/
def lumaCross (f : BitVec 4) : Int := unbias 8 f

/-- LUMA's `dr` or `db`, -40..38 (30_encoding.md R71). -/
def lumaDelta (fg : BitVec 6) (f : BitVec 4) : Int := lumaCross f + lumaDg fg

/-- RUN's length `n`, 1..62 for a field of 0..61 (30_encoding.md R70, R71). -/
def runLength (frun : BitVec 6) : Nat := frun.toNat + 1

/-- `(c + d) mod 256`, the least non-negative residue: wrapping, not clamping (42_opcodes.md R136). -/
def addChannel (c : Byte) (d : Int) : Byte := BitVec.ofInt 8 ((c.toNat : Int) + d)

/-- A Pixel with a delta added to each colour channel on its own 8-bit lane, alpha passed through (42_opcodes.md R136). -/
def Pixel.addDeltas (p : Pixel) (dr dg db : Int) : Pixel :=
  ⟨addChannel p.r dr, addChannel p.g dg, addChannel p.b db, p.a⟩

end Sys2Proof.Machine
end

