-- ==== Sys2Proof/Machine/Ops.lean ====
section
/-! DEFINITION. The named operations over memory and registers: the Pixel Buffer, the Color Cache, Emit and Finish, `raise`, and the
storing of a received byte. -/

namespace Sys2Proof.Machine

/-- A step's outcome carried on to the next operation; a fault or a refusal ends it. -/
def thenDo (o : Host.Outcome State Fault Refusal) (f : State → Host.Outcome State Fault Refusal) :
    Host.Outcome State Fault Refusal :=
  match o with
  | .next s => f s
  | .fault r => .fault r
  | .refused r => .refused r

/-! ## The Pixel Buffer -/

/-- The canonical form: offsets strictly rising. -/
abbrev Memory.wf (m : Memory) : Prop := m.Pairwise (fun x y => x.1 < y.1)

/-- The byte at an offset; `none` where no write has been (20_memory.md R46). -/
def Memory.read : Memory → Nat → Option Byte
  | [], _ => none
  | c :: m, a => if c.1 = a then some c.2 else Memory.read m a

/-- A one-byte write. -/
def Memory.write : Memory → Nat → Byte → Memory
  | [], a, v => [(a, v)]
  | c :: m, a, v =>
    if a < c.1 then (a, v) :: c :: m
    else if a = c.1 then (a, v) :: m
    else c :: Memory.write m a v

/-- `MemWrite(off, 4, [r, g, b, a])`: the four channels at ascending offsets (20_memory.md R42, 00_scope.md section 5.2). -/
def Memory.writePixel (m : Memory) (off : Nat) (p : Pixel) : Memory :=
  Memory.write (Memory.write (Memory.write (Memory.write m off p.r) (off + 1) p.g) (off + 2) p.b) (off + 3) p.a

/-- The byte offset of Pixel `i` (20_memory.md R42, 45_pixel_buffer.md R171). -/
def pixelOffset (i : BitVec 64) : Nat := 4 * i.toNat

/-- Pixel `i` of the buffer, if its four bytes are written (20_memory.md R42). -/
def Memory.readPixel (m : Memory) (i : Nat) : Option Pixel :=
  match Memory.read m (4 * i), Memory.read m (4 * i + 1), Memory.read m (4 * i + 2), Memory.read m (4 * i + 3) with
  | some r, some g, some b, some a => some ⟨r, g, b, a⟩
  | _, _, _, _ => none

/-! ## The Color Cache -/

/-- `H(p) = (3r + 5g + 7b + 11a) mod 64`, the sum over the naturals (43_color_cache.md R150). -/
def hashSlot (p : Pixel) : BitVec 6 :=
  BitVec.ofNat 6 ((p.r.toNat * 3 + p.g.toNat * 5 + p.b.toNat * 7 + p.a.toNat * 11) % 64)

/-- `lookup(idx)`: a direct read with no failure mode (43_color_cache.md R151). -/
def cacheLookup (cache : Vector Pixel 64) (idx : BitVec 6) : Pixel := cache[idx.toNat]'(idx.isLt)

/-- `store(p)`: `cache[H(p)] <- p`, unconditionally (43_color_cache.md R152). -/
def cacheStore (cache : Vector Pixel 64) (p : Pixel) : Vector Pixel 64 := cache.set (hashSlot p).toNat p ((hashSlot p).isLt)

/-! ## Emit and Finish -/

/-- The effects of `Emit(p)` (42_opcodes.md R127). -/
def State.emitted (p : Pixel) (s : State) : State :=
  { s with
    px := p
    pb := Memory.writePixel s.pb (pixelOffset s.wptr) p
    outputs := s.outputs ++ [.pixelEmitted s.wptr p]
    wptr := s.wptr + 1
    cache := cacheStore s.cache p
    phase := if s.wptr + 1 = s.npix then .trailer else s.phase }

/-- `Emit(p)` under its precondition `wptr < npix` (42_opcodes.md R127, 45_pixel_buffer.md R172; log entry 12). -/
def emit (p : Pixel) (s : State) : Host.Outcome State Fault Refusal :=
  if s.wptr < s.npix then .next (s.emitted p) else .fault .emitOnFullBuffer

/-- `k` times `Emit(p)` (42_opcodes.md R133). -/
def emitRun (p : Pixel) : Nat → State → Host.Outcome State Fault Refusal
  | 0, s => .next s
  | k + 1, s => thenDo (emit p s) (emitRun p k)

/-- `Finish` (42_opcodes.md R138). -/
def State.finish (s : State) : State :=
  { s with op := .none, cnt := 0, scratch := #v[0, 0, 0, 0, 0] }

/-- The tail of every opcode that emits one Pixel: `Emit(p)`, then `Finish`. -/
def emitOne (p : Pixel) (s : State) : Host.Outcome State Fault Refusal :=
  thenDo (emit p s) fun t => .next t.finish

/-! ## Failure -/

/-- `raise K`, the one failure entry: `phase <- FAILED`, `err <- K`, `Failed(K)`; nothing is saved and no handler runs
(60_exceptions.md R188). -/
def raise (k : ErrorKind) (s : State) : State :=
  { s with phase := .failed, err := some k, outputs := s.outputs ++ [.failed k] }

/-- There is no return from failure (60_exceptions.md R190): only reset, which starts a new session whatever the state was
(70_reset_and_hazards.md R210, R212). The events still to come belong to the environment and stay. -/
def newSession (s : State) : State := { State.reset with input := s.input }

/-! ## Storing a received byte -/

/-- `hbuf[hcnt] <- b ; hcnt <- hcnt + 1` (41_header.md R110). -/
def State.storeHeaderByte (b : Byte) (s : State) : State :=
  { s with hbuf := s.hbuf.setIfInBounds s.hcnt.toNat b, hcnt := s.hcnt + 1 }

/-- A tag byte arrives: `scratch[0] <- b ; cnt <- 1 ; op <- kind(b)` (42_opcodes.md R125). -/
def State.storeTag (b : Byte) (s : State) : State :=
  { s with scratch := s.scratch.set 0 b, cnt := 1, op := kindOf b }

/-- A data byte arrives: `scratch[cnt] <- b ; cnt <- cnt + 1` (42_opcodes.md R126). -/
def State.storeData (b : Byte) (s : State) : State :=
  { s with scratch := s.scratch.setIfInBounds s.cnt.toNat b, cnt := s.cnt + 1 }

/-- The whole HEADER record stands in `hbuf` (41_header.md R110). -/
def State.withHeaderBytes (v : Vector Byte 14) (s : State) : State := { s with hbuf := v, hcnt := 14 }

/-- One more trailer byte is accepted (44_trailer.md R160). -/
def State.bumpTrailer (s : State) : State := { s with tcnt := s.tcnt + 1 }

/-- `AcceptHeader` (41_header.md R115): the header registers, the exact product `npix`, an allocated and unwritten buffer, the next
phase (40_stream_sequencer.md R94) and `HeaderParsed`. -/
def State.acceptHeader (w h : BitVec 32) (c cs : Byte) (s : State) : State :=
  { s with
    width := w
    height := h
    channels := c
    colorspace := cs
    npix := BitVec.ofNat 64 (w.toNat * h.toNat)
    hdrValid := true
    pb := []
    phase := if w.toNat * h.toNat = 0 then .trailer else .ops
    outputs := s.outputs ++ [.headerParsed w h c cs] }

/-- The whole trailer is accepted: `tcnt = 8` and `TrailerVerified` (44_trailer.md R160). -/
def State.verifyTrailer (s : State) : State :=
  { s with tcnt := 8, outputs := s.outputs ++ [.trailerVerified] }

/-- The session ends in success: `phase <- DONE`, `Completed` (40_stream_sequencer.md R96). -/
def State.complete (s : State) : State :=
  { s with phase := .done, outputs := s.outputs ++ [.completed] }

/-- The remaining input events. -/
def State.withInput (es : List InputEvent) (s : State) : State := { s with input := es }

end Sys2Proof.Machine
end

