-- ==== Sys2Proof/Machine/Delta.lean ====
section
/-! DEFINITION. DIFF and LUMA: the opcodes that add deltas to the previous Pixel (42_opcodes.md R131, R132). -/

namespace Sys2Proof.Machine

/-- DIFF under any parameters (42_opcodes.md R131). -/
def execDiffWith (P : Params) (fr fg fb : BitVec 2) (s : State) : Host.Outcome State Fault Refusal :=
  emitOne (Pixel.addDeltas s.px (diffDelta P.diffCoding fr) (diffDelta P.diffCoding fg) (diffDelta P.diffCoding fb)) s

/-- DIFF. PRESUMED, unsafe: the excess-2 coding (log entry 7). -/
def execDiff (fr fg fb : BitVec 2) (s : State) : Host.Outcome State Fault Refusal := execDiffWith Config.params fr fg fb s

/-- LUMA (42_opcodes.md R132). -/
def execLuma (fg : BitVec 6) (frg fbg : BitVec 4) (s : State) : Host.Outcome State Fault Refusal :=
  emitOne (Pixel.addDeltas s.px (lumaDelta fg frg) (lumaDg fg) (lumaDelta fg fbg)) s

end Sys2Proof.Machine
end

