-- ==== Sys2Proof/Machine/Header.lean ====
section
/-! DEFINITION. HEADER (41_header.md). -/

namespace Sys2Proof.Machine

/-- HEADER under any parameters: the record's 14 bytes stand in `hbuf` (R110), then `ParseHeader` (41_header.md R111): magic, channels and
colorspace are checked in this order and the first bad one is raised; a good header is accepted (R115) unless its image exceeds
MAX_PIXELS, which has no meaning (R119; log entry 9). -/
def execHeaderWith (P : Params) (magic width height : BitVec 32) (channels colorspace : Byte) (s : State) :
    Host.Outcome State Fault Refusal :=
  let t := s.withHeaderBytes (headerBytes magic width height channels colorspace)
  if magic ≠ P.magic then .next (raise .headerMagicMismatch t)
  else if channels ≠ 3 ∧ channels ≠ 4 then .next (raise .unsupportedChannelMode t)
  else if colorspace ≠ 0 ∧ colorspace ≠ 1 then .next (raise .unsupportedColorspaceMode t)
  else if P.maxPixels < width.toNat * height.toNat then .refused .imageTooLarge
  else .next (t.acceptHeader width height channels colorspace)

/-- HEADER. PRESUMED, unsafe: the value of the magic (log entry 6). -/
def execHeader (magic width height : BitVec 32) (channels colorspace : Byte) (s : State) :
    Host.Outcome State Fault Refusal :=
  execHeaderWith Config.params magic width height channels colorspace s

end Sys2Proof.Machine
end

