-- ==== Sys2Proof/Machine/Index.lean ====
section
/-! DEFINITION. INDEX (42_opcodes.md R130). -/

namespace Sys2Proof.Machine

/-- INDEX: the slot is read before the same step's store; all four channels are taken, alpha included; the store is always performed
(42_opcodes.md R130, 43_color_cache.md R154, R155). -/
def execIndex (idx : BitVec 6) (s : State) : Host.Outcome State Fault Refusal := emitOne (cacheLookup s.cache idx) s

end Sys2Proof.Machine
end

