-- ==== Sys2Proof/Machine/Literal.lean ====
section
/-! DEFINITION. RGB and RGBA: the opcodes whose colour stands in the stream (42_opcodes.md R128, R129). -/

namespace Sys2Proof.Machine

/-- RGB: the three data bytes, alpha from the previous Pixel (42_opcodes.md R128). -/
def execRgb (r g b : Byte) (s : State) : Host.Outcome State Fault Refusal := emitOne ⟨r, g, b, s.px.a⟩ s

/-- RGBA: the four data bytes; legal whatever `channels` is (42_opcodes.md R129, 41_header.md R116). -/
def execRgba (r g b a : Byte) (s : State) : Host.Outcome State Fault Refusal := emitOne ⟨r, g, b, a⟩ s

end Sys2Proof.Machine
end

