-- ==== Sys2Proof/Machine/Run.lean ====
section
/-! DEFINITION. RUN (42_opcodes.md R133, R134). -/

namespace Sys2Proof.Machine

/-- `npix - wptr`: the Pixels that still fit (42_opcodes.md R134). -/
def State.room (s : State) : Nat := s.npix.toNat - s.wptr.toNat

/-- RUN under any parameters: `min(n, npix - wptr)` copies of the previous Pixel, or no meaning where the run overruns and RUN_OVERRUN
is `refuse` (42_opcodes.md R133, R134; log entry 8). -/
def execRunWith (P : Params) (frun : BitVec 6) (s : State) : Host.Outcome State Fault Refusal :=
  if s.room < runLength frun ∧ P.runOverrun = .refuse then .refused .runOverrun
  else thenDo (emitRun s.px (min (runLength frun) s.room) s) fun t => .next t.finish

/-- RUN. -/
def execRun (frun : BitVec 6) (s : State) : Host.Outcome State Fault Refusal := execRunWith Config.params frun s

end Sys2Proof.Machine
end

