-- ==== Sys2Proof/Machine/Trailer.lean ====
section
/-! DEFINITION. TRAILER (44_trailer.md). -/

namespace Sys2Proof.Machine

/-- TRAILER: the record is complete (`tcnt = 8`, `TrailerVerified`), unless a complete one stands already: its first byte is then a 9th
trailer byte, `TrailerMismatch` (44_trailer.md R160, R162; log entry 13). -/
def execTrailer (s : State) : Host.Outcome State Fault Refusal :=
  if 8 ≤ s.tcnt.toNat then .next (raise .trailerMismatch s) else .next s.verifyTrailer

end Sys2Proof.Machine
end

