-- ==== Sys2Proof/Machine/Meaning.lean ====
section
/-! DEFINITION. The meaning of a record under any parameters: 00_scope.md R5 makes them arguments of the model (92_eei_decisions.md, OPEN). -/

namespace Sys2Proof.Machine

/-- `exec` with the parameters as an argument; under the defaults it is `exec` (`execWith_default` in Laws/Ops.lean). RGB, RGBA, INDEX,
LUMA and TRAILER read none. -/
def execWith (P : Params) (i : Instr) (s : State) : Host.Outcome State Fault Refusal :=
  match i with
  | .rgb r g b => execRgb r g b s
  | .rgba r g b a => execRgba r g b a s
  | .index idx => execIndex idx s
  | .diff fr fg fb => execDiffWith P fr fg fb s
  | .luma fg frg fbg => execLuma fg frg fbg s
  | .run frun => execRunWith P frun s
  | .header magic width height channels colorspace => execHeaderWith P magic width height channels colorspace s
  | .trailer => execTrailer s

end Sys2Proof.Machine
end

