-- ==== Sys2Proof/Machine/Sequencer.lean ====
section
/-! DEFINITION. The sequencer: under any parameters (00_scope.md R5), how one input event is routed by phase, and how the bytes of a record are assembled
until the record runs (40_stream_sequencer.md R93, R96; 41_header.md R110; 42_opcodes.md R125, R126; 44_trailer.md R160). -/

namespace Sys2Proof.Machine

/-- `HeaderByte` (41_header.md R110): the byte is stored; the 14th one completes the HEADER record. -/
def headerByte (P : Params) (b : Byte) (s : State) : Host.Outcome State Fault Refusal :=
  let t := s.storeHeaderByte b
  if t.hcnt = 14 then execWith P (headerOf t.hbuf) t else .next t

/-- The opcode in `op` has all its bytes in `scratch`: run it (42_opcodes.md R125, R126). -/
def runAssembled (P : Params) (t : State) : Host.Outcome State Fault Refusal :=
  match instrOf t.op t.scratch with
  | some i => execWith P i t
  | none => .fault .opcodeNotAssembling

/-- `OpcodeByte` (42_opcodes.md R125 for a tag byte, R126 for a data byte). With `op` index, diff or run between steps, which
10_state.md R12 excludes, there is no rule: the model stops. -/
def opcodeByte (P : Params) (b : Byte) (s : State) : Host.Outcome State Fault Refusal :=
  match s.op with
  | .none => if opLength (kindOf b) = 1 then runAssembled P (s.storeTag b) else .next (s.storeTag b)
  | .rgb => if s.cnt.toNat + 1 = 4 then runAssembled P (s.storeData b) else .next (s.storeData b)
  | .rgba => if s.cnt.toNat + 1 = 5 then runAssembled P (s.storeData b) else .next (s.storeData b)
  | .luma => if s.cnt.toNat + 1 = 2 then runAssembled P (s.storeData b) else .next (s.storeData b)
  | .index => .fault .opcodeNotAssembling
  | .diff => .fault .opcodeNotAssembling
  | .run => .fault .opcodeNotAssembling

/-- `TrailerByte` (44_trailer.md R160): a 9th byte or a wrong byte is `TrailerMismatch`; the 8th good byte completes the record. -/
def trailerByte (P : Params) (b : Byte) (s : State) : Host.Outcome State Fault Refusal :=
  if 8 ≤ s.tcnt.toNat then .next (raise .trailerMismatch s)
  else if b ≠ trailerExpected s.tcnt.toNat then .next (raise .trailerMismatch s)
  else if s.tcnt.toNat = 7 then execWith P .trailer s
  else .next s.bumpTrailer

/-- The `End` event (40_stream_sequencer.md R96, R97). -/
def endEvent (s : State) : State :=
  match s.phase with
  | .header => raise .prematureEndOfStream s
  | .ops => raise .prematureEndOfStream s
  | .trailer => if s.tcnt = 8 then s.complete else raise .prematureEndOfStream s
  | .done => s
  | .failed => s

/-- A `Byte` event, routed by phase (40_stream_sequencer.md R93); the terminal phases absorb it (R97). -/
def byteEvent (P : Params) (b : Byte) (s : State) : Host.Outcome State Fault Refusal :=
  match s.phase with
  | .header => headerByte P b s
  | .ops => opcodeByte P b s
  | .trailer => trailerByte P b s
  | .done => .next s
  | .failed => .next s

/-- One input event. -/
def accept (P : Params) (e : InputEvent) (s : State) : Host.Outcome State Fault Refusal :=
  match e with
  | .byte b => byteEvent P b s
  | .endOfStream => .next (endEvent s)

/-! ## Placing a record for the next step -/

/-- A session in which opcode bytes are accepted: the state as it is, if it is one; otherwise phase OPS with 64 Pixels to go
(log entry 2). -/
def openForOpcodes (s : State) : State :=
  if s.phase = .ops ∧ s.wptr < s.npix then s else { s with phase := .ops, npix := s.wptr + 64 }

/-- The opcode at the front of `bs` is placed: all its bytes but the last are already received, the last is the next event. -/
def placeOpcode (bs : List Byte) (s : State) : State :=
  let t := openForOpcodes s
  let n := opLength (kindOf (bs.getD 0 0))
  { t with
    op := if n = 1 then .none else kindOf (bs.getD 0 0)
    cnt := BitVec.ofNat 3 (n - 1)
    scratch := firstFive (bs.take (n - 1))
    input := .byte (bs.getD (n - 1) 0) :: s.input }

/-- A HEADER record is placed: 13 bytes are already received, the 14th is the next event. -/
def placeHeader (bs : List Byte) (s : State) : State :=
  { s with
    phase := .header
    hbuf := firstFourteen (bs.take 13)
    hcnt := 13
    input := .byte (bs.getD 13 0) :: s.input }

/-- How many leading bytes of `bs` agree with the trailer pattern, at most 7. -/
def trailerAgreement (bs : List Byte) : Nat :=
  (((bs.zip trailerBytes).take 7).takeWhile fun x => x.1 == x.2).length

/-- A TRAILER record is placed: the bytes before its last (or before its first wrong one) are already accepted. -/
def placeTrailer (bs : List Byte) (s : State) : State :=
  { s with
    phase := .trailer
    tcnt := BitVec.ofNat 4 (trailerAgreement bs)
    input := .byte (bs.getD (trailerAgreement bs) 0) :: s.input }

/-- A record is placed in the space it belongs to. -/
def placeRecord (sp : RecordSpace) (bs : List Byte) (s : State) : State :=
  match sp with
  | .header => placeHeader bs s
  | .ops => placeOpcode bs s
  | .trailer => placeTrailer bs s

end Sys2Proof.Machine
end

