-- ==== Sys2Proof/Machine/Step.lean ====
section
/-! DEFINITION. One step: the next input event is processed to completion (40_stream_sequencer.md R90). With no event to process the core
waits, and waiting changes no state (R90, 60_exceptions.md R194). -/

namespace Sys2Proof.Machine

/-- One step under any parameters (00_scope.md R5, R6). -/
def stepWith (P : Params) (s : State) : Host.Outcome State Fault Refusal :=
  match s.input with
  | [] => .next s
  | e :: es => accept P e (s.withInput es)

/-- One step under the default parameters. -/
def step (s : State) : Host.Outcome State Fault Refusal := stepWith Config.params s

/-- The state in which the very next step receives the last byte of the record that a table word spells, and so runs it
(log entry 2: a record's earlier bytes stand received, and the phase that selects it is set). -/
def State.withFetchWord (s : State) (nbits w : Nat) : State :=
  placeRecord (spaceOfWidth nbits) (tableBytes nbits w) s

end Sys2Proof.Machine
end

