-- ==== Sys2Proof/Machine/Assembly.lean ====
section
/-! DEFINITION. The equivalent representation of an opcode in progress as a tagged variant (42_opcodes.md R139). -/

namespace Sys2Proof.Machine

/-- `Idle | Luma(tag) | Rgb(0..2 bytes) | Rgba(0..3 bytes)`. -/
inductive Assembly
  | idle
  | luma (tag : Byte)
  | rgb (data : List Byte)
  | rgba (data : List Byte)
deriving DecidableEq, Repr

/-- The data bytes received so far. -/
def receivedData (s : State) : List Byte := (s.scratch.toList.drop 1).take (s.cnt.toNat - 1)

/-- The variant that the triple (`op`, `scratch`, `cnt`) stands for. -/
def assemblyOf (s : State) : Assembly :=
  match s.op with
  | .none => .idle
  | .rgb => .rgb (receivedData s)
  | .rgba => .rgba (receivedData s)
  | .luma => .luma s.scratch[0]
  | .index => .idle
  | .diff => .idle
  | .run => .idle

/-- The triple that a variant stands for. -/
def assemblyRegisters : Assembly → Op × Vector Byte 5 × BitVec 3
  | .idle => (.none, #v[0, 0, 0, 0, 0], 0)
  | .luma tag => (.luma, #v[tag, 0, 0, 0, 0], 1)
  | .rgb d => (.rgb, #v[0xFE, d.getD 0 0, d.getD 1 0, d.getD 2 0, d.getD 3 0], BitVec.ofNat 3 (d.length + 1))
  | .rgba d => (.rgba, #v[0xFF, d.getD 0 0, d.getD 1 0, d.getD 2 0, d.getD 3 0], BitVec.ofNat 3 (d.length + 1))

end Sys2Proof.Machine
end

