-- ==== Sys2Proof/Machine/Flags.lean ====
section
/-! DEFINITION. The status flags, derived combinationally from the state (10_state.md R25). No opcode sets or tests one. -/

namespace Sys2Proof.Machine

/-- `busy = (phase in {HEADER, OPS, TRAILER})`. -/
def State.busy (s : State) : Bool :=
  match s.phase with
  | .header => true
  | .ops => true
  | .trailer => true
  | .done => false
  | .failed => false

/-- `done = (phase = DONE)`. -/
def State.isDone (s : State) : Bool := decide (s.phase = .done)

/-- `fail = (phase = FAILED)`. -/
def State.isFail (s : State) : Bool := decide (s.phase = .failed)

/-- `trailer_ok = (phase in {TRAILER, DONE} and tcnt = 8)`. -/
def State.trailerOk (s : State) : Bool := decide ((s.phase = .trailer ∨ s.phase = .done) ∧ s.tcnt = 8)

end Sys2Proof.Machine
end

