-- ==== Sys2Proof/Machine/HostView.lean ====
section
/-! DEFINITION. What the host can read: the register map (10_state.md R30, R31), the result of a session (45_pixel_buffer.md R174) and the
buffer at its platform addresses (20_memory.md R45, R48). None of it changes the state: the host has no writable register. -/

namespace Sys2Proof.Machine

/-- The nine read-only registers (10_state.md R30). -/
inductive HostReg
  | status
  | err
  | width
  | height
  | mode
  | npixLo
  | npixHi
  | wptrLo
  | wptrHi
deriving DecidableEq, Repr

/-- The register numbers (10_state.md R30, decision D9). -/
def HostReg.number : HostReg → Nat
  | .status => 0
  | .err => 1
  | .width => 2
  | .height => 3
  | .mode => 4
  | .npixLo => 5
  | .npixHi => 6
  | .wptrLo => 7
  | .wptrHi => 8

/-- The header registers hold values that the contract to the host covers (10_state.md R30, R31). -/
def State.headerVisible (s : State) : Bool := s.hdrValid && decide (s.phase ≠ .failed)

/-- The code of `err`: 0 for NONE, else parameter ERR_CODE (60_exceptions.md R180). -/
def errCodeOf (P : Params) (e : Option ErrorKind) : BitVec 3 :=
  match e with
  | none => 0
  | some k => P.errCode k

/-- STATUS: bit 0 `busy`, 1 `hdr_valid`, 2 `trailer_ok`, 3 `done`, 4 `fail`, 7:5 `phase`, the rest 0 (10_state.md R30). After a failure only
`phase` is covered, so bit 1 is then the free bit `v` (R31). -/
def statusWord (v : Bool) (s : State) : BitVec 32 :=
  (0 : BitVec 24) ++ s.phase.code ++ BitVec.ofBool s.isFail ++ BitVec.ofBool s.isDone ++ BitVec.ofBool s.trailerOk
    ++ BitVec.ofBool (if s.phase = .failed then v else s.hdrValid) ++ BitVec.ofBool s.busy

/-- The value the host's read number `n` of a register returns; a field that is unspecified then (10_state.md R30, R31; U4, U6) takes its
bits from a free word, reserved bits read 0 (U16; log entry 14). -/
def hostRead (P : Params) (n : Nat) (reg : HostReg) (s : State) : BitVec 32 :=
  let free := Config.freeHostWord n
  match reg with
  | .status => statusWord (free.getLsbD 1) s
  | .err => (0 : BitVec 29) ++ errCodeOf P s.err
  | .width => if s.headerVisible then s.width else free
  | .height => if s.headerVisible then s.height else free
  | .mode =>
    (0 : BitVec 16) ++ (if s.headerVisible then s.colorspace ++ s.channels else free.extractLsb' 0 16)
  | .npixLo => if s.headerVisible then s.npix.extractLsb' 0 32 else free
  | .npixHi => if s.headerVisible then s.npix.extractLsb' 32 32 else free
  | .wptrLo => if s.phase = .failed then free else s.wptr.extractLsb' 0 32
  | .wptrHi => if s.phase = .failed then free else s.wptr.extractLsb' 32 32

/-- The platform address of channel `k` of Pixel `i` (20_memory.md R45). -/
def platformAddress (P : Params) (i k : Nat) : Nat := P.pbBase + 4 * i + k

/-- A host read of a platform address: only in DONE, and only inside the buffer, is there a byte (20_memory.md R48; U5). -/
def hostReadByte (P : Params) (addr : Nat) (s : State) : Option Byte :=
  if s.phase = .done ∧ P.pbBase ≤ addr then Memory.read s.pb (addr - P.pbBase) else none

/-- The result of a successful session (45_pixel_buffer.md R174). -/
structure Result where
  width : BitVec 32
  height : BitVec 32
  /-- Raw RGBA bytes, row-major, 4 bytes per Pixel. -/
  buffer : List Byte
deriving DecidableEq, Repr

/-- The result; there is none before `Completed` and none after a failure (45_pixel_buffer.md R174, R175). -/
def State.result (s : State) : Option Result :=
  if s.phase = .done then some ⟨s.width, s.height, s.pb.map (·.2)⟩ else none

/-- Column and row of Pixel `i` (20_memory.md R42). -/
def rasterPoint (width : BitVec 32) (i : Nat) : Nat × Nat := (i % width.toNat, i / width.toNat)

/-- The image point at column `x`, row `y` of a finished session. -/
def State.imagePoint (s : State) (x y : Nat) : Option Pixel :=
  if s.phase = .done ∧ x < s.width.toNat ∧ y < s.height.toNat then Memory.readPixel s.pb (y * s.width.toNat + x)
  else none

end Sys2Proof.Machine
end

