-- ==== Sys2Proof/Machine/Cycle.lean ====
section
/-! DEFINITION. The ports of a hardware realisation (40_stream_sequencer.md R99) and the refinement with one Pixel write per clock cycle
(70_reset_and_hazards.md R220), over the same state: the hidden register is `runcnt` (10_state.md R32). -/

namespace Sys2Proof.Machine

/-- The input ports in one cycle (40_stream_sequencer.md R99). -/
structure PortsIn where
  rst : Bool
  inValid : Bool
  inData : Byte
  inEnd : Bool
deriving DecidableEq, Repr

/-- A cycle in which the environment asserts nothing. -/
def PortsIn.idle : PortsIn := ⟨false, false, 0, false⟩

/-- A cycle that offers a byte. -/
def PortsIn.offer (b : Byte) : PortsIn := ⟨false, true, b, false⟩

/-- A cycle that offers `End`. -/
def PortsIn.offerEnd : PortsIn := ⟨false, false, 0, true⟩

/-- A RUN is draining. -/
def State.draining (s : State) : Bool := decide (s.op = .run) && decide (s.runcnt ≠ 0)

/-- `in_ready` (70_reset_and_hazards.md R220). -/
def inReady (rst : Bool) (s : State) : Bool := !rst && s.busy && !s.draining

/-- `runcnt <- k`. -/
def State.setRuncnt (k : BitVec 6) (s : State) : State := { s with runcnt := k }

/-- After a Pixel of a RUN: `runcnt <- k`, and `Finish` when no Pixel is left. -/
def State.runLeft (k : BitVec 6) (s : State) : State :=
  if k = 0 then (s.setRuncnt k).finish else s.setRuncnt k

/-- The cycle of a draining RUN: `Emit(px) ; runcnt <- runcnt - 1 ; if runcnt - 1 = 0 then Finish`. -/
def drainCycle (s : State) : Host.Outcome State Fault Refusal :=
  thenDo (emit s.px s) fun t => .next (t.runLeft (s.runcnt - 1))

/-- The cycle that accepts a RUN byte: `k <- min(n, npix - wptr) ; Emit(px) ; runcnt <- k - 1`. -/
def startRunWith (P : Params) (frun : BitVec 6) (s : State) : Host.Outcome State Fault Refusal :=
  if s.room < runLength frun ∧ P.runOverrun = .refuse then .refused .runOverrun
  else thenDo (emit s.px s) fun t => .next (t.runLeft (BitVec.ofNat 6 (min (runLength frun) s.room - 1)))

/-- The cycle that accepts a byte: the step of that byte, but that a RUN writes only its first Pixel. -/
def byteCycle (P : Params) (b : Byte) (s : State) : Host.Outcome State Fault Refusal :=
  if s.phase = .ops ∧ s.op = .none ∧ kindOf b = .run then
    startRunWith P (b.extractLsb' 0 6) (s.storeTag b)
  else byteEvent P b s

/-- One rising clock edge (70_reset_and_hazards.md R220; reset: R210), under any parameters. `in_end` with `in_valid` is a protocol violation and has no
meaning (U12). -/
def cycle (P : Params) (i : PortsIn) (s : State) : Host.Outcome State Fault Refusal :=
  if i.rst then .next (newSession s)
  else if i.inValid && i.inEnd then .refused .inputConflict
  else if s.draining then drainCycle s
  else if i.inValid && inReady i.rst s then byteCycle P i.inData s
  else if i.inEnd && inReady i.rst s then .next (endEvent s)
  else .next s

/-- `k` cycles with the environment asserting nothing. -/
def idleCycles (P : Params) : Nat → State → Host.Outcome State Fault Refusal
  | 0, s => .next s
  | k + 1, s => thenDo (cycle P .idle s) (idleCycles P k)

/-- The output ports in one cycle (40_stream_sequencer.md R99). -/
structure PortsOut where
  inReady : Bool
  pbWe : Bool
  pbIndex : BitVec 64
  pbR : Byte
  pbG : Byte
  pbB : Byte
  pbA : Byte
  hdrValid : Bool
  width : BitVec 32
  height : BitVec 32
  channels : Byte
  colorspace : Byte
  npix : BitVec 64
  busy : Bool
  trailerOk : Bool
  done : Bool
  fail : Bool
  err : BitVec 3
deriving DecidableEq, Repr

/-- The output ports in the cycle number `n`, which leads from `s` to `t`. Registers show `s`; a Pixel is written exactly when `wptr` moves
(when each port shows its value is the model's choice, log entry 16). What the spec leaves unspecified is drawn from free port words: the
header ports before `hdr_valid` and after a failure, `hdr_valid` itself after a failure (10_state.md R31; U4, U6; log entry 14). DESIGN
CHOICE, safe (log entry 22): `pb_index` and the four channels in a cycle with `pb_we = 0`, to which 40_stream_sequencer.md R99 gives no
value, are free too. -/
def portsOut (P : Params) (n : Nat) (i : PortsIn) (s t : State) : PortsOut :=
  let free := Config.freePortWord n
  let we := !i.rst && decide (t.wptr ≠ s.wptr)
  { inReady := inReady i.rst s
    pbWe := we
    pbIndex := if we then s.wptr else free .pbIndex
    pbR := if we then t.px.r else (free .pbR).setWidth 8
    pbG := if we then t.px.g else (free .pbG).setWidth 8
    pbB := if we then t.px.b else (free .pbB).setWidth 8
    pbA := if we then t.px.a else (free .pbA).setWidth 8
    hdrValid := if s.phase = .failed then (free .hdrValid).getLsbD 0 else s.hdrValid
    width := if s.headerVisible then s.width else (free .width).setWidth 32
    height := if s.headerVisible then s.height else (free .height).setWidth 32
    channels := if s.headerVisible then s.channels else (free .channels).setWidth 8
    colorspace := if s.headerVisible then s.colorspace else (free .colorspace).setWidth 8
    npix := if s.headerVisible then s.npix else free .npix
    busy := s.busy
    trailerOk := s.trailerOk
    done := s.isDone
    fail := s.isFail
    err := errCodeOf P s.err }

end Sys2Proof.Machine
end

