-- ==== Sys2Proof/Safety.lean ====
section
/-! DEFINITION. What counts as a safe run, in the terms the claims use: the invariant of 10_state.md R29, the output trace of 20_memory.md R47, the
effect of an Emit, and a reference decoder for whole streams. -/

namespace Sys2Proof.Machine

/-- Every cache slot holds the reset Pixel or a Pixel that hashes to it (10_state.md R29 item 8). -/
def CacheSound (cache : Vector Pixel 64) : Prop :=
  ∀ i : BitVec 6, cacheLookup cache i = .clear ∨ hashSlot (cacheLookup cache i) = i

/-- The invariant of 10_state.md R29 (items 1 to 9), with the register relations of R18 to R26 and the canonical form of the buffer.
Item 10 is a statement about the run's history and stands as the alpha law of 42_opcodes.md R135 in the obligations. -/
structure SessionInv (s : State) : Prop where
  /-- Item 1. -/
  header_unparsed : s.phase = .header → s.hdrValid = false
  /-- Item 1. -/
  parsed : s.phase = .ops ∨ s.phase = .trailer ∨ s.phase = .done → s.hdrValid = true
  /-- Item 2. -/
  header_fresh : s.phase = .header → s.hcnt.toNat ≤ 13 ∧ s.op = .none ∧ s.cnt = 0 ∧ s.wptr = 0 ∧ s.tcnt = 0 ∧
    s.px = .seed ∧ s.cache = Vector.replicate 64 .clear
  /-- Item 3. -/
  ops_open : s.phase = .ops → s.hcnt = 14 ∧ s.wptr < s.npix ∧ s.tcnt = 0
  /-- Item 4. -/
  full : s.phase = .trailer ∨ s.phase = .done → s.wptr = s.npix ∧ s.op = .none
  /-- Item 4. -/
  done_verified : s.phase = .done → s.tcnt = 8
  /-- R23: a position 0..8. -/
  tcnt_le : s.tcnt.toNat ≤ 8
  /-- Item 5, and 42_opcodes.md R138: nothing is assembled, and `scratch` is clear. -/
  op_none : s.op = .none → s.cnt = 0 ∧ s.scratch = #v[0, 0, 0, 0, 0]
  /-- Items 5 and 6. -/
  op_rgb : s.op = .rgb → 1 ≤ s.cnt.toNat ∧ s.cnt.toNat ≤ 3 ∧ s.scratch[0] = 0xFE
  /-- Items 5 and 6. -/
  op_rgba : s.op = .rgba → 1 ≤ s.cnt.toNat ∧ s.cnt.toNat ≤ 4 ∧ s.scratch[0] = 0xFF
  /-- Items 5 and 6. -/
  op_luma : s.op = .luma → s.cnt = 1 ∧ s.scratch[0].extractLsb' 6 2 = 2
  /-- Item 5. -/
  op_between : s.op ≠ .index ∧ s.op ≠ .diff ∧ s.op ≠ .run
  /-- R13: the entries from `cnt` on are still clear. -/
  scratch_clear : ∀ k : Fin 5, s.cnt.toNat ≤ k.val → s.scratch[k.val] = 0
  /-- Item 7. -/
  last_pixel : s.wptr ≠ 0 → Memory.readPixel s.pb (s.wptr.toNat - 1) = some s.px ∧ cacheLookup s.cache (hashSlot s.px) = s.px
  /-- Item 8. -/
  cache_sound : CacheSound s.cache
  /-- Item 9. -/
  err_iff : s.err = none ↔ s.phase ≠ .failed
  /-- The buffer is in canonical form. -/
  pb_wf : Memory.wf s.pb
  /-- R26: a byte has a value exactly when its Pixel's index is below `wptr`. -/
  pb_written : ∀ a : Nat, (Memory.read s.pb a).isSome = true ↔ a < 4 * s.wptr.toNat
  /-- R21, R19. -/
  header_registers : s.hdrValid = true → s.npix.toNat = s.width.toNat * s.height.toNat ∧
    (s.channels = 3 ∨ s.channels = 4) ∧ (s.colorspace = 0 ∨ s.colorspace = 1)
  /-- R22. -/
  wptr_le : s.hdrValid = true → s.wptr ≤ s.npix
  /-- R22, R26: before the header is parsed there is no buffer. -/
  no_buffer : s.hdrValid = false → s.wptr = 0
  /-- 70_reset_and_hazards.md R220: no RUN drains between steps. -/
  not_draining : s.runcnt = 0

/-- `n` steps under any parameters, stopping at the first fault or refusal. -/
def runStepsWith (P : Params) : Nat → State → Host.Outcome State Fault Refusal
  | 0, s => .next s
  | n + 1, s => thenDo (stepWith P s) (runStepsWith P n)

/-- `n` steps under the default parameters. It is `Host.Core.run core` (Laws/Sequencer.lean). -/
abbrev runSteps (n : Nat) (s : State) : Host.Outcome State Fault Refusal := runStepsWith Config.params n s

/-- The events arrive in chunks (20_memory.md R53): each chunk is processed to its end before the next one is delivered. -/
def deliver : List (List InputEvent) → State → Host.Outcome State Fault Refusal
  | [], s => .next s
  | c :: cs, s => thenDo (runSteps c.length (s.withInput c)) (deliver cs)

/-- The pixel events of a buffer with `n` Pixels written. -/
def pixelEvents (m : Memory) (n : Nat) : List OutputEvent :=
  (List.range n).filterMap fun i => (Memory.readPixel m i).map fun p => .pixelEmitted (BitVec.ofNat 64 i) p

/-- The event of an accepted header. -/
def headerEvents (hdrValid : Bool) (w h : BitVec 32) (c cs : Byte) : List OutputEvent :=
  match hdrValid with
  | true => [.headerParsed w h c cs]
  | false => []

/-- The event of a complete trailer. -/
def trailerEvents (tcnt : BitVec 4) : List OutputEvent := if tcnt = 8 then [.trailerVerified] else []

/-- The event of a session that ended in success. -/
def doneEvents (p : Phase) : List OutputEvent :=
  match p with
  | .header => []
  | .ops => []
  | .trailer => []
  | .done => [.completed]
  | .failed => []

/-- The event of a session that ended in failure. -/
def failureEvents (e : Option ErrorKind) : List OutputEvent :=
  match e with
  | none => []
  | some k => [.failed k]

/-- The one order of output events (20_memory.md R47 (d)): HeaderParsed, the Pixels in ascending order, TrailerVerified, and Completed or
Failed last. -/
def traceOf (s : State) : List OutputEvent :=
  headerEvents s.hdrValid s.width s.height s.channels s.colorspace ++ pixelEvents s.pb s.wptr.toNat ++ trailerEvents s.tcnt
    ++ doneEvents s.phase ++ failureEvents s.err

/-- The effects of one `Emit(p)` and `Finish` from `s` to `t`, each register told in the spec's terms (42_opcodes.md R127, R138). -/
structure EmitsOne (p : Pixel) (s t : State) : Prop where
  px : t.px = p
  wptr : t.wptr = s.wptr + 1
  written : Memory.readPixel t.pb s.wptr.toNat = some p
  elsewhere : ∀ a : Nat, a < pixelOffset s.wptr ∨ pixelOffset s.wptr + 4 ≤ a → Memory.read t.pb a = Memory.read s.pb a
  stored : cacheLookup t.cache (hashSlot p) = p
  other_slots : ∀ i : BitVec 6, i ≠ hashSlot p → cacheLookup t.cache i = cacheLookup s.cache i
  event : t.outputs = s.outputs ++ [.pixelEmitted s.wptr p]
  phase : t.phase = if s.wptr + 1 = s.npix then .trailer else s.phase
  finished : t.op = .none ∧ t.cnt = 0 ∧ t.scratch = #v[0, 0, 0, 0, 0]

/-- The registers that no opcode writes (10_state.md R17 to R24, R32): the header buffer and registers, `tcnt`, `err`, `runcnt`, and the
events still to come. -/
structure KeepsSession (s t : State) : Prop where
  hbuf : t.hbuf = s.hbuf
  hcnt : t.hcnt = s.hcnt
  width : t.width = s.width
  height : t.height = s.height
  channels : t.channels = s.channels
  colorspace : t.colorspace = s.colorspace
  hdrValid : t.hdrValid = s.hdrValid
  npix : t.npix = s.npix
  tcnt : t.tcnt = s.tcnt
  err : t.err = s.err
  runcnt : t.runcnt = s.runcnt
  input : t.input = s.input

/-- The registers of the opcode state machine and of the buffer controller, which header and trailer bytes never touch
(43_color_cache.md R157, 44_trailer.md R160). -/
structure KeepsPixels (s t : State) : Prop where
  op : t.op = s.op
  scratch : t.scratch = s.scratch
  cnt : t.cnt = s.cnt
  px : t.px = s.px
  cache : t.cache = s.cache
  wptr : t.wptr = s.wptr
  runcnt : t.runcnt = s.runcnt

/-- The effects of an accepted HEADER record from `s` to `t`, each register told in the spec's terms (41_header.md R110, R115). -/
structure AcceptsHeader (magic w h : BitVec 32) (c cs : Byte) (s t : State) : Prop where
  width : t.width = w
  height : t.height = h
  channels : t.channels = c
  colorspace : t.colorspace = cs
  npix : t.npix.toNat = w.toNat * h.toNat
  hdrValid : t.hdrValid = true
  unwritten : ∀ a, Memory.read t.pb a = none
  phase : t.phase = if w.toNat * h.toNat = 0 then .trailer else .ops
  event : t.outputs = s.outputs ++ [.headerParsed w h c cs]
  bytes : t.hbuf = headerBytes magic w h c cs ∧ t.hcnt = 14
  pixels : KeepsPixels s t
  rest : t.tcnt = s.tcnt ∧ t.err = s.err ∧ t.input = s.input

/-- Two states that differ at most where the spec gives no value yet: the header bytes not received, and the header registers before the
header is parsed (10_state.md R17 to R21; 93_implementation_defined.md U3, U4). -/
def SameButUnspecified (s t : State) : Prop :=
  t = { s with
    hbuf := t.hbuf
    width := t.width
    height := t.height
    channels := t.channels
    colorspace := t.colorspace
    npix := t.npix } ∧
  (∀ k : Fin 14, k.val < s.hcnt.toNat → t.hbuf[k.val] = s.hbuf[k.val]) ∧
  (s.hdrValid = true → t.width = s.width ∧ t.height = s.height ∧ t.channels = s.channels ∧ t.colorspace = s.colorspace ∧
    t.npix = s.npix)

/-- The header registers (10_state.md R18 to R21). -/
structure KeepsHeader (s t : State) : Prop where
  width : t.width = s.width
  height : t.height = s.height
  channels : t.channels = s.channels
  colorspace : t.colorspace = s.colorspace
  hdrValid : t.hdrValid = s.hdrValid
  npix : t.npix = s.npix

/-- A session is being decoded and a tag byte is next. -/
structure AwaitsTag (s : State) : Prop where
  phase : s.phase = .ops
  op : s.op = .none
  cnt : s.cnt = 0
  scratch : s.scratch = #v[0, 0, 0, 0, 0]

/-- The machine stands at the start of a record of this space: nothing of the record has been received. -/
def AtRecordStart : RecordSpace → State → Prop
  | .header, s => s.phase = .header ∧ s.hcnt = 0
  | .ops, s => AwaitsTag s
  | .trailer, s => s.phase = .trailer ∧ s.tcnt = 0

/-! ## A reference decoder for whole streams

It is written over 8-bit lanes that wrap at each addition (42_opcodes.md R132) and over a cache that is a function, so that it shares no operation
with the machine but the hash. -/

/-- A DIFF field as a byte to add (30_encoding.md R71). Excess-2 has a bias of 2, which is the spec's decision D3 (log entry 7). -/
def refDiff (c : DiffCoding) (f : BitVec 2) : Byte :=
  match c with
  | .excess2 => f.setWidth 8 - 2
  | .twosComplement => f.signExtend 8

/-- What one opcode decodes to: the Pixel and how many copies (42_opcodes.md R128 to R133, R137). -/
def refPixels (c : DiffCoding) (i : Instr) (px : Pixel) (cache : BitVec 6 → Pixel) : List Pixel :=
  match i with
  | .rgb r g b => [⟨r, g, b, px.a⟩]
  | .rgba r g b a => [⟨r, g, b, a⟩]
  | .index idx => [cache idx]
  | .diff fr fg fb => [⟨px.r + refDiff c fr, px.g + refDiff c fg, px.b + refDiff c fb, px.a⟩]
  | .luma fg frg fbg =>
    [⟨px.r + (frg.setWidth 8 - 8) + (fg.setWidth 8 - 32), px.g + (fg.setWidth 8 - 32),
      px.b + (fbg.setWidth 8 - 8) + (fg.setWidth 8 - 32), px.a⟩]
  | .run frun => List.replicate (frun.toNat + 1) px
  | .header _ _ _ _ _ => []
  | .trailer => []

/-- The cache after some Pixels have been emitted, in order. -/
def refStore (cache : BitVec 6 → Pixel) : List Pixel → BitVec 6 → Pixel
  | [] => cache
  | p :: ps => refStore (fun i => if i = hashSlot p then p else cache i) ps

/-- The Pixels that a sequence of opcodes decodes to. -/
def refDecode (c : DiffCoding) : List Instr → Pixel → (BitVec 6 → Pixel) → List Pixel
  | [], _, _ => []
  | i :: is, px, cache =>
    let ps := refPixels c i px cache
    ps ++ refDecode c is (ps.getLastD px) (refStore cache ps)

/-- The image that an opcode sequence stands for in a fresh session (10_state.md R15, R16). -/
def refImage (c : DiffCoding) (ops : List Instr) : List Pixel := refDecode c ops .seed fun _ => .clear

/-- A Pixel's four bytes in memory order (20_memory.md R42). -/
def pixelBytes (p : Pixel) : List Byte := [p.r, p.g, p.b, p.a]

/-- The events of a byte string. -/
def byteEvents (bs : List Byte) : List InputEvent := bs.map .byte

/-- A stream of 30_encoding.md R60: header, opcodes, trailer, `End`. -/
def streamEvents (P : Params) (w h : BitVec 32) (c cs : Byte) (ops : List Instr) : List InputEvent :=
  byteEvents (serialize P.magic w h c cs ++ ops.flatMap encode ++ encode .trailer) ++ [.endOfStream]

end Sys2Proof.Machine
end

