-- ==== Sys2Proof/Certificates/Slice0/Obligations.lean ====
section
/-! DEFINITION. The statements about this machine for the provers. Each docstring names the rule of the spec that it formalises. -/

open Sys2Proof Sys2Proof.Machine

/-! ## Reset and invariants -/

/-- The reset table of 70_reset_and_hazards.md section 1 (10_state.md R11 to R26), for the values the spec gives. -/
def Obligations.ResetHoldsTheSpecValues : Prop :=
  State.reset.phase = .header ∧ State.reset.op = .none ∧ State.reset.scratch = #v[0, 0, 0, 0, 0] ∧ State.reset.cnt = 0 ∧
  State.reset.px = ⟨0, 0, 0, 255⟩ ∧ (∀ i, cacheLookup State.reset.cache i = ⟨0, 0, 0, 0⟩) ∧ State.reset.hcnt = 0 ∧
  State.reset.hdrValid = false ∧ State.reset.wptr = 0 ∧ State.reset.tcnt = 0 ∧ State.reset.err = none ∧
  State.reset.busy = true ∧ State.reset.trailerOk = false ∧ State.reset.isDone = false ∧ State.reset.isFail = false ∧
  (∀ a, Memory.read State.reset.pb a = none) ∧ State.reset.runcnt = 0

/-- 10_state.md R29: the invariant holds after reset, and the output trace is empty as R47 (d) of 20_memory.md has it. -/
def Obligations.ResetMeetsInvariant : Prop :=
  ∀ es, SessionInv (State.reset.withInput es) ∧ (State.reset.withInput es).outputs = traceOf (State.reset.withInput es)

/-- 10_state.md R29: the invariant holds after every step, from every state that has it, under the default parameters and under any others
(00_scope.md R5). -/
def Obligations.StepKeepsInvariant : Prop :=
  (∀ s t, SessionInv s → step s = .next t → SessionInv t) ∧
  (∀ P s t, SessionInv s → stepWith P s = .next t → SessionInv t)

/-- 00_scope.md R6, R5: a step is total. Under the default parameters no state with the invariant stops; under any others only an overlong RUN is
refused where RUN_OVERRUN is refuse (42_opcodes.md R134), and an image above a MAX_PIXELS that some image exceeds (41_header.md R119). -/
def Obligations.InvariantStatesAlwaysStep : Prop :=
  (∀ s, SessionInv s → ∃ t, step s = .next t) ∧
  (∀ P s, SessionInv s →
    (∃ t, stepWith P s = .next t) ∨
    (stepWith P s = .refused .runOverrun ∧ P.runOverrun = .refuse ∧ s.phase = .ops) ∨
    (stepWith P s = .refused .imageTooLarge ∧ P.maxPixels < (2 ^ 32 - 1) * (2 ^ 32 - 1) ∧ s.phase = .header))

/-- 20_memory.md R47 (d): the output events of a session are totally ordered, and a step appends to them in that order. -/
def Obligations.OutputTraceStaysInStreamOrder : Prop :=
  ∀ s t, SessionInv s → s.outputs = traceOf s → step s = .next t → t.outputs = traceOf t

/-! ## Encoding -/

/-- 30_encoding.md R77: decoding the encoding of a well-formed instruction gives it back, every operand at every value, whatever follows. -/
def Obligations.DecodeOfEncodeIsIdentity : Prop :=
  ∀ (i : Instr) (rest : List Byte), i.wellFormed = true → decode i.space (encode i ++ rest) = .ok (i, rest)

/-- 30_encoding.md R77: two byte strings never spell the same record; what decodes is the encoding of a well-formed instruction of that space. -/
def Obligations.DecodedBytesAreTheEncoding : Prop :=
  ∀ sp bs i rest, decode sp bs = .ok (i, rest) → i.wellFormed = true ∧ i.space = sp ∧ encode i ++ rest = bs

/-- 30_encoding.md R64, R75: the complete map of the 256 tag bytes, with the lengths of R63. -/
def Obligations.TagMapIsComplete : Prop :=
  ∀ t : Byte,
    (t.toNat < 0x40 → kindOf t = .index ∧ opLength (kindOf t) = 1) ∧
    (0x40 ≤ t.toNat ∧ t.toNat < 0x80 → kindOf t = .diff ∧ opLength (kindOf t) = 1) ∧
    (0x80 ≤ t.toNat ∧ t.toNat < 0xC0 → kindOf t = .luma ∧ opLength (kindOf t) = 2) ∧
    (0xC0 ≤ t.toNat ∧ t.toNat < 0xFE → kindOf t = .run ∧ opLength (kindOf t) = 1) ∧
    (t.toNat = 0xFE → kindOf t = .rgb ∧ opLength (kindOf t) = 4) ∧
    (t.toNat = 0xFF → kindOf t = .rgba ∧ opLength (kindOf t) = 5)

/-- 30_encoding.md R72: no opcode bytes are illegal; five bytes always hold a whole opcode, whatever they are. -/
def Obligations.NoOpcodeBytesAreIllegal : Prop :=
  ∀ b0 b1 b2 b3 b4 rest, ∃ i, decode .ops (b0 :: b1 :: b2 :: b3 :: b4 :: rest) =
    .ok (i, (b0 :: b1 :: b2 :: b3 :: b4 :: rest).drop i.length)

/-- A word of each family, written out from 30_encoding.md R65 to R70, R61 and R73, decodes to the instruction it stands for. -/
def Obligations.WordsOfTheSpecDecode : Prop :=
  decode .ops [0xFE, 0x0A, 0x14, 0x1E] = .ok (.rgb 10 20 30, []) ∧
  decode .ops [0xFF, 0x0A, 0x14, 0x1E, 0xFF] = .ok (.rgba 10 20 30 255, []) ∧
  decode .ops [0x35] = .ok (.index 53, []) ∧
  decode .ops [0x4D] = .ok (.diff 0 3 1, []) ∧
  decode .ops [0xA5, 0x6B] = .ok (.luma 37 6 11, []) ∧
  decode .ops [0xFD] = .ok (.run 61, []) ∧
  decode .header [0x71, 0x6F, 0x69, 0x66, 1, 2, 3, 4, 0x0A, 0x0B, 0x0C, 0x0D, 3, 1] =
    .ok (.header 0x716F6966 0x01020304 0x0A0B0C0D 3 1, []) ∧
  decode .trailer [0, 0, 0, 0, 0, 0, 0, 1] = .ok (.trailer, [])

/-! ## The step -/

/-- 40_stream_sequencer.md R93, 41_header.md R110, 42_opcodes.md R125 and R126, 44_trailer.md R160: when the bytes received of a record, with the next
byte, decode to an instruction, the step of that byte is `exec` of it on the state in which that byte is stored (a trailer byte is
stored nowhere). -/
def Obligations.StepRunsTheDecodedInstruction : Prop :=
  ∀ s b es i, SessionInv s → s.input = .byte b :: es →
    (s.phase = .header → decode .header (s.hbuf.toList.take s.hcnt.toNat ++ [b]) = .ok (i, []) →
      step s = exec i ((s.withInput es).storeHeaderByte b)) ∧
    (s.phase = .ops → s.op = .none → decode .ops [b] = .ok (i, []) → step s = exec i ((s.withInput es).storeTag b)) ∧
    (s.phase = .ops → s.op ≠ .none → decode .ops (s.scratch.toList.take s.cnt.toNat ++ [b]) = .ok (i, []) →
      step s = exec i ((s.withInput es).storeData b)) ∧
    (s.phase = .trailer → decode .trailer (trailerBytes.take s.tcnt.toNat ++ [b]) = .ok (i, []) →
      step s = exec i (s.withInput es))

/-- 40_stream_sequencer.md R100: delivering the bytes of any well-formed record, one step a byte, from a state at which such a record starts, is exactly
the meaning of the instruction, under the default parameters and under any others (00_scope.md R5). -/
def Obligations.ByteStepsOfARecordAreItsMeaning : Prop :=
  (∀ i s es, i.wellFormed = true → AtRecordStart i.space s →
    runSteps i.length (s.withInput (byteEvents (encode i) ++ es)) = exec i (s.withInput es)) ∧
  (∀ P i s es, i.wellFormed = true → AtRecordStart i.space s →
    runStepsWith P i.length (s.withInput (byteEvents (encode i) ++ es)) = execWith P i (s.withInput es))

/-- 20_memory.md R53: chunk boundaries are not observable. However the events are cut into chunks, empty ones included, each delivered only after
the one before has been processed, the outcome is that of the whole: every register, the buffer and the output events. -/
def Obligations.ChunkBoundariesAreInvisible : Prop :=
  ∀ (s : State) (chunks : List (List InputEvent)), s.input = [] →
    deliver chunks s = runSteps chunks.flatten.length (s.withInput chunks.flatten)

/-- 30_encoding.md R60, 45_pixel_buffer.md R174: a stream made of a legal header, opcodes that give exactly width*height Pixels (and no
surplus opcode), the trailer and End completes, and its result is the image of the reference decoder. It holds for every choice of the
parameters (00_scope.md R5) that allows the image. The reference decoder's bias of 2 for DIFF under excess-2 is log entry 7, and the
default magic is log entry 6. -/
def Obligations.WellFormedStreamDecodesToItsImage : Prop :=
  ∀ (P : Params) (w h : BitVec 32) (c cs : Byte) (ops : List Instr),
    (c = 3 ∨ c = 4) → (cs = 0 ∨ cs = 1) → w.toNat * h.toNat ≤ P.maxPixels →
    (∀ i ∈ ops, i.space = .ops ∧ i.wellFormed = true) →
    (refImage P.diffCoding ops).length = w.toNat * h.toNat →
    (∀ k, k < ops.length → (refImage P.diffCoding (ops.take k)).length < w.toNat * h.toNat) →
    ∃ t, runStepsWith P (streamEvents P w h c cs ops).length (State.reset.withInput (streamEvents P w h c cs ops)) = .next t ∧
      t.phase = .done ∧ t.result = some ⟨w, h, (refImage P.diffCoding ops).flatMap pixelBytes⟩

/-! ## The six opcodes -/

/-- 42_opcodes.md R128. -/
def Obligations.RgbEmitsItsColourWithPreviousAlpha : Prop :=
  ∀ r g b s, s.wptr < s.npix →
    ∃ t, exec (.rgb r g b) s = .next t ∧ EmitsOne ⟨r, g, b, s.px.a⟩ s t ∧ KeepsSession s t

/-- 42_opcodes.md R129. -/
def Obligations.RgbaEmitsItsFourChannels : Prop :=
  ∀ r g b a s, s.wptr < s.npix →
    ∃ t, exec (.rgba r g b a) s = .next t ∧ EmitsOne ⟨r, g, b, a⟩ s t ∧ KeepsSession s t

/-- 42_opcodes.md R130: the slot is read before the store of the same step. -/
def Obligations.IndexEmitsTheCachedPixel : Prop :=
  ∀ idx s, s.wptr < s.npix →
    ∃ t, exec (.index idx) s = .next t ∧ EmitsOne (cacheLookup s.cache idx) s t ∧ KeepsSession s t

/-- 42_opcodes.md R131 (the excess-2 coding is the spec's decision D3, log entry 7). -/
def Obligations.DiffAddsItsDeltasModulo256 : Prop :=
  ∀ fr fg fb s, s.wptr < s.npix →
    ∃ t p, exec (.diff fr fg fb) s = .next t ∧ EmitsOne p s t ∧ KeepsSession s t ∧
      (p.r.toNat : Int) = ((s.px.r.toNat : Int) + ((fr.toNat : Int) - 2)) % 256 ∧
      (p.g.toNat : Int) = ((s.px.g.toNat : Int) + ((fg.toNat : Int) - 2)) % 256 ∧
      (p.b.toNat : Int) = ((s.px.b.toNat : Int) + ((fb.toNat : Int) - 2)) % 256 ∧
      p.a = s.px.a

/-- 42_opcodes.md R132. -/
def Obligations.LumaAddsItsDeltasModulo256 : Prop :=
  ∀ fg frg fbg s, s.wptr < s.npix →
    ∃ t p, exec (.luma fg frg fbg) s = .next t ∧ EmitsOne p s t ∧ KeepsSession s t ∧
      (p.r.toNat : Int) = ((s.px.r.toNat : Int) + (((frg.toNat : Int) - 8) + ((fg.toNat : Int) - 32))) % 256 ∧
      (p.g.toNat : Int) = ((s.px.g.toNat : Int) + ((fg.toNat : Int) - 32)) % 256 ∧
      (p.b.toNat : Int) = ((s.px.b.toNat : Int) + (((fbg.toNat : Int) - 8) + ((fg.toNat : Int) - 32))) % 256 ∧
      p.a = s.px.a

/-- 42_opcodes.md R133: `k = min(n, npix - wptr)` copies of the previous Pixel, each through Emit. -/
def Obligations.RunEmitsCopiesOfThePreviousPixel : Prop :=
  ∀ (frun : BitVec 6) s, s.wptr < s.npix →
    ∃ t k, exec (.run frun) s = .next t ∧ k = min (frun.toNat + 1) (s.npix.toNat - s.wptr.toNat) ∧
      t.px = s.px ∧ t.wptr.toNat = s.wptr.toNat + k ∧
      (∀ i, s.wptr.toNat ≤ i → i < s.wptr.toNat + k → Memory.readPixel t.pb i = some s.px) ∧
      (∀ a, a < pixelOffset s.wptr ∨ pixelOffset s.wptr + 4 * k ≤ a → Memory.read t.pb a = Memory.read s.pb a) ∧
      cacheLookup t.cache (hashSlot s.px) = s.px ∧
      (∀ i, i ≠ hashSlot s.px → cacheLookup t.cache i = cacheLookup s.cache i) ∧
      t.outputs = s.outputs ++ (List.range k).map (fun i => .pixelEmitted (s.wptr + BitVec.ofNat 64 i) s.px) ∧
      t.phase = (if s.wptr.toNat + k = s.npix.toNat then .trailer else s.phase) ∧
      t.op = .none ∧ t.cnt = 0 ∧ t.scratch = #v[0, 0, 0, 0, 0] ∧ KeepsSession s t

/-- 42_opcodes.md R134: a RUN longer than the space left, for every choice of the parameters. -/
def Obligations.OverlongRunClampsOrIsRefused : Prop :=
  ∀ (P : Params) (frun : BitVec 6) s, s.wptr < s.npix → s.npix.toNat - s.wptr.toNat < frun.toNat + 1 →
    (P.runOverrun = .refuse → execRunWith P frun s = .refused .runOverrun) ∧
    (P.runOverrun = .clamp → ∃ t, execRunWith P frun s = .next t ∧ t.wptr = s.npix ∧ t.npix = s.npix ∧ t.phase = .trailer ∧
      t.err = s.err ∧ t.px = s.px ∧
      (∀ i, s.wptr.toNat ≤ i → i < s.npix.toNat → Memory.readPixel t.pb i = some s.px) ∧
      (∀ a, 4 * s.npix.toNat ≤ a → Memory.read t.pb a = Memory.read s.pb a))

/-- 42_opcodes.md R127's precondition as the model stops on it (log entry 12): a single-Pixel opcode on a full buffer. -/
def Obligations.SinglePixelOpcodesStopOnAFullBuffer : Prop :=
  ∀ i s, i.space = .ops → (∀ f, i ≠ .run f) → ¬ s.wptr < s.npix → exec i s = .fault .emitOnFullBuffer

/-- 42_opcodes.md R135: alpha is changed by RGBA (from the stream) and by INDEX (from the cache), and by nothing else. -/
def Obligations.AlphaChangesOnlyByRgbaAndIndex : Prop :=
  ∀ s t,
    (∀ r g b, exec (.rgb r g b) s = .next t → t.px.a = s.px.a) ∧
    (∀ fr fg fb, exec (.diff fr fg fb) s = .next t → t.px.a = s.px.a) ∧
    (∀ fg frg fbg, exec (.luma fg frg fbg) s = .next t → t.px.a = s.px.a) ∧
    (∀ f, exec (.run f) s = .next t → t.px.a = s.px.a) ∧
    (∀ r g b a, exec (.rgba r g b a) s = .next t → t.px.a = a) ∧
    (∀ idx, exec (.index idx) s = .next t → t.px.a = (cacheLookup s.cache idx).a) ∧
    (∀ m w h c cs, exec (.header m w h c cs) s = .next t → t.px = s.px) ∧
    (exec .trailer s = .next t → t.px = s.px)

/-- The frame of the opcodes (42_opcodes.md R127): RGB, RGBA, INDEX, DIFF and LUMA store one Pixel at byte offset `4 * wptr`, RUN
`min(n, npix - wptr)` Pixels from there; every other byte, every slot but `H(px)`, every register of KeepsSession is unchanged, and `phase`
changes to TRAILER only, when the buffer is full. -/
def Obligations.OpcodesChangeNothingElse : Prop :=
  ∀ i s t, i.space = .ops → exec i s = .next t →
    KeepsSession s t ∧
    (t.phase = s.phase ∨ t.phase = .trailer ∧ t.wptr = s.npix) ∧
    (∀ j, j ≠ hashSlot t.px → cacheLookup t.cache j = cacheLookup s.cache j) ∧
    (∀ a, (∀ f, i ≠ .run f) → a < pixelOffset s.wptr ∨ pixelOffset s.wptr + 4 ≤ a → Memory.read t.pb a = Memory.read s.pb a) ∧
    (∀ a f, i = .run f → a < pixelOffset s.wptr ∨ pixelOffset s.wptr + 4 * min (f.toNat + 1) s.room ≤ a →
      Memory.read t.pb a = Memory.read s.pb a) ∧
    (∃ evs, t.outputs = s.outputs ++ evs)

/-- 42_opcodes.md R137: every opcode emits at least one Pixel and at most 62, and never past the end of the buffer. -/
def Obligations.OpcodesEmitOneToSixtyTwoPixels : Prop :=
  ∀ i s t, i.space = .ops → i.wellFormed = true → s.wptr < s.npix → exec i s = .next t →
    s.wptr.toNat + 1 ≤ t.wptr.toNat ∧ t.wptr.toNat ≤ s.wptr.toNat + 62 ∧ t.wptr.toNat ≤ s.npix.toNat

/-- 20_memory.md R42: the Pixel an opcode emits stands as four bytes R, G, B, A at ascending offsets from `4 * wptr`. -/
def Obligations.EmittedPixelLandsAsRgbaBytes : Prop :=
  ∀ i s t, i.space = .ops → s.wptr < s.npix → exec i s = .next t →
    Memory.read t.pb (4 * s.wptr.toNat) = some t.px.r ∧ Memory.read t.pb (4 * s.wptr.toNat + 1) = some t.px.g ∧
    Memory.read t.pb (4 * s.wptr.toNat + 2) = some t.px.b ∧ Memory.read t.pb (4 * s.wptr.toNat + 3) = some t.px.a

/-- 30_encoding.md R71 and 20_memory.md R41: how every operand is formed from stream bits (`v` holds the bytes received, the tag in `v[0]`), its
range, and that both ends are reached. The channel bytes of RGB and RGBA and the channels and colorspace bytes are taken as they are;
which channels and colorspace pass is HeaderChecksAreMadeInOrder. The excess-2 coding of DIFF is log entry 7; the other coding's table
is given too. -/
def Obligations.OperandsAreAssembledAsStated : Prop :=
  (∀ (v : Vector Byte 14) m w h c cs, headerOf v = .header m w h c cs →
    w.toNat = v[4].toNat * 2 ^ 24 + v[5].toNat * 2 ^ 16 + v[6].toNat * 2 ^ 8 + v[7].toNat ∧
    h.toNat = v[8].toNat * 2 ^ 24 + v[9].toNat * 2 ^ 16 + v[10].toNat * 2 ^ 8 + v[11].toNat ∧ c = v[12] ∧ cs = v[13]) ∧
  be32 0 0 0 0 = 0 ∧ (be32 0xFF 0xFF 0xFF 0xFF).toNat = 2 ^ 32 - 1 ∧
  (∀ v : Vector Byte 5,
    instrOf .rgb v = some (.rgb v[1] v[2] v[3]) ∧ instrOf .rgba v = some (.rgba v[1] v[2] v[3] v[4]) ∧
    (∃ idx, instrOf .index v = some (.index idx) ∧ idx.toNat = v[0].toNat % 64) ∧
    (∃ fr fg fb, instrOf .diff v = some (.diff fr fg fb) ∧
      fr.toNat = v[0].toNat / 16 % 4 ∧ fg.toNat = v[0].toNat / 4 % 4 ∧ fb.toNat = v[0].toNat % 4) ∧
    (∃ fg frg fbg, instrOf .luma v = some (.luma fg frg fbg) ∧
      fg.toNat = v[0].toNat % 64 ∧ frg.toNat = v[1].toNat / 16 ∧ fbg.toNat = v[1].toNat % 16) ∧
    (∃ frun, instrOf .run v = some (.run frun) ∧ frun.toNat = v[0].toNat % 64)) ∧
  (∀ x : Byte, instrOf .rgba #v[0xFF, x, x, x, x] = some (.rgba x x x x) ∧ instrOf .rgb #v[0xFE, x, x, x, 0] = some (.rgb x x x)) ∧
  instrOf .index #v[0x00, 0, 0, 0, 0] = some (.index 0) ∧ instrOf .index #v[0x3F, 0, 0, 0, 0] = some (.index 63) ∧
  (∀ f, diffDelta .excess2 f = (f.toNat : Int) - 2 ∧ -2 ≤ diffDelta .excess2 f ∧ diffDelta .excess2 f ≤ 1) ∧
  diffDelta .excess2 0 = -2 ∧ diffDelta .excess2 1 = -1 ∧ diffDelta .excess2 2 = 0 ∧ diffDelta .excess2 3 = 1 ∧
  (∀ f, -2 ≤ diffDelta .twosComplement f ∧ diffDelta .twosComplement f ≤ 1) ∧
  diffDelta .twosComplement 0 = 0 ∧ diffDelta .twosComplement 1 = 1 ∧ diffDelta .twosComplement 2 = -2 ∧
  diffDelta .twosComplement 3 = -1 ∧
  (∀ f, lumaDg f = (f.toNat : Int) - 32 ∧ -32 ≤ lumaDg f ∧ lumaDg f ≤ 31) ∧ lumaDg 0 = -32 ∧ lumaDg 63 = 31 ∧
  (∀ f, lumaCross f = (f.toNat : Int) - 8 ∧ -8 ≤ lumaCross f ∧ lumaCross f ≤ 7) ∧ lumaCross 0 = -8 ∧ lumaCross 15 = 7 ∧
  (∀ f g, lumaDelta f g = lumaCross g + lumaDg f ∧ -40 ≤ lumaDelta f g ∧ lumaDelta f g ≤ 38) ∧
  lumaDelta 0 0 = -40 ∧ lumaDelta 63 15 = 38 ∧
  (∀ f : BitVec 6, (Instr.run f).wellFormed = true → runLength f = f.toNat + 1 ∧ 1 ≤ runLength f ∧ runLength f ≤ 62) ∧
  runLength 0 = 1 ∧ runLength 61 = 62

/-! ## The Color Cache -/

/-- 43_color_cache.md R150: the hash formula over the naturals; only the low six bits of each channel matter. -/
def Obligations.HashIsTheStatedFormula : Prop :=
  (∀ p : Pixel, (hashSlot p).toNat = (p.r.toNat * 3 + p.g.toNat * 5 + p.b.toNat * 7 + p.a.toNat * 11) % 64) ∧
  (∀ p q : Pixel, p.r.extractLsb' 0 6 = q.r.extractLsb' 0 6 → p.g.extractLsb' 0 6 = q.g.extractLsb' 0 6 →
    p.b.extractLsb' 0 6 = q.b.extractLsb' 0 6 → p.a.extractLsb' 0 6 = q.a.extractLsb' 0 6 → hashSlot p = hashSlot q)

/-- 43_color_cache.md R152: a store overwrites the slot of its Pixel unconditionally and no other; every opcode stores each Pixel it emits (the
copies of a RUN are one Pixel), and nothing else. -/
def Obligations.CacheStoreOverwritesItsSlotOnly : Prop :=
  (∀ cache p i, cacheLookup (cacheStore cache p) i = if i = hashSlot p then p else cacheLookup cache i) ∧
  (∀ i s t, i.space = .ops → s.wptr < s.npix → exec i s = .next t → t.cache = cacheStore s.cache t.px)

/-- 43_color_cache.md R155: when the re-store of INDEX is a no-op and when it is not. -/
def Obligations.IndexRestoreMayDisplaceSlotZero : Prop :=
  ∀ idx s t, exec (.index idx) s = .next t →
    (hashSlot (cacheLookup s.cache idx) = idx → t.cache = s.cache) ∧
    (cacheLookup s.cache idx = ⟨0, 0, 0, 0⟩ → cacheLookup t.cache 0 = ⟨0, 0, 0, 0⟩ ∧
      ∀ j, j ≠ 0 → cacheLookup t.cache j = cacheLookup s.cache j)

/-- 70_reset_and_hazards.md R215: between the tag byte and the last data byte nothing but `op`, `cnt` and `scratch` changes; the wait for the next
byte changes nothing, however long; `End` in between is PrematureEndOfStream. -/
def Obligations.PartialOpcodesHaveNoOtherEffect : Prop :=
  (∀ s t b es, s.phase = .ops → s.input = .byte b :: es → step s = .next t → t.op ≠ .none →
    t = { s with op := t.op, cnt := t.cnt, scratch := t.scratch, input := es }) ∧
  (∀ s n, s.phase = .ops → s.op ≠ .none → s.input = [] → runSteps n s = .next s) ∧
  (∀ s es, s.phase = .ops → s.op ≠ .none → s.input = .endOfStream :: es →
    step s = .next (raise .prematureEndOfStream (s.withInput es)))

/-! ## HEADER -/

/-- 41_header.md R115, R94: a header that passes the three checks, for every choice of the magic and of the limit. -/
def Obligations.GoodHeaderIsAccepted : Prop :=
  ∀ (P : Params) w h c cs s, (c = 3 ∨ c = 4) → (cs = 0 ∨ cs = 1) → w.toNat * h.toNat ≤ P.maxPixels →
    ∃ t, execHeaderWith P P.magic w h c cs s = .next t ∧ AcceptsHeader P.magic w h c cs s t

/-- 41_header.md R115 for the instruction as dispatched: HEADER with the default magic (log entry 6) and legal channels and colorspace
completes, whatever the dimensions. -/
def Obligations.HeaderInstructionCompletes : Prop :=
  ∀ w h c cs s, (c = 3 ∨ c = 4) → (cs = 0 ∨ cs = 1) →
    ∃ t, exec (.header 0x716F6966 w h c cs) s = .next t ∧ AcceptsHeader 0x716F6966 w h c cs s t

/-- 41_header.md R113, R114 (with R111, 60_exceptions.md R181 to R183, R189): the three checks in their order; the first that fails is raised, and
nothing but the record's bytes, `phase`, `err` and the event is written; the two accepted values of each field pass. -/
def Obligations.HeaderChecksAreMadeInOrder : Prop :=
  ∀ (P : Params) m w h c cs s,
    (m ≠ P.magic → execHeaderWith P m w h c cs s =
      .next (raise .headerMagicMismatch (s.withHeaderBytes (headerBytes m w h c cs)))) ∧
    (m = P.magic → c ≠ 3 → c ≠ 4 → execHeaderWith P m w h c cs s =
      .next (raise .unsupportedChannelMode (s.withHeaderBytes (headerBytes m w h c cs)))) ∧
    (m = P.magic → (c = 3 ∨ c = 4) → cs ≠ 0 → cs ≠ 1 → execHeaderWith P m w h c cs s =
      .next (raise .unsupportedColorspaceMode (s.withHeaderBytes (headerBytes m w h c cs)))) ∧
    (m = P.magic → (c = 3 ∨ c = 4) → (cs = 0 ∨ cs = 1) → w.toNat * h.toNat ≤ P.maxPixels →
      ∃ t, execHeaderWith P m w h c cs s = .next t ∧ t.err = s.err ∧ t.hdrValid = true ∧ t.channels = c ∧ t.colorspace = cs)

/-- 41_header.md R119 (the spec's decision D5, log entry 9): an image above MAX_PIXELS is refused, nothing else is, and under the default limit,
which no image exceeds, HEADER is never refused. -/
def Obligations.OnlyTooLargeImagesAreRefused : Prop :=
  (∀ (P : Params) w h c cs s, (c = 3 ∨ c = 4) → (cs = 0 ∨ cs = 1) → P.maxPixels < w.toNat * h.toNat →
    execHeaderWith P P.magic w h c cs s = .refused .imageTooLarge) ∧
  (∀ (P : Params) m w h c cs s r, execHeaderWith P m w h c cs s = .refused r →
    r = .imageTooLarge ∧ m = P.magic ∧ (c = 3 ∨ c = 4) ∧ (cs = 0 ∨ cs = 1) ∧ P.maxPixels < w.toNat * h.toNat) ∧
  (∀ w h : BitVec 32, w.toNat * h.toNat ≤ Config.params.maxPixels) ∧
  (∀ m w h c cs s r, exec (.header m w h c cs) s ≠ .refused r)

/-- 41_header.md R110: a header byte before the 14th is stored unchecked and has no other effect. -/
def Obligations.EarlyHeaderBytesAreOnlyStored : Prop :=
  ∀ s b es, s.phase = .header → s.input = .byte b :: es → s.hcnt.toNat < 13 →
    ∃ t, step s = .next t ∧ t.hcnt.toNat = s.hcnt.toNat + 1 ∧
      t.hbuf.toList = s.hbuf.toList.set s.hcnt.toNat b ∧
      t = { s with hbuf := t.hbuf, hcnt := t.hcnt, input := es }

/-- 41_header.md R118: parsing a serialised header in a fresh session gives the header back, and every 14-byte string that a fresh session accepts is the
serialisation of what it yields. -/
def Obligations.HeaderSerialisationRoundTrips : Prop :=
  (∀ w h c cs, (c = 3 ∨ c = 4) → (cs = 0 ∨ cs = 1) →
    ∃ t, runSteps 14 (State.reset.withInput (byteEvents (serialize Config.params.magic w h c cs))) = .next t ∧
      t.outputs = [.headerParsed w h c cs] ∧ t.width = w ∧ t.height = h ∧ t.channels = c ∧ t.colorspace = cs) ∧
  (∀ bs t, bs.length = 14 → runSteps 14 (State.reset.withInput (byteEvents bs)) = .next t → t.hdrValid = true →
    bs = serialize Config.params.magic t.width t.height t.channels t.colorspace ∧
      (t.channels = 3 ∨ t.channels = 4) ∧ (t.colorspace = 0 ∨ t.colorspace = 1))

/-- 10_state.md R18, R19, R20, R21: once the header phase is left, no step writes a header register. -/
def Obligations.HeaderRegistersAreImmutable : Prop :=
  ∀ s t, s.phase ≠ .header → step s = .next t → KeepsHeader s t

/-! ## TRAILER, End and failure -/

/-- 44_trailer.md R160, R161, R162: every trailer byte, by position. -/
def Obligations.TrailerBytesAreCheckedByPosition : Prop :=
  ∀ s b es, s.phase = .trailer → s.input = .byte b :: es →
    (s.tcnt.toNat < 7 → b = 0x00 → step s = .next { s with tcnt := s.tcnt + 1, input := es }) ∧
    (s.tcnt.toNat = 7 → b = 0x01 → step s =
      .next { s with tcnt := 8, input := es, outputs := s.outputs ++ [.trailerVerified] }) ∧
    (s.tcnt.toNat < 7 ∧ b ≠ 0x00 ∨ s.tcnt.toNat = 7 ∧ b ≠ 0x01 ∨ 8 ≤ s.tcnt.toNat →
      step s = .next (raise .trailerMismatch (s.withInput es)))

/-- 44_trailer.md R160, R162, read as one instruction, which is the model's choice (log entry 13): from `tcnt = 0` it is the eight good bytes; from
`tcnt` 1 to 7, where R160 gives no record as a whole, it completes the trailer as well; with `tcnt = 8` its first byte is a 9th trailer
byte. -/
def Obligations.TrailerInstructionCompletes : Prop :=
  ∀ s, (s.tcnt.toNat < 8 → ∃ t, exec .trailer s = .next t ∧ t.tcnt = 8 ∧ t.outputs = s.outputs ++ [.trailerVerified] ∧
      t = { s with tcnt := t.tcnt, outputs := t.outputs }) ∧
    (8 ≤ s.tcnt.toNat → exec .trailer s = .next (raise .trailerMismatch s))

/-- 40_stream_sequencer.md R96: the effect of End in each phase. -/
def Obligations.EndOfStreamEffectByPhase : Prop :=
  ∀ s es, s.input = .endOfStream :: es →
    (s.phase = .header ∨ s.phase = .ops → step s = .next (raise .prematureEndOfStream (s.withInput es))) ∧
    (s.phase = .trailer → s.tcnt = 8 →
      step s = .next { s with phase := .done, input := es, outputs := s.outputs ++ [.completed] }) ∧
    (s.phase = .trailer → s.tcnt ≠ 8 → step s = .next (raise .prematureEndOfStream (s.withInput es))) ∧
    (s.phase = .done ∨ s.phase = .failed → step s = .next (s.withInput es))

/-- 40_stream_sequencer.md R97: in DONE and FAILED every input event leaves the state unchanged and returns no output event. -/
def Obligations.TerminalPhasesAbsorbEveryEvent : Prop :=
  ∀ s e es, s.phase = .done ∨ s.phase = .failed → s.input = e :: es → step s = .next { s with input := es }

/-- 40_stream_sequencer.md R98: success is committed only by End after a complete trailer. -/
def Obligations.SuccessIsCommittedOnlyAtEnd : Prop :=
  ∀ s t, step s = .next t → t.phase = .done → s.phase ≠ .done →
    s.phase = .trailer ∧ s.tcnt = 8 ∧ ∃ es, s.input = .endOfStream :: es

/-- The phase transitions of 40_stream_sequencer.md section 2 and no other. -/
def Obligations.PhaseTransitionsAreTheTable : Prop :=
  ∀ s t, step s = .next t → s.phase ≠ t.phase →
    (s.phase, t.phase) ∈ [(Phase.header, Phase.ops), (Phase.header, Phase.trailer), (Phase.header, Phase.failed),
      (Phase.ops, Phase.trailer), (Phase.ops, Phase.failed), (Phase.trailer, Phase.failed), (Phase.trailer, Phase.done)]

/-- 60_exceptions.md R180 to R185: the table of the error kinds, for every choice of the parameters. Each kind is raised only by its event, phase
and condition. The default codes are the spec's decision D11 (log entry 10). -/
def Obligations.EachErrorHasItsCause : Prop :=
  (errCodeOf Config.params none = 0 ∧ errCodeOf Config.params (some .headerMagicMismatch) = 1 ∧
    errCodeOf Config.params (some .unsupportedChannelMode) = 2 ∧ errCodeOf Config.params (some .unsupportedColorspaceMode) = 3 ∧
    errCodeOf Config.params (some .trailerMismatch) = 4 ∧ errCodeOf Config.params (some .prematureEndOfStream) = 5) ∧
  ∀ P s t k, SessionInv s → stepWith P s = .next t → s.phase ≠ .failed → t.err = some k →
    match k with
    | .headerMagicMismatch => (∃ b es, s.input = .byte b :: es) ∧ s.phase = .header ∧ s.hcnt = 13 ∧
        t.hbuf.toList.take 4 ≠ (serialize P.magic 0 0 0 0).take 4
    | .unsupportedChannelMode => (∃ b es, s.input = .byte b :: es) ∧ s.phase = .header ∧ s.hcnt = 13 ∧
        t.hbuf.toList.take 4 = (serialize P.magic 0 0 0 0).take 4 ∧ t.hbuf[12] ≠ 3 ∧ t.hbuf[12] ≠ 4
    | .unsupportedColorspaceMode => (∃ b es, s.input = .byte b :: es) ∧ s.phase = .header ∧ s.hcnt = 13 ∧
        t.hbuf.toList.take 4 = (serialize P.magic 0 0 0 0).take 4 ∧ (t.hbuf[12] = 3 ∨ t.hbuf[12] = 4) ∧
        t.hbuf[13] ≠ 0 ∧ t.hbuf[13] ≠ 1
    | .trailerMismatch => s.phase = .trailer ∧ ∃ b es, s.input = .byte b :: es ∧
        (s.tcnt = 8 ∨ b ≠ trailerExpected s.tcnt.toNat)
    | .prematureEndOfStream => (∃ es, s.input = .endOfStream :: es) ∧
        (s.phase = .header ∨ s.phase = .ops ∨ s.phase = .trailer ∧ s.tcnt.toNat < 8)

/-- 60_exceptions.md R188: a step that fails writes `phase` and `err`, returns Failed and consumes the event, and has no other effect, but that
in the header step the 14th byte and `hcnt = 14` were written before. -/
def Obligations.RaiseWritesOnlyPhaseErrAndEvent : Prop :=
  ∀ s t, step s = .next t → s.phase ≠ .failed → t.phase = .failed → ∃ k e es, s.input = e :: es ∧
    (t = { s with phase := .failed, err := some k, outputs := s.outputs ++ [.failed k], input := es } ∨
      s.phase = .header ∧ s.hcnt = 13 ∧ ∃ b, e = .byte b ∧
        t = { s with
          phase := .failed, err := some k, outputs := s.outputs ++ [.failed k], input := es
          hbuf := s.hbuf.set 13 b, hcnt := 14 })

/-- 43_color_cache.md R157, 10_state.md R15: outside OPS no step writes the Previous Pixel, the cache, `wptr` or the opcode registers, and only an
accepted header touches the buffer. -/
def Obligations.OnlyOpcodesTouchPixelState : Prop :=
  ∀ s t, s.phase ≠ .ops → step s = .next t → KeepsPixels s t ∧ (s.phase ≠ .header → t.pb = s.pb)

/-- 20_memory.md R46, 10_state.md R22: a written Pixel keeps its value, and `wptr` never decreases. -/
def Obligations.WrittenPixelsNeverChange : Prop :=
  ∀ s t, SessionInv s → step s = .next t →
    s.wptr.toNat ≤ t.wptr.toNat ∧ ∀ a, a < pixelOffset s.wptr → Memory.read t.pb a = Memory.read s.pb a

/-- 40_stream_sequencer.md R92: what output events one step can return. -/
def Obligations.StepReturnsTheStatedEvents : Prop :=
  ∀ s t, SessionInv s → step s = .next t → ∃ evs, t.outputs = s.outputs ++ evs ∧
    (evs = [] ∨ (∃ w h c cs, evs = [.headerParsed w h c cs]) ∨
      (∃ n p, 1 ≤ n ∧ n ≤ 62 ∧ evs = (List.range n).map fun i => .pixelEmitted (s.wptr + BitVec.ofNat 64 i) p) ∨
      evs = [.trailerVerified] ∨ evs = [.completed] ∨ (∃ k, evs = [.failed k]))

/-! ## What has no influence -/

/-- 41_header.md R116: `channels` and `colorspace` are passed through. After the header, a step is the same whatever they hold. -/
def Obligations.ChannelsAndColorspaceNeverMatter : Prop :=
  ∀ s t c cs, s.phase ≠ .header → step s = .next t →
    step { s with channels := c, colorspace := cs } = .next { t with channels := c, colorspace := cs }

/-- 45_pixel_buffer.md R173, 20_memory.md R46: the core never reads the Pixel Buffer. Whatever another buffer holds, the step does the same to every
register and returns the same events. -/
def Obligations.TheCoreNeverReadsTheBuffer : Prop :=
  ∀ s t m, step s = .next t → ∃ m', step { s with pb := m } = .next { t with pb := m' }

/-- 93_implementation_defined.md U3, U4: the values that the model chose for `hbuf` and the header registers at reset (log entries 4, 5) have no
influence: states that differ only there step to states that differ only there. -/
def Obligations.UnspecifiedResetValuesNeverMatter : Prop :=
  ∀ s t s', SessionInv s → SameButUnspecified s t → step s = .next s' →
    ∃ t', step t = .next t' ∧ SameButUnspecified s' t'

/-! ## What the host sees -/

/-- 45_pixel_buffer.md R174, R175, 20_memory.md R48: there is a result in DONE and nowhere else; it is the whole buffer in address order. -/
def Obligations.ResultExistsExactlyWhenDone : Prop :=
  ∀ s, SessionInv s →
    (s.result.isSome = true ↔ s.phase = .done) ∧
    (∀ r, s.result = some r → r.width = s.width ∧ r.height = s.height ∧
      r.buffer.length = 4 * (s.width.toNat * s.height.toNat) ∧ ∀ a, r.buffer[a]? = Memory.read s.pb a)

/-- 20_memory.md R42, R45: in a finished session every image point holds the Pixel of its raster index, and its channels stand at its
platform addresses. -/
def Obligations.FinishedImageIsRowMajor : Prop :=
  ∀ (P : Params) s i, SessionInv s → s.phase = .done → i < s.width.toNat * s.height.toNat →
    ∃ p, s.imagePoint (rasterPoint s.width i).1 (rasterPoint s.width i).2 = some p ∧
      hostReadByte P (platformAddress P i 0) s = some p.r ∧ hostReadByte P (platformAddress P i 1) s = some p.g ∧
      hostReadByte P (platformAddress P i 2) s = some p.b ∧ hostReadByte P (platformAddress P i 3) s = some p.a

/-- 10_state.md R30, R31 (register map: the spec's decision D9, log entry 10): the bits of the registers where the contract covers them. In every
state, failed ones included, the host reads `phase`, the `fail` bit that goes with it, `err` and the reserved zeros; in a state that has not
failed, the rest too. -/
def Obligations.HostRegistersShowTheirFields : Prop :=
  ∀ (P : Params) n s,
    ((hostRead P n .status s).extractLsb' 5 3 = s.phase.code ∧ (hostRead P n .status s).getLsbD 4 = s.isFail ∧
      (hostRead P n .status s).extractLsb' 8 24 = 0 ∧
      (hostRead P n .err s).extractLsb' 0 3 = errCodeOf P s.err ∧ (hostRead P n .err s).extractLsb' 3 29 = 0 ∧
      (hostRead P n .mode s).extractLsb' 16 16 = 0) ∧
    (s.phase ≠ .failed →
      (hostRead P n .status s).getLsbD 0 = s.busy ∧ (hostRead P n .status s).getLsbD 1 = s.hdrValid ∧
      (hostRead P n .status s).getLsbD 2 = s.trailerOk ∧ (hostRead P n .status s).getLsbD 3 = s.isDone ∧
      (s.hdrValid = true → hostRead P n .width s = s.width ∧ hostRead P n .height s = s.height ∧
        (hostRead P n .mode s).extractLsb' 0 8 = s.channels ∧ (hostRead P n .mode s).extractLsb' 8 8 = s.colorspace ∧
        hostRead P n .npixHi s ++ hostRead P n .npixLo s = s.npix) ∧
      hostRead P n .wptrHi s ++ hostRead P n .wptrLo s = s.wptr)

/-- 10_state.md R31 (the spec's decision D10): after a failure the host learns nothing but `phase` and `err`: two failed sessions that differ only in
the rest look the same. R31 and U6 leave the other reads unspecified, not equal; that the free word of a read depends on the read's number
alone, and so is the same in both sessions, is the model's choice (log entry 14). -/
def Obligations.FailedSessionShowsOnlyPhaseAndErr : Prop :=
  ∀ (P : Params) s t, s.phase = .failed → t.phase = .failed → s.err = t.err →
    (∀ n reg, hostRead P n reg s = hostRead P n reg t) ∧ (∀ a, hostReadByte P a s = hostReadByte P a t) ∧
    s.result = none ∧ t.result = none

/-! ## The cycle-level refinement and the equivalent representation -/

/-- 70_reset_and_hazards.md R220 (the spec's decision D12), for every choice of the parameters: a RUN of `k` Pixels takes the cycle that accepts its
byte and `k - 1` draining cycles, in each of which `in_ready` is low, and then leaves exactly the state of the step, output events included.
An overlong RUN that the step refuses (RUN_OVERRUN = refuse, log entry 8) is refused in its cycle. -/
def Obligations.DrainingARunRefinesItsStep : Prop :=
  ∀ P s b, AwaitsTag s → s.runcnt = 0 → s.wptr < s.npix → kindOf b = .run →
    (P.runOverrun = .clamp ∨ runLength (b.extractLsb' 0 6) ≤ s.room →
      ∃ u, cycle P (.offer b) s = .next u ∧
        idleCycles P (min (runLength (b.extractLsb' 0 6)) s.room - 1) u = byteEvent P b s ∧
        ∀ j v, j < min (runLength (b.extractLsb' 0 6)) s.room - 1 → idleCycles P j u = .next v → inReady false v = false) ∧
    (P.runOverrun = .refuse → s.room < runLength (b.extractLsb' 0 6) →
      cycle P (.offer b) s = .refused .runOverrun ∧ byteEvent P b s = .refused .runOverrun)

/-- 70_reset_and_hazards.md R220, R210, for every choice of the parameters: a cycle that accepts any other byte, or End, is the step of that event; a
cycle with nothing offered changes nothing; while a RUN drains, what is offered does not matter; a cycle with `rst` puts every register at
its reset value whatever the core was doing, and accepts no event. In that last clause the zeros of `hbuf` (log entry 4) and of `width`,
`height`, `channels`, `colorspace` and `npix` (log entry 5), and that the events to come stay and the output trace starts anew (log entry
18), are the model's choices. -/
def Obligations.OtherCyclesAreSteps : Prop :=
  (∀ P s, inReady false s = true →
      (∀ b, ¬ (s.phase = .ops ∧ s.op = .none ∧ kindOf b = .run) → cycle P (.offer b) s = accept P (.byte b) s) ∧
      cycle P .offerEnd s = accept P .endOfStream s ∧ cycle P .idle s = .next s) ∧
  (∀ P s, s.draining = true → ∀ b, cycle P (.offer b) s = cycle P .idle s ∧ cycle P .offerEnd s = cycle P .idle s) ∧
  (∀ P i s, i.rst = true → cycle P i s = .next { State.reset with input := s.input } ∧ inReady i.rst s = false)

/-- 40_stream_sequencer.md R99 (the spec's decision D27): the Pixel write port. In a cycle without reset at most one Pixel is written; `pb_we` is high
exactly then, and index and channels are those of the Pixel written and of the event of the cycle. That the port shows them in the cycle of
the write is log entry 16; with `pb_we` low nothing is said of them (log entry 22). -/
def Obligations.WritePortShowsTheWrittenPixel : Prop :=
  ∀ (P : Params) n i s t, i.rst = false → cycle P i s = .next t →
    ((portsOut P n i s t).pbWe = true →
      Memory.readPixel t.pb (portsOut P n i s t).pbIndex.toNat =
        some ⟨(portsOut P n i s t).pbR, (portsOut P n i s t).pbG, (portsOut P n i s t).pbB, (portsOut P n i s t).pbA⟩ ∧
      t.wptr = (portsOut P n i s t).pbIndex + 1 ∧
      t.outputs = s.outputs ++ [.pixelEmitted (portsOut P n i s t).pbIndex
        ⟨(portsOut P n i s t).pbR, (portsOut P n i s t).pbG, (portsOut P n i s t).pbB, (portsOut P n i s t).pbA⟩]) ∧
    ((portsOut P n i s t).pbWe = false → t.wptr = s.wptr ∧ ∃ evs, t.outputs = s.outputs ++ evs ∧ ∀ m p, .pixelEmitted m p ∉ evs)

/-- 42_opcodes.md R139: the tagged variant carries the same information as the triple (`op`, `scratch`, `cnt`). -/
def Obligations.TaggedVariantIsLossless : Prop :=
  ∀ s, SessionInv s → assemblyRegisters (assemblyOf s) = (s.op, s.scratch, s.cnt)
end

