-- ==== Sys2Proof/Laws/Encoding.lean ====
section
/-! SUPPORT. The laws of the encodings: big-endian words, the HEADER record, and the tag bytes. -/

namespace Sys2Proof

/-! ## Big-endian words (20_memory.md R41) -/

/-- The four bytes of a word spell it. -/
theorem be32_byteOf32 (w : BitVec 32) : be32 (byteOf32 w 0) (byteOf32 w 1) (byteOf32 w 2) (byteOf32 w 3) = w := by
  apply BitVec.eq_of_getLsbD_eq
  intro i hi
  simp only [be32, byteOf32, BitVec.getLsbD_append, BitVec.getLsbD_extractLsb']
  by_cases h1 : i < 8
  · simp [h1]
  · by_cases h2 : i < 16
    · have a : i - 8 < 8 := by omega
      simp [h1, a]; congr 1; omega
    · by_cases h3 : i < 24
      · have a : ¬ i - 8 < 8 := by omega
        have b : i - 8 - 8 < 8 := by omega
        simp [h1, a, b]; congr 1; omega
      · have a : ¬ i - 8 < 8 := by omega
        have b : ¬ i - 8 - 8 < 8 := by omega
        have c : i - 8 - 8 - 8 < 8 := by omega
        simp [h1, a, b, c]; congr 1; omega

/-- The bytes of a spelt word are those it was spelt from. -/
theorem byteOf32_be32 (b0 b1 b2 b3 : Byte) :
    byteOf32 (be32 b0 b1 b2 b3) 0 = b0 ∧ byteOf32 (be32 b0 b1 b2 b3) 1 = b1 ∧
      byteOf32 (be32 b0 b1 b2 b3) 2 = b2 ∧ byteOf32 (be32 b0 b1 b2 b3) 3 = b3 := by
  refine ⟨?_, ?_, ?_, ?_⟩ <;>
  · apply BitVec.eq_of_getLsbD_eq
    intro i hi
    have e0 : ¬ 24 + i < 8 := by omega
    have e1 : ¬ 24 + i - 8 < 8 := by omega
    have e2 : ¬ 24 + i - 8 - 8 < 8 := by omega
    have e3 : 24 + i - 8 - 8 - 8 = i := by omega
    have f0 : ¬ 16 + i < 8 := by omega
    have f1 : ¬ 16 + i - 8 < 8 := by omega
    have f3 : 16 + i - 8 - 8 = i := by omega
    have g0 : ¬ 8 + i < 8 := by omega
    have g3 : 8 + i - 8 = i := by omega
    simp only [be32, byteOf32, BitVec.getLsbD_append, BitVec.getLsbD_extractLsb', Nat.reduceSub, Nat.reduceMul, Nat.zero_add]
    simp [hi, e0, e1, e2, e3, f0, f1, f3, g0, g3]

/-- The number that four bytes spell (20_memory.md R41). -/
theorem be32_toNat (b0 b1 b2 b3 : Byte) :
    (be32 b0 b1 b2 b3).toNat = b0.toNat * 2 ^ 24 + b1.toNat * 2 ^ 16 + b2.toNat * 2 ^ 8 + b3.toNat := by
  have := b0.isLt
  have := b1.isLt
  have := b2.isLt
  have := b3.isLt
  simp only [be32, BitVec.toNat_append]
  rw [← Nat.shiftLeft_add_eq_or_of_lt (by omega), ← Nat.shiftLeft_add_eq_or_of_lt (by omega),
    ← Nat.shiftLeft_add_eq_or_of_lt (by omega)]
  simp only [Nat.shiftLeft_eq]
  omega

/-! ## The HEADER record (30_encoding.md R61) -/

theorem headerOf_headerBytes (m w h : BitVec 32) (c cs : Byte) : headerOf (headerBytes m w h c cs) = .header m w h c cs := by
  simp [headerOf, headerBytes, be32_byteOf32]

/-- Fourteen bytes are the spelling of the header they decode to. -/
theorem headerBytes_of_headerOf {v : Vector Byte 14} {m w h : BitVec 32} {c cs : Byte}
    (e : headerOf v = .header m w h c cs) : headerBytes m w h c cs = v := by
  simp only [headerOf, Instr.header.injEq] at e
  obtain ⟨rfl, rfl, rfl, rfl, rfl⟩ := e
  apply Vector.ext
  intro i hi
  obtain ⟨a0, a1, a2, a3⟩ := byteOf32_be32 v[0] v[1] v[2] v[3]
  obtain ⟨b0, b1, b2, b3⟩ := byteOf32_be32 v[4] v[5] v[6] v[7]
  obtain ⟨c0, c1, c2, c3⟩ := byteOf32_be32 v[8] v[9] v[10] v[11]
  interval_cases i <;> simp [headerBytes, *]

/-- The first fourteen bytes of a list that begins with a record are that record. -/
theorem firstFourteen_append (v : Vector Byte 14) (rest : List Byte) : firstFourteen (v.toList ++ rest) = v := by
  apply Vector.ext
  intro i hi
  have h : ∀ k (hk : k < 14), (v.toList ++ rest).getD k 0 = v[k] := by
    intro k hk
    simp [List.getD_eq_getElem?_getD, List.getElem?_append, hk]
  unfold firstFourteen
  interval_cases i <;> (simp only [h, Nat.reduceLT]; rfl)

/-! ## Tag bytes (30_encoding.md R64) -/

/-- Each kind of tag byte: the one byte it is, or the fields it carries. -/
theorem kindOf_inversion : ∀ t : Byte,
    (kindOf t = .rgb → t = 0xFE) ∧ (kindOf t = .rgba → t = 0xFF) ∧
    (kindOf t = .index → (0b00 : BitVec 2) ++ t.extractLsb' 0 6 = t) ∧
    (kindOf t = .diff → (0b01 : BitVec 2) ++ t.extractLsb' 4 2 ++ t.extractLsb' 2 2 ++ t.extractLsb' 0 2 = t) ∧
    (kindOf t = .luma → (0b10 : BitVec 2) ++ t.extractLsb' 0 6 = t) ∧
    (kindOf t = .run → (0b11 : BitVec 2) ++ t.extractLsb' 0 6 = t ∧ (t.extractLsb' 0 6).toNat < 62) ∧
    kindOf t ≠ .none := by
  decide

theorem kindOf_index : ∀ x : BitVec 6,
    kindOf ((0b00 : BitVec 2) ++ x) = .index ∧ ((0b00 : BitVec 2) ++ x).extractLsb' 0 6 = x := by
  decide

theorem kindOf_diff : ∀ x y z : BitVec 2, kindOf ((0b01 : BitVec 2) ++ x ++ y ++ z) = .diff ∧
    ((0b01 : BitVec 2) ++ x ++ y ++ z).extractLsb' 4 2 = x ∧ ((0b01 : BitVec 2) ++ x ++ y ++ z).extractLsb' 2 2 = y ∧
    ((0b01 : BitVec 2) ++ x ++ y ++ z).extractLsb' 0 2 = z := by
  decide

theorem kindOf_luma : ∀ x : BitVec 6,
    kindOf ((0b10 : BitVec 2) ++ x) = .luma ∧ ((0b10 : BitVec 2) ++ x).extractLsb' 0 6 = x := by
  decide

theorem kindOf_run : ∀ x : BitVec 6, x.toNat < 62 →
    kindOf ((0b11 : BitVec 2) ++ x) = .run ∧ ((0b11 : BitVec 2) ++ x).extractLsb' 0 6 = x := by
  decide

/-- The nibbles of LUMA's second byte. -/
theorem nibbles : ∀ x y : BitVec 4, (x ++ y).extractLsb' 4 4 = x ∧ (x ++ y).extractLsb' 0 4 = y := by decide

theorem nibbles_append : ∀ t : Byte, t.extractLsb' 4 4 ++ t.extractLsb' 0 4 = t := by decide

/-! ## Trailer bytes (44_trailer.md R161) -/

@[simp] theorem trailerExpected_seven : trailerExpected 7 = 0x01 := rfl

theorem trailerExpected_of_ne {k : Nat} (h : k ≠ 7) : trailerExpected k = 0x00 := if_neg h

end Sys2Proof
end

