-- ==== Sys2Proof/Laws/Memory.lean ====
section
/-! SUPPORT. The laws of the Pixel Buffer's memory: a read after a write, the canonical form, and Pixels as four bytes. -/

namespace Sys2Proof.Machine

@[simp] theorem Memory.read_nil (a : Nat) : Memory.read [] a = none := rfl

@[simp] theorem Memory.read_write_same (m : Memory) (a : Nat) (v : Byte) :
    Memory.read (Memory.write m a v) a = some v := by
  induction m with
  | nil => simp [Memory.write, Memory.read]
  | cons c m ih =>
    simp only [Memory.write]
    split
    · simp [Memory.read]
    · split
      · simp [Memory.read]
      · have h : ¬ c.1 = a := by omega
        simp [Memory.read, h, ih]

theorem Memory.read_write_other (m : Memory) (a b : Nat) (v : Byte) (h : b ≠ a) :
    Memory.read (Memory.write m a v) b = Memory.read m b := by
  have h' : ¬ a = b := fun e => h e.symm
  induction m with
  | nil => simp [Memory.write, Memory.read, h']
  | cons c m ih =>
    simp only [Memory.write]
    split
    · simp [Memory.read, h']
    · split
      · have hc : ¬ c.1 = b := by omega
        simp [Memory.read, h', hc]
      · simp [Memory.read, ih]

/-- Every offset of a memory after a write is the written one or was there before. -/
theorem Memory.mem_write (m : Memory) (a : Nat) (v : Byte) (x : Host.Cell) (hx : x ∈ Memory.write m a v) :
    x.1 = a ∨ x ∈ m := by
  induction m with
  | nil => simp_all [Memory.write]
  | cons c m ih =>
    simp only [Memory.write] at hx
    split at hx
    · rcases List.mem_cons.1 hx with rfl | hx
      · exact .inl rfl
      · exact .inr hx
    · split at hx
      · rcases List.mem_cons.1 hx with rfl | hx
        · exact .inl rfl
        · exact .inr (List.mem_cons_of_mem _ hx)
      · rcases List.mem_cons.1 hx with rfl | hx
        · exact .inr List.mem_cons_self
        · exact (ih hx).imp id (List.mem_cons_of_mem _)

/-- A write keeps the canonical form. -/
theorem Memory.wf_write (m : Memory) (a : Nat) (v : Byte) (h : Memory.wf m) : Memory.wf (Memory.write m a v) := by
  induction m with
  | nil => simp [Memory.write, Memory.wf]
  | cons c m ih =>
    have ⟨hc, hm⟩ := List.pairwise_cons.1 h
    simp only [Memory.write]
    split
    case isTrue hlt =>
      refine List.pairwise_cons.2 ⟨fun x hx => ?_, h⟩
      rcases List.mem_cons.1 hx with rfl | hx
      · exact hlt
      · exact Nat.lt_trans hlt (hc x hx)
    case isFalse hlt =>
      split
      case isTrue heq => exact List.pairwise_cons.2 ⟨fun x hx => heq ▸ hc x hx, hm⟩
      case isFalse hne =>
        refine List.pairwise_cons.2 ⟨fun x hx => ?_, ih hm⟩
        rcases Memory.mem_write m a v x hx with h | h
        · simp only [h]; omega
        · exact hc x h

/-- An offset below every listed one is unwritten. -/
theorem Memory.read_none_of_lt (m : Memory) (a : Nat) (h : ∀ x ∈ m, a < x.1) : Memory.read m a = none := by
  induction m with
  | nil => rfl
  | cons c m ih =>
    have hc : ¬ c.1 = a := by have := h c List.mem_cons_self; omega
    simp [Memory.read, hc, ih fun x hx => h x (List.mem_cons_of_mem _ hx)]

/-- Canonical memories that read alike are the same data. -/
theorem Memory.ext_of_wf (m n : Memory) (hm : Memory.wf m) (hn : Memory.wf n)
    (h : ∀ a, Memory.read m a = Memory.read n a) : m = n := by
  induction m generalizing n with
  | nil =>
    cases n with
    | nil => rfl
    | cons c n => simpa [Memory.read] using h c.1
  | cons c m ih =>
    have ⟨hc, hm'⟩ := List.pairwise_cons.1 hm
    cases n with
    | nil => simpa [Memory.read] using h c.1
    | cons d n =>
      have ⟨hd, hn'⟩ := List.pairwise_cons.1 hn
      have key : c.1 = d.1 := by
        by_contra hne
        rcases Nat.lt_or_gt_of_ne hne with hlt | hlt
        · have := h c.1
          rw [Memory.read_none_of_lt (d :: n) c.1 (by
            intro x hx
            rcases List.mem_cons.1 hx with rfl | hx
            · exact hlt
            · exact Nat.lt_trans hlt (hd x hx))] at this
          simp [Memory.read] at this
        · have := h d.1
          rw [Memory.read_none_of_lt (c :: m) d.1 (by
            intro x hx
            rcases List.mem_cons.1 hx with rfl | hx
            · exact hlt
            · exact Nat.lt_trans hlt (hc x hx))] at this
          simp [Memory.read] at this
      have hval : c = d := by
        have := h c.1
        simp only [Memory.read, key, if_true, Option.some.injEq] at this
        exact Prod.ext key this
      subst hval
      congr 1
      refine ih n hm' hn' fun a => ?_
      by_cases ha : c.1 = a
      · subst ha
        rw [Memory.read_none_of_lt m c.1 hc, Memory.read_none_of_lt n c.1 hd]
      · have := h a
        simpa [Memory.read, ha] using this

/-! ## Pixels -/

theorem Memory.wf_writePixel (m : Memory) (off : Nat) (p : Pixel) (h : Memory.wf m) :
    Memory.wf (Memory.writePixel m off p) := by
  unfold Memory.writePixel
  exact Memory.wf_write _ _ _ (Memory.wf_write _ _ _ (Memory.wf_write _ _ _ (Memory.wf_write _ _ _ h)))

/-- A Pixel write leaves every byte outside its four alone. -/
theorem Memory.read_writePixel_other (m : Memory) (off a : Nat) (p : Pixel) (h : a < off ∨ off + 4 ≤ a) :
    Memory.read (Memory.writePixel m off p) a = Memory.read m a := by
  unfold Memory.writePixel
  rw [Memory.read_write_other _ _ _ _ (by omega), Memory.read_write_other _ _ _ _ (by omega),
    Memory.read_write_other _ _ _ _ (by omega), Memory.read_write_other _ _ _ _ (by omega)]

@[simp] theorem Memory.read_writePixel_r (m : Memory) (off : Nat) (p : Pixel) :
    Memory.read (Memory.writePixel m off p) off = some p.r := by
  unfold Memory.writePixel
  rw [Memory.read_write_other _ _ _ _ (by omega), Memory.read_write_other _ _ _ _ (by omega),
    Memory.read_write_other _ _ _ _ (by omega), Memory.read_write_same]

@[simp] theorem Memory.read_writePixel_g (m : Memory) (off : Nat) (p : Pixel) :
    Memory.read (Memory.writePixel m off p) (off + 1) = some p.g := by
  unfold Memory.writePixel
  rw [Memory.read_write_other _ _ _ _ (by omega), Memory.read_write_other _ _ _ _ (by omega),
    Memory.read_write_same]

@[simp] theorem Memory.read_writePixel_b (m : Memory) (off : Nat) (p : Pixel) :
    Memory.read (Memory.writePixel m off p) (off + 2) = some p.b := by
  unfold Memory.writePixel
  rw [Memory.read_write_other _ _ _ _ (by omega), Memory.read_write_same]

@[simp] theorem Memory.read_writePixel_a (m : Memory) (off : Nat) (p : Pixel) :
    Memory.read (Memory.writePixel m off p) (off + 3) = some p.a := by
  unfold Memory.writePixel
  rw [Memory.read_write_same]

/-- The written Pixel is read back. -/
@[simp] theorem Memory.readPixel_writePixel_same (m : Memory) (i : Nat) (p : Pixel) :
    Memory.readPixel (Memory.writePixel m (4 * i) p) i = some p := by
  simp [Memory.readPixel]

/-- A Pixel write leaves every other Pixel alone. -/
theorem Memory.readPixel_writePixel_other (m : Memory) (i j : Nat) (p : Pixel) (h : j ≠ i) :
    Memory.readPixel (Memory.writePixel m (4 * i) p) j = Memory.readPixel m j := by
  unfold Memory.readPixel
  rw [Memory.read_writePixel_other _ _ _ _ (by omega), Memory.read_writePixel_other _ _ _ _ (by omega),
    Memory.read_writePixel_other _ _ _ _ (by omega), Memory.read_writePixel_other _ _ _ _ (by omega)]

/-- A memory whose first four bytes of Pixel `i` are all written holds a Pixel there. -/
theorem Memory.readPixel_isSome (m : Memory) (i : Nat) (h : ∀ a, 4 * i ≤ a → a < 4 * i + 4 → (Memory.read m a).isSome = true) :
    (Memory.readPixel m i).isSome = true := by
  obtain ⟨r, hr⟩ := Option.isSome_iff_exists.1 (h (4 * i) (by omega) (by omega))
  obtain ⟨g, hg⟩ := Option.isSome_iff_exists.1 (h (4 * i + 1) (by omega) (by omega))
  obtain ⟨b, hb⟩ := Option.isSome_iff_exists.1 (h (4 * i + 2) (by omega) (by omega))
  obtain ⟨a, ha⟩ := Option.isSome_iff_exists.1 (h (4 * i + 3) (by omega) (by omega))
  simp [Memory.readPixel, hr, hg, hb, ha]

end Sys2Proof.Machine
end

