-- ==== Sys2Proof/Laws/State.lean ====
section
/-! SUPPORT. What each named update of the state makes of each field: one lemma per field and update, true by rfl. -/

namespace Sys2Proof.Machine

/-! ## State.emitted -/

@[simp] theorem State.emitted_phase (p : Pixel) (s : State) : (State.emitted p s).phase = if s.wptr + 1 = s.npix then .trailer else s.phase := rfl
@[simp] theorem State.emitted_op (p : Pixel) (s : State) : (State.emitted p s).op = s.op := rfl
@[simp] theorem State.emitted_scratch (p : Pixel) (s : State) : (State.emitted p s).scratch = s.scratch := rfl
@[simp] theorem State.emitted_cnt (p : Pixel) (s : State) : (State.emitted p s).cnt = s.cnt := rfl
@[simp] theorem State.emitted_px (p : Pixel) (s : State) : (State.emitted p s).px = p := rfl
@[simp] theorem State.emitted_cache (p : Pixel) (s : State) : (State.emitted p s).cache = cacheStore s.cache p := rfl
@[simp] theorem State.emitted_hbuf (p : Pixel) (s : State) : (State.emitted p s).hbuf = s.hbuf := rfl
@[simp] theorem State.emitted_hcnt (p : Pixel) (s : State) : (State.emitted p s).hcnt = s.hcnt := rfl
@[simp] theorem State.emitted_width (p : Pixel) (s : State) : (State.emitted p s).width = s.width := rfl
@[simp] theorem State.emitted_height (p : Pixel) (s : State) : (State.emitted p s).height = s.height := rfl
@[simp] theorem State.emitted_channels (p : Pixel) (s : State) : (State.emitted p s).channels = s.channels := rfl
@[simp] theorem State.emitted_colorspace (p : Pixel) (s : State) : (State.emitted p s).colorspace = s.colorspace := rfl
@[simp] theorem State.emitted_hdrValid (p : Pixel) (s : State) : (State.emitted p s).hdrValid = s.hdrValid := rfl
@[simp] theorem State.emitted_npix (p : Pixel) (s : State) : (State.emitted p s).npix = s.npix := rfl
@[simp] theorem State.emitted_wptr (p : Pixel) (s : State) : (State.emitted p s).wptr = s.wptr + 1 := rfl
@[simp] theorem State.emitted_tcnt (p : Pixel) (s : State) : (State.emitted p s).tcnt = s.tcnt := rfl
@[simp] theorem State.emitted_err (p : Pixel) (s : State) : (State.emitted p s).err = s.err := rfl
@[simp] theorem State.emitted_pb (p : Pixel) (s : State) : (State.emitted p s).pb = Memory.writePixel s.pb (pixelOffset s.wptr) p := rfl
@[simp] theorem State.emitted_runcnt (p : Pixel) (s : State) : (State.emitted p s).runcnt = s.runcnt := rfl
@[simp] theorem State.emitted_input (p : Pixel) (s : State) : (State.emitted p s).input = s.input := rfl
@[simp] theorem State.emitted_outputs (p : Pixel) (s : State) : (State.emitted p s).outputs = s.outputs ++ [.pixelEmitted s.wptr p] := rfl

/-! ## State.finish -/

@[simp] theorem State.finish_phase (s : State) : (State.finish s).phase = s.phase := rfl
@[simp] theorem State.finish_op (s : State) : (State.finish s).op = .none := rfl
@[simp] theorem State.finish_scratch (s : State) : (State.finish s).scratch = #v[0, 0, 0, 0, 0] := rfl
@[simp] theorem State.finish_cnt (s : State) : (State.finish s).cnt = 0 := rfl
@[simp] theorem State.finish_px (s : State) : (State.finish s).px = s.px := rfl
@[simp] theorem State.finish_cache (s : State) : (State.finish s).cache = s.cache := rfl
@[simp] theorem State.finish_hbuf (s : State) : (State.finish s).hbuf = s.hbuf := rfl
@[simp] theorem State.finish_hcnt (s : State) : (State.finish s).hcnt = s.hcnt := rfl
@[simp] theorem State.finish_width (s : State) : (State.finish s).width = s.width := rfl
@[simp] theorem State.finish_height (s : State) : (State.finish s).height = s.height := rfl
@[simp] theorem State.finish_channels (s : State) : (State.finish s).channels = s.channels := rfl
@[simp] theorem State.finish_colorspace (s : State) : (State.finish s).colorspace = s.colorspace := rfl
@[simp] theorem State.finish_hdrValid (s : State) : (State.finish s).hdrValid = s.hdrValid := rfl
@[simp] theorem State.finish_npix (s : State) : (State.finish s).npix = s.npix := rfl
@[simp] theorem State.finish_wptr (s : State) : (State.finish s).wptr = s.wptr := rfl
@[simp] theorem State.finish_tcnt (s : State) : (State.finish s).tcnt = s.tcnt := rfl
@[simp] theorem State.finish_err (s : State) : (State.finish s).err = s.err := rfl
@[simp] theorem State.finish_pb (s : State) : (State.finish s).pb = s.pb := rfl
@[simp] theorem State.finish_runcnt (s : State) : (State.finish s).runcnt = s.runcnt := rfl
@[simp] theorem State.finish_input (s : State) : (State.finish s).input = s.input := rfl
@[simp] theorem State.finish_outputs (s : State) : (State.finish s).outputs = s.outputs := rfl

/-! ## raise -/

@[simp] theorem raise_phase (k : ErrorKind) (s : State) : (raise k s).phase = .failed := rfl
@[simp] theorem raise_op (k : ErrorKind) (s : State) : (raise k s).op = s.op := rfl
@[simp] theorem raise_scratch (k : ErrorKind) (s : State) : (raise k s).scratch = s.scratch := rfl
@[simp] theorem raise_cnt (k : ErrorKind) (s : State) : (raise k s).cnt = s.cnt := rfl
@[simp] theorem raise_px (k : ErrorKind) (s : State) : (raise k s).px = s.px := rfl
@[simp] theorem raise_cache (k : ErrorKind) (s : State) : (raise k s).cache = s.cache := rfl
@[simp] theorem raise_hbuf (k : ErrorKind) (s : State) : (raise k s).hbuf = s.hbuf := rfl
@[simp] theorem raise_hcnt (k : ErrorKind) (s : State) : (raise k s).hcnt = s.hcnt := rfl
@[simp] theorem raise_width (k : ErrorKind) (s : State) : (raise k s).width = s.width := rfl
@[simp] theorem raise_height (k : ErrorKind) (s : State) : (raise k s).height = s.height := rfl
@[simp] theorem raise_channels (k : ErrorKind) (s : State) : (raise k s).channels = s.channels := rfl
@[simp] theorem raise_colorspace (k : ErrorKind) (s : State) : (raise k s).colorspace = s.colorspace := rfl
@[simp] theorem raise_hdrValid (k : ErrorKind) (s : State) : (raise k s).hdrValid = s.hdrValid := rfl
@[simp] theorem raise_npix (k : ErrorKind) (s : State) : (raise k s).npix = s.npix := rfl
@[simp] theorem raise_wptr (k : ErrorKind) (s : State) : (raise k s).wptr = s.wptr := rfl
@[simp] theorem raise_tcnt (k : ErrorKind) (s : State) : (raise k s).tcnt = s.tcnt := rfl
@[simp] theorem raise_err (k : ErrorKind) (s : State) : (raise k s).err = some k := rfl
@[simp] theorem raise_pb (k : ErrorKind) (s : State) : (raise k s).pb = s.pb := rfl
@[simp] theorem raise_runcnt (k : ErrorKind) (s : State) : (raise k s).runcnt = s.runcnt := rfl
@[simp] theorem raise_input (k : ErrorKind) (s : State) : (raise k s).input = s.input := rfl
@[simp] theorem raise_outputs (k : ErrorKind) (s : State) : (raise k s).outputs = s.outputs ++ [.failed k] := rfl

/-! ## State.storeHeaderByte -/

@[simp] theorem State.storeHeaderByte_phase (b : Byte) (s : State) : (State.storeHeaderByte b s).phase = s.phase := rfl
@[simp] theorem State.storeHeaderByte_op (b : Byte) (s : State) : (State.storeHeaderByte b s).op = s.op := rfl
@[simp] theorem State.storeHeaderByte_scratch (b : Byte) (s : State) : (State.storeHeaderByte b s).scratch = s.scratch := rfl
@[simp] theorem State.storeHeaderByte_cnt (b : Byte) (s : State) : (State.storeHeaderByte b s).cnt = s.cnt := rfl
@[simp] theorem State.storeHeaderByte_px (b : Byte) (s : State) : (State.storeHeaderByte b s).px = s.px := rfl
@[simp] theorem State.storeHeaderByte_cache (b : Byte) (s : State) : (State.storeHeaderByte b s).cache = s.cache := rfl
@[simp] theorem State.storeHeaderByte_hbuf (b : Byte) (s : State) : (State.storeHeaderByte b s).hbuf = s.hbuf.setIfInBounds s.hcnt.toNat b := rfl
@[simp] theorem State.storeHeaderByte_hcnt (b : Byte) (s : State) : (State.storeHeaderByte b s).hcnt = s.hcnt + 1 := rfl
@[simp] theorem State.storeHeaderByte_width (b : Byte) (s : State) : (State.storeHeaderByte b s).width = s.width := rfl
@[simp] theorem State.storeHeaderByte_height (b : Byte) (s : State) : (State.storeHeaderByte b s).height = s.height := rfl
@[simp] theorem State.storeHeaderByte_channels (b : Byte) (s : State) : (State.storeHeaderByte b s).channels = s.channels := rfl
@[simp] theorem State.storeHeaderByte_colorspace (b : Byte) (s : State) : (State.storeHeaderByte b s).colorspace = s.colorspace := rfl
@[simp] theorem State.storeHeaderByte_hdrValid (b : Byte) (s : State) : (State.storeHeaderByte b s).hdrValid = s.hdrValid := rfl
@[simp] theorem State.storeHeaderByte_npix (b : Byte) (s : State) : (State.storeHeaderByte b s).npix = s.npix := rfl
@[simp] theorem State.storeHeaderByte_wptr (b : Byte) (s : State) : (State.storeHeaderByte b s).wptr = s.wptr := rfl
@[simp] theorem State.storeHeaderByte_tcnt (b : Byte) (s : State) : (State.storeHeaderByte b s).tcnt = s.tcnt := rfl
@[simp] theorem State.storeHeaderByte_err (b : Byte) (s : State) : (State.storeHeaderByte b s).err = s.err := rfl
@[simp] theorem State.storeHeaderByte_pb (b : Byte) (s : State) : (State.storeHeaderByte b s).pb = s.pb := rfl
@[simp] theorem State.storeHeaderByte_runcnt (b : Byte) (s : State) : (State.storeHeaderByte b s).runcnt = s.runcnt := rfl
@[simp] theorem State.storeHeaderByte_input (b : Byte) (s : State) : (State.storeHeaderByte b s).input = s.input := rfl
@[simp] theorem State.storeHeaderByte_outputs (b : Byte) (s : State) : (State.storeHeaderByte b s).outputs = s.outputs := rfl

/-! ## State.storeTag -/

@[simp] theorem State.storeTag_phase (b : Byte) (s : State) : (State.storeTag b s).phase = s.phase := rfl
@[simp] theorem State.storeTag_op (b : Byte) (s : State) : (State.storeTag b s).op = kindOf b := rfl
@[simp] theorem State.storeTag_scratch (b : Byte) (s : State) : (State.storeTag b s).scratch = s.scratch.set 0 b := rfl
@[simp] theorem State.storeTag_cnt (b : Byte) (s : State) : (State.storeTag b s).cnt = 1 := rfl
@[simp] theorem State.storeTag_px (b : Byte) (s : State) : (State.storeTag b s).px = s.px := rfl
@[simp] theorem State.storeTag_cache (b : Byte) (s : State) : (State.storeTag b s).cache = s.cache := rfl
@[simp] theorem State.storeTag_hbuf (b : Byte) (s : State) : (State.storeTag b s).hbuf = s.hbuf := rfl
@[simp] theorem State.storeTag_hcnt (b : Byte) (s : State) : (State.storeTag b s).hcnt = s.hcnt := rfl
@[simp] theorem State.storeTag_width (b : Byte) (s : State) : (State.storeTag b s).width = s.width := rfl
@[simp] theorem State.storeTag_height (b : Byte) (s : State) : (State.storeTag b s).height = s.height := rfl
@[simp] theorem State.storeTag_channels (b : Byte) (s : State) : (State.storeTag b s).channels = s.channels := rfl
@[simp] theorem State.storeTag_colorspace (b : Byte) (s : State) : (State.storeTag b s).colorspace = s.colorspace := rfl
@[simp] theorem State.storeTag_hdrValid (b : Byte) (s : State) : (State.storeTag b s).hdrValid = s.hdrValid := rfl
@[simp] theorem State.storeTag_npix (b : Byte) (s : State) : (State.storeTag b s).npix = s.npix := rfl
@[simp] theorem State.storeTag_wptr (b : Byte) (s : State) : (State.storeTag b s).wptr = s.wptr := rfl
@[simp] theorem State.storeTag_tcnt (b : Byte) (s : State) : (State.storeTag b s).tcnt = s.tcnt := rfl
@[simp] theorem State.storeTag_err (b : Byte) (s : State) : (State.storeTag b s).err = s.err := rfl
@[simp] theorem State.storeTag_pb (b : Byte) (s : State) : (State.storeTag b s).pb = s.pb := rfl
@[simp] theorem State.storeTag_runcnt (b : Byte) (s : State) : (State.storeTag b s).runcnt = s.runcnt := rfl
@[simp] theorem State.storeTag_input (b : Byte) (s : State) : (State.storeTag b s).input = s.input := rfl
@[simp] theorem State.storeTag_outputs (b : Byte) (s : State) : (State.storeTag b s).outputs = s.outputs := rfl

/-! ## State.storeData -/

@[simp] theorem State.storeData_phase (b : Byte) (s : State) : (State.storeData b s).phase = s.phase := rfl
@[simp] theorem State.storeData_op (b : Byte) (s : State) : (State.storeData b s).op = s.op := rfl
@[simp] theorem State.storeData_scratch (b : Byte) (s : State) : (State.storeData b s).scratch = s.scratch.setIfInBounds s.cnt.toNat b := rfl
@[simp] theorem State.storeData_cnt (b : Byte) (s : State) : (State.storeData b s).cnt = s.cnt + 1 := rfl
@[simp] theorem State.storeData_px (b : Byte) (s : State) : (State.storeData b s).px = s.px := rfl
@[simp] theorem State.storeData_cache (b : Byte) (s : State) : (State.storeData b s).cache = s.cache := rfl
@[simp] theorem State.storeData_hbuf (b : Byte) (s : State) : (State.storeData b s).hbuf = s.hbuf := rfl
@[simp] theorem State.storeData_hcnt (b : Byte) (s : State) : (State.storeData b s).hcnt = s.hcnt := rfl
@[simp] theorem State.storeData_width (b : Byte) (s : State) : (State.storeData b s).width = s.width := rfl
@[simp] theorem State.storeData_height (b : Byte) (s : State) : (State.storeData b s).height = s.height := rfl
@[simp] theorem State.storeData_channels (b : Byte) (s : State) : (State.storeData b s).channels = s.channels := rfl
@[simp] theorem State.storeData_colorspace (b : Byte) (s : State) : (State.storeData b s).colorspace = s.colorspace := rfl
@[simp] theorem State.storeData_hdrValid (b : Byte) (s : State) : (State.storeData b s).hdrValid = s.hdrValid := rfl
@[simp] theorem State.storeData_npix (b : Byte) (s : State) : (State.storeData b s).npix = s.npix := rfl
@[simp] theorem State.storeData_wptr (b : Byte) (s : State) : (State.storeData b s).wptr = s.wptr := rfl
@[simp] theorem State.storeData_tcnt (b : Byte) (s : State) : (State.storeData b s).tcnt = s.tcnt := rfl
@[simp] theorem State.storeData_err (b : Byte) (s : State) : (State.storeData b s).err = s.err := rfl
@[simp] theorem State.storeData_pb (b : Byte) (s : State) : (State.storeData b s).pb = s.pb := rfl
@[simp] theorem State.storeData_runcnt (b : Byte) (s : State) : (State.storeData b s).runcnt = s.runcnt := rfl
@[simp] theorem State.storeData_input (b : Byte) (s : State) : (State.storeData b s).input = s.input := rfl
@[simp] theorem State.storeData_outputs (b : Byte) (s : State) : (State.storeData b s).outputs = s.outputs := rfl

/-! ## State.withHeaderBytes -/

@[simp] theorem State.withHeaderBytes_phase (v : Vector Byte 14) (s : State) : (State.withHeaderBytes v s).phase = s.phase := rfl
@[simp] theorem State.withHeaderBytes_op (v : Vector Byte 14) (s : State) : (State.withHeaderBytes v s).op = s.op := rfl
@[simp] theorem State.withHeaderBytes_scratch (v : Vector Byte 14) (s : State) : (State.withHeaderBytes v s).scratch = s.scratch := rfl
@[simp] theorem State.withHeaderBytes_cnt (v : Vector Byte 14) (s : State) : (State.withHeaderBytes v s).cnt = s.cnt := rfl
@[simp] theorem State.withHeaderBytes_px (v : Vector Byte 14) (s : State) : (State.withHeaderBytes v s).px = s.px := rfl
@[simp] theorem State.withHeaderBytes_cache (v : Vector Byte 14) (s : State) : (State.withHeaderBytes v s).cache = s.cache := rfl
@[simp] theorem State.withHeaderBytes_hbuf (v : Vector Byte 14) (s : State) : (State.withHeaderBytes v s).hbuf = v := rfl
@[simp] theorem State.withHeaderBytes_hcnt (v : Vector Byte 14) (s : State) : (State.withHeaderBytes v s).hcnt = 14 := rfl
@[simp] theorem State.withHeaderBytes_width (v : Vector Byte 14) (s : State) : (State.withHeaderBytes v s).width = s.width := rfl
@[simp] theorem State.withHeaderBytes_height (v : Vector Byte 14) (s : State) : (State.withHeaderBytes v s).height = s.height := rfl
@[simp] theorem State.withHeaderBytes_channels (v : Vector Byte 14) (s : State) : (State.withHeaderBytes v s).channels = s.channels := rfl
@[simp] theorem State.withHeaderBytes_colorspace (v : Vector Byte 14) (s : State) : (State.withHeaderBytes v s).colorspace = s.colorspace := rfl
@[simp] theorem State.withHeaderBytes_hdrValid (v : Vector Byte 14) (s : State) : (State.withHeaderBytes v s).hdrValid = s.hdrValid := rfl
@[simp] theorem State.withHeaderBytes_npix (v : Vector Byte 14) (s : State) : (State.withHeaderBytes v s).npix = s.npix := rfl
@[simp] theorem State.withHeaderBytes_wptr (v : Vector Byte 14) (s : State) : (State.withHeaderBytes v s).wptr = s.wptr := rfl
@[simp] theorem State.withHeaderBytes_tcnt (v : Vector Byte 14) (s : State) : (State.withHeaderBytes v s).tcnt = s.tcnt := rfl
@[simp] theorem State.withHeaderBytes_err (v : Vector Byte 14) (s : State) : (State.withHeaderBytes v s).err = s.err := rfl
@[simp] theorem State.withHeaderBytes_pb (v : Vector Byte 14) (s : State) : (State.withHeaderBytes v s).pb = s.pb := rfl
@[simp] theorem State.withHeaderBytes_runcnt (v : Vector Byte 14) (s : State) : (State.withHeaderBytes v s).runcnt = s.runcnt := rfl
@[simp] theorem State.withHeaderBytes_input (v : Vector Byte 14) (s : State) : (State.withHeaderBytes v s).input = s.input := rfl
@[simp] theorem State.withHeaderBytes_outputs (v : Vector Byte 14) (s : State) : (State.withHeaderBytes v s).outputs = s.outputs := rfl

/-! ## State.bumpTrailer -/

@[simp] theorem State.bumpTrailer_phase (s : State) : (State.bumpTrailer s).phase = s.phase := rfl
@[simp] theorem State.bumpTrailer_op (s : State) : (State.bumpTrailer s).op = s.op := rfl
@[simp] theorem State.bumpTrailer_scratch (s : State) : (State.bumpTrailer s).scratch = s.scratch := rfl
@[simp] theorem State.bumpTrailer_cnt (s : State) : (State.bumpTrailer s).cnt = s.cnt := rfl
@[simp] theorem State.bumpTrailer_px (s : State) : (State.bumpTrailer s).px = s.px := rfl
@[simp] theorem State.bumpTrailer_cache (s : State) : (State.bumpTrailer s).cache = s.cache := rfl
@[simp] theorem State.bumpTrailer_hbuf (s : State) : (State.bumpTrailer s).hbuf = s.hbuf := rfl
@[simp] theorem State.bumpTrailer_hcnt (s : State) : (State.bumpTrailer s).hcnt = s.hcnt := rfl
@[simp] theorem State.bumpTrailer_width (s : State) : (State.bumpTrailer s).width = s.width := rfl
@[simp] theorem State.bumpTrailer_height (s : State) : (State.bumpTrailer s).height = s.height := rfl
@[simp] theorem State.bumpTrailer_channels (s : State) : (State.bumpTrailer s).channels = s.channels := rfl
@[simp] theorem State.bumpTrailer_colorspace (s : State) : (State.bumpTrailer s).colorspace = s.colorspace := rfl
@[simp] theorem State.bumpTrailer_hdrValid (s : State) : (State.bumpTrailer s).hdrValid = s.hdrValid := rfl
@[simp] theorem State.bumpTrailer_npix (s : State) : (State.bumpTrailer s).npix = s.npix := rfl
@[simp] theorem State.bumpTrailer_wptr (s : State) : (State.bumpTrailer s).wptr = s.wptr := rfl
@[simp] theorem State.bumpTrailer_tcnt (s : State) : (State.bumpTrailer s).tcnt = s.tcnt + 1 := rfl
@[simp] theorem State.bumpTrailer_err (s : State) : (State.bumpTrailer s).err = s.err := rfl
@[simp] theorem State.bumpTrailer_pb (s : State) : (State.bumpTrailer s).pb = s.pb := rfl
@[simp] theorem State.bumpTrailer_runcnt (s : State) : (State.bumpTrailer s).runcnt = s.runcnt := rfl
@[simp] theorem State.bumpTrailer_input (s : State) : (State.bumpTrailer s).input = s.input := rfl
@[simp] theorem State.bumpTrailer_outputs (s : State) : (State.bumpTrailer s).outputs = s.outputs := rfl

/-! ## State.acceptHeader -/

@[simp] theorem State.acceptHeader_phase (w h : BitVec 32) (c cs : Byte) (s : State) : (State.acceptHeader w h c cs s).phase = if w.toNat * h.toNat = 0 then .trailer else .ops := rfl
@[simp] theorem State.acceptHeader_op (w h : BitVec 32) (c cs : Byte) (s : State) : (State.acceptHeader w h c cs s).op = s.op := rfl
@[simp] theorem State.acceptHeader_scratch (w h : BitVec 32) (c cs : Byte) (s : State) : (State.acceptHeader w h c cs s).scratch = s.scratch := rfl
@[simp] theorem State.acceptHeader_cnt (w h : BitVec 32) (c cs : Byte) (s : State) : (State.acceptHeader w h c cs s).cnt = s.cnt := rfl
@[simp] theorem State.acceptHeader_px (w h : BitVec 32) (c cs : Byte) (s : State) : (State.acceptHeader w h c cs s).px = s.px := rfl
@[simp] theorem State.acceptHeader_cache (w h : BitVec 32) (c cs : Byte) (s : State) : (State.acceptHeader w h c cs s).cache = s.cache := rfl
@[simp] theorem State.acceptHeader_hbuf (w h : BitVec 32) (c cs : Byte) (s : State) : (State.acceptHeader w h c cs s).hbuf = s.hbuf := rfl
@[simp] theorem State.acceptHeader_hcnt (w h : BitVec 32) (c cs : Byte) (s : State) : (State.acceptHeader w h c cs s).hcnt = s.hcnt := rfl
@[simp] theorem State.acceptHeader_width (w h : BitVec 32) (c cs : Byte) (s : State) : (State.acceptHeader w h c cs s).width = w := rfl
@[simp] theorem State.acceptHeader_height (w h : BitVec 32) (c cs : Byte) (s : State) : (State.acceptHeader w h c cs s).height = h := rfl
@[simp] theorem State.acceptHeader_channels (w h : BitVec 32) (c cs : Byte) (s : State) : (State.acceptHeader w h c cs s).channels = c := rfl
@[simp] theorem State.acceptHeader_colorspace (w h : BitVec 32) (c cs : Byte) (s : State) : (State.acceptHeader w h c cs s).colorspace = cs := rfl
@[simp] theorem State.acceptHeader_hdrValid (w h : BitVec 32) (c cs : Byte) (s : State) : (State.acceptHeader w h c cs s).hdrValid = true := rfl
@[simp] theorem State.acceptHeader_npix (w h : BitVec 32) (c cs : Byte) (s : State) : (State.acceptHeader w h c cs s).npix = BitVec.ofNat 64 (w.toNat * h.toNat) := rfl
@[simp] theorem State.acceptHeader_wptr (w h : BitVec 32) (c cs : Byte) (s : State) : (State.acceptHeader w h c cs s).wptr = s.wptr := rfl
@[simp] theorem State.acceptHeader_tcnt (w h : BitVec 32) (c cs : Byte) (s : State) : (State.acceptHeader w h c cs s).tcnt = s.tcnt := rfl
@[simp] theorem State.acceptHeader_err (w h : BitVec 32) (c cs : Byte) (s : State) : (State.acceptHeader w h c cs s).err = s.err := rfl
@[simp] theorem State.acceptHeader_pb (w h : BitVec 32) (c cs : Byte) (s : State) : (State.acceptHeader w h c cs s).pb = [] := rfl
@[simp] theorem State.acceptHeader_runcnt (w h : BitVec 32) (c cs : Byte) (s : State) : (State.acceptHeader w h c cs s).runcnt = s.runcnt := rfl
@[simp] theorem State.acceptHeader_input (w h : BitVec 32) (c cs : Byte) (s : State) : (State.acceptHeader w h c cs s).input = s.input := rfl
@[simp] theorem State.acceptHeader_outputs (w h : BitVec 32) (c cs : Byte) (s : State) : (State.acceptHeader w h c cs s).outputs = s.outputs ++ [.headerParsed w h c cs] := rfl

/-! ## State.verifyTrailer -/

@[simp] theorem State.verifyTrailer_phase (s : State) : (State.verifyTrailer s).phase = s.phase := rfl
@[simp] theorem State.verifyTrailer_op (s : State) : (State.verifyTrailer s).op = s.op := rfl
@[simp] theorem State.verifyTrailer_scratch (s : State) : (State.verifyTrailer s).scratch = s.scratch := rfl
@[simp] theorem State.verifyTrailer_cnt (s : State) : (State.verifyTrailer s).cnt = s.cnt := rfl
@[simp] theorem State.verifyTrailer_px (s : State) : (State.verifyTrailer s).px = s.px := rfl
@[simp] theorem State.verifyTrailer_cache (s : State) : (State.verifyTrailer s).cache = s.cache := rfl
@[simp] theorem State.verifyTrailer_hbuf (s : State) : (State.verifyTrailer s).hbuf = s.hbuf := rfl
@[simp] theorem State.verifyTrailer_hcnt (s : State) : (State.verifyTrailer s).hcnt = s.hcnt := rfl
@[simp] theorem State.verifyTrailer_width (s : State) : (State.verifyTrailer s).width = s.width := rfl
@[simp] theorem State.verifyTrailer_height (s : State) : (State.verifyTrailer s).height = s.height := rfl
@[simp] theorem State.verifyTrailer_channels (s : State) : (State.verifyTrailer s).channels = s.channels := rfl
@[simp] theorem State.verifyTrailer_colorspace (s : State) : (State.verifyTrailer s).colorspace = s.colorspace := rfl
@[simp] theorem State.verifyTrailer_hdrValid (s : State) : (State.verifyTrailer s).hdrValid = s.hdrValid := rfl
@[simp] theorem State.verifyTrailer_npix (s : State) : (State.verifyTrailer s).npix = s.npix := rfl
@[simp] theorem State.verifyTrailer_wptr (s : State) : (State.verifyTrailer s).wptr = s.wptr := rfl
@[simp] theorem State.verifyTrailer_tcnt (s : State) : (State.verifyTrailer s).tcnt = 8 := rfl
@[simp] theorem State.verifyTrailer_err (s : State) : (State.verifyTrailer s).err = s.err := rfl
@[simp] theorem State.verifyTrailer_pb (s : State) : (State.verifyTrailer s).pb = s.pb := rfl
@[simp] theorem State.verifyTrailer_runcnt (s : State) : (State.verifyTrailer s).runcnt = s.runcnt := rfl
@[simp] theorem State.verifyTrailer_input (s : State) : (State.verifyTrailer s).input = s.input := rfl
@[simp] theorem State.verifyTrailer_outputs (s : State) : (State.verifyTrailer s).outputs = s.outputs ++ [.trailerVerified] := rfl

/-! ## State.complete -/

@[simp] theorem State.complete_phase (s : State) : (State.complete s).phase = .done := rfl
@[simp] theorem State.complete_op (s : State) : (State.complete s).op = s.op := rfl
@[simp] theorem State.complete_scratch (s : State) : (State.complete s).scratch = s.scratch := rfl
@[simp] theorem State.complete_cnt (s : State) : (State.complete s).cnt = s.cnt := rfl
@[simp] theorem State.complete_px (s : State) : (State.complete s).px = s.px := rfl
@[simp] theorem State.complete_cache (s : State) : (State.complete s).cache = s.cache := rfl
@[simp] theorem State.complete_hbuf (s : State) : (State.complete s).hbuf = s.hbuf := rfl
@[simp] theorem State.complete_hcnt (s : State) : (State.complete s).hcnt = s.hcnt := rfl
@[simp] theorem State.complete_width (s : State) : (State.complete s).width = s.width := rfl
@[simp] theorem State.complete_height (s : State) : (State.complete s).height = s.height := rfl
@[simp] theorem State.complete_channels (s : State) : (State.complete s).channels = s.channels := rfl
@[simp] theorem State.complete_colorspace (s : State) : (State.complete s).colorspace = s.colorspace := rfl
@[simp] theorem State.complete_hdrValid (s : State) : (State.complete s).hdrValid = s.hdrValid := rfl
@[simp] theorem State.complete_npix (s : State) : (State.complete s).npix = s.npix := rfl
@[simp] theorem State.complete_wptr (s : State) : (State.complete s).wptr = s.wptr := rfl
@[simp] theorem State.complete_tcnt (s : State) : (State.complete s).tcnt = s.tcnt := rfl
@[simp] theorem State.complete_err (s : State) : (State.complete s).err = s.err := rfl
@[simp] theorem State.complete_pb (s : State) : (State.complete s).pb = s.pb := rfl
@[simp] theorem State.complete_runcnt (s : State) : (State.complete s).runcnt = s.runcnt := rfl
@[simp] theorem State.complete_input (s : State) : (State.complete s).input = s.input := rfl
@[simp] theorem State.complete_outputs (s : State) : (State.complete s).outputs = s.outputs ++ [.completed] := rfl

/-! ## State.withInput -/

@[simp] theorem State.withInput_phase (es : List InputEvent) (s : State) : (State.withInput es s).phase = s.phase := rfl
@[simp] theorem State.withInput_op (es : List InputEvent) (s : State) : (State.withInput es s).op = s.op := rfl
@[simp] theorem State.withInput_scratch (es : List InputEvent) (s : State) : (State.withInput es s).scratch = s.scratch := rfl
@[simp] theorem State.withInput_cnt (es : List InputEvent) (s : State) : (State.withInput es s).cnt = s.cnt := rfl
@[simp] theorem State.withInput_px (es : List InputEvent) (s : State) : (State.withInput es s).px = s.px := rfl
@[simp] theorem State.withInput_cache (es : List InputEvent) (s : State) : (State.withInput es s).cache = s.cache := rfl
@[simp] theorem State.withInput_hbuf (es : List InputEvent) (s : State) : (State.withInput es s).hbuf = s.hbuf := rfl
@[simp] theorem State.withInput_hcnt (es : List InputEvent) (s : State) : (State.withInput es s).hcnt = s.hcnt := rfl
@[simp] theorem State.withInput_width (es : List InputEvent) (s : State) : (State.withInput es s).width = s.width := rfl
@[simp] theorem State.withInput_height (es : List InputEvent) (s : State) : (State.withInput es s).height = s.height := rfl
@[simp] theorem State.withInput_channels (es : List InputEvent) (s : State) : (State.withInput es s).channels = s.channels := rfl
@[simp] theorem State.withInput_colorspace (es : List InputEvent) (s : State) : (State.withInput es s).colorspace = s.colorspace := rfl
@[simp] theorem State.withInput_hdrValid (es : List InputEvent) (s : State) : (State.withInput es s).hdrValid = s.hdrValid := rfl
@[simp] theorem State.withInput_npix (es : List InputEvent) (s : State) : (State.withInput es s).npix = s.npix := rfl
@[simp] theorem State.withInput_wptr (es : List InputEvent) (s : State) : (State.withInput es s).wptr = s.wptr := rfl
@[simp] theorem State.withInput_tcnt (es : List InputEvent) (s : State) : (State.withInput es s).tcnt = s.tcnt := rfl
@[simp] theorem State.withInput_err (es : List InputEvent) (s : State) : (State.withInput es s).err = s.err := rfl
@[simp] theorem State.withInput_pb (es : List InputEvent) (s : State) : (State.withInput es s).pb = s.pb := rfl
@[simp] theorem State.withInput_runcnt (es : List InputEvent) (s : State) : (State.withInput es s).runcnt = s.runcnt := rfl
@[simp] theorem State.withInput_input (es : List InputEvent) (s : State) : (State.withInput es s).input = es := rfl
@[simp] theorem State.withInput_outputs (es : List InputEvent) (s : State) : (State.withInput es s).outputs = s.outputs := rfl

/-! ## State.setRuncnt -/

@[simp] theorem State.setRuncnt_phase (k : BitVec 6) (s : State) : (State.setRuncnt k s).phase = s.phase := rfl
@[simp] theorem State.setRuncnt_op (k : BitVec 6) (s : State) : (State.setRuncnt k s).op = s.op := rfl
@[simp] theorem State.setRuncnt_scratch (k : BitVec 6) (s : State) : (State.setRuncnt k s).scratch = s.scratch := rfl
@[simp] theorem State.setRuncnt_cnt (k : BitVec 6) (s : State) : (State.setRuncnt k s).cnt = s.cnt := rfl
@[simp] theorem State.setRuncnt_px (k : BitVec 6) (s : State) : (State.setRuncnt k s).px = s.px := rfl
@[simp] theorem State.setRuncnt_cache (k : BitVec 6) (s : State) : (State.setRuncnt k s).cache = s.cache := rfl
@[simp] theorem State.setRuncnt_hbuf (k : BitVec 6) (s : State) : (State.setRuncnt k s).hbuf = s.hbuf := rfl
@[simp] theorem State.setRuncnt_hcnt (k : BitVec 6) (s : State) : (State.setRuncnt k s).hcnt = s.hcnt := rfl
@[simp] theorem State.setRuncnt_width (k : BitVec 6) (s : State) : (State.setRuncnt k s).width = s.width := rfl
@[simp] theorem State.setRuncnt_height (k : BitVec 6) (s : State) : (State.setRuncnt k s).height = s.height := rfl
@[simp] theorem State.setRuncnt_channels (k : BitVec 6) (s : State) : (State.setRuncnt k s).channels = s.channels := rfl
@[simp] theorem State.setRuncnt_colorspace (k : BitVec 6) (s : State) : (State.setRuncnt k s).colorspace = s.colorspace := rfl
@[simp] theorem State.setRuncnt_hdrValid (k : BitVec 6) (s : State) : (State.setRuncnt k s).hdrValid = s.hdrValid := rfl
@[simp] theorem State.setRuncnt_npix (k : BitVec 6) (s : State) : (State.setRuncnt k s).npix = s.npix := rfl
@[simp] theorem State.setRuncnt_wptr (k : BitVec 6) (s : State) : (State.setRuncnt k s).wptr = s.wptr := rfl
@[simp] theorem State.setRuncnt_tcnt (k : BitVec 6) (s : State) : (State.setRuncnt k s).tcnt = s.tcnt := rfl
@[simp] theorem State.setRuncnt_err (k : BitVec 6) (s : State) : (State.setRuncnt k s).err = s.err := rfl
@[simp] theorem State.setRuncnt_pb (k : BitVec 6) (s : State) : (State.setRuncnt k s).pb = s.pb := rfl
@[simp] theorem State.setRuncnt_runcnt (k : BitVec 6) (s : State) : (State.setRuncnt k s).runcnt = k := rfl
@[simp] theorem State.setRuncnt_input (k : BitVec 6) (s : State) : (State.setRuncnt k s).input = s.input := rfl
@[simp] theorem State.setRuncnt_outputs (k : BitVec 6) (s : State) : (State.setRuncnt k s).outputs = s.outputs := rfl

end Sys2Proof.Machine
end

