-- ==== Sys2Proof/Laws/Ops.lean ====
section
/-! SUPPORT. One lemma per shared operation that says everything it can do: the cache, Emit and repeated Emit, and the one form every opcode's
meaning has. -/

namespace Sys2Proof.Machine

/-! ## Channel arithmetic -/

/-- 42_opcodes.md R136: the least non-negative residue modulo 256. -/
theorem addChannel_toNat (v : Byte) (d : Int) : ((addChannel v d).toNat : Int) = ((v.toNat : Int) + d) % 256 := by
  simp only [addChannel, BitVec.toNat_ofInt]
  have : (0 : Int) ≤ ((v.toNat : Int) + d) % 256 := Int.emod_nonneg _ (by decide)
  norm_num
  exact this

/-- Two additions on a lane wrap to the sum (42_opcodes.md R132). -/
theorem addChannel_add (v : Byte) (d e : Int) : addChannel (addChannel v d) e = addChannel v (d + e) := by
  apply BitVec.eq_of_toNat_eq
  have h1 := addChannel_toNat (addChannel v d) e
  have h2 := addChannel_toNat v (d + e)
  have h3 := addChannel_toNat v d
  omega

/-! ## Outcomes -/

@[simp] theorem thenDo_next (s : State) (f : State → Host.Outcome State Fault Refusal) : thenDo (.next s) f = f s := rfl

theorem thenDo_eq_next {o : Host.Outcome State Fault Refusal} {f : State → Host.Outcome State Fault Refusal} {t : State}
    (h : thenDo o f = .next t) : ∃ u, o = .next u ∧ f u = .next t := by
  cases o with
  | next u => exact ⟨u, rfl, h⟩
  | fault r => cases h
  | refused r => cases h

/-! ## The Color Cache -/

@[simp] theorem cacheLookup_store_same (cache : Vector Pixel 64) (p : Pixel) :
    cacheLookup (cacheStore cache p) (hashSlot p) = p := by
  simp [cacheLookup, cacheStore]

theorem cacheLookup_store_other (cache : Vector Pixel 64) (p : Pixel) (i : BitVec 6) (h : i ≠ hashSlot p) :
    cacheLookup (cacheStore cache p) i = cacheLookup cache i := by
  have hne : (hashSlot p).toNat ≠ i.toNat := fun e => h (BitVec.eq_of_toNat_eq e.symm)
  simp [cacheLookup, cacheStore, Vector.getElem_set_ne _ _ hne]

@[simp] theorem cacheStore_twice (cache : Vector Pixel 64) (p : Pixel) :
    cacheStore (cacheStore cache p) p = cacheStore cache p := by
  simp [cacheStore]

@[simp] theorem cacheLookup_replicate (p : Pixel) (i : BitVec 6) : cacheLookup (Vector.replicate 64 p) i = p := by
  simp [cacheLookup]

/-- Two caches with the same lookups are the same data. -/
theorem cache_ext (a b : Vector Pixel 64) (h : ∀ i, cacheLookup a i = cacheLookup b i) : a = b := by
  apply Vector.ext
  intro k hk
  have := h (BitVec.ofNat 6 k)
  have hk' : (BitVec.ofNat 6 k).toNat = k := by simp; omega
  simpa [cacheLookup, hk'] using this

/-- Storing a Pixel that its slot already holds changes nothing. -/
theorem cacheStore_of_lookup (cache : Vector Pixel 64) (p : Pixel) (h : cacheLookup cache (hashSlot p) = p) :
    cacheStore cache p = cache := by
  refine cache_ext _ _ fun i => ?_
  by_cases hi : i = hashSlot p
  · subst hi; simp [h]
  · exact cacheLookup_store_other cache p i hi

/-! ## Emit, once and many times -/

theorem emit_of_room (p : Pixel) (s : State) (h : s.wptr < s.npix) : emit p s = .next (s.emitted p) := if_pos h

theorem emit_of_full (p : Pixel) (s : State) (h : ¬ s.wptr < s.npix) : emit p s = .fault .emitOnFullBuffer := if_neg h

theorem emit_eq_next {p : Pixel} {s t : State} (h : emit p s = .next t) : s.wptr < s.npix ∧ t = s.emitted p := by
  unfold emit at h
  split at h
  · exact ⟨‹_›, by cases h; rfl⟩
  · cases h

/-- The state after `k` times `Emit(p)`. -/
def State.emittedRun (p : Pixel) : Nat → State → State
  | 0, s => s
  | k + 1, s => State.emittedRun p k (s.emitted p)

@[simp] theorem emittedRun_zero (p : Pixel) (s : State) : State.emittedRun p 0 s = s := rfl

theorem room_pos_iff (s : State) : 0 < s.room ↔ s.wptr < s.npix := by
  simp [State.room, BitVec.lt_def]

theorem wptr_succ_toNat (s : State) (h : s.wptr < s.npix) : (s.wptr + 1).toNat = s.wptr.toNat + 1 := by
  have := s.npix.isLt
  have h' : s.wptr.toNat < s.npix.toNat := h
  have one : (1 : BitVec 64).toNat = 1 := rfl
  rw [BitVec.toNat_add, one]
  omega

theorem room_emitted (p : Pixel) (s : State) (h : s.wptr < s.npix) : (s.emitted p).room = s.room - 1 := by
  simp only [State.room, State.emitted_npix, State.emitted_wptr, wptr_succ_toNat s h]
  omega

/-- Repeated Emit goes through exactly when the Pixels fit. -/
theorem emitRun_eq (p : Pixel) (k : Nat) (s : State) (h : k ≤ s.room) : emitRun p k s = .next (s.emittedRun p k) := by
  induction k generalizing s with
  | zero => rfl
  | succ k ih =>
    have hlt : s.wptr < s.npix := (room_pos_iff s).1 (by omega)
    simp only [emitRun, emit_of_room p s hlt, thenDo_next, State.emittedRun]
    exact ih _ (by rw [room_emitted p s hlt]; omega)

theorem emittedRun_wptr (p : Pixel) (k : Nat) (s : State) (h : k ≤ s.room) :
    (s.emittedRun p k).wptr.toNat = s.wptr.toNat + k := by
  induction k generalizing s with
  | zero => rfl
  | succ k ih =>
    have hlt : s.wptr < s.npix := (room_pos_iff s).1 (by omega)
    simp only [State.emittedRun]
    rw [ih _ (by rw [room_emitted p s hlt]; omega), State.emitted_wptr, wptr_succ_toNat s hlt]
    omega

/-- The fields that no Emit writes. -/
theorem emittedRun_frame (p : Pixel) (k : Nat) (s : State) :
    (s.emittedRun p k).op = s.op ∧ (s.emittedRun p k).scratch = s.scratch ∧ (s.emittedRun p k).cnt = s.cnt ∧
    (s.emittedRun p k).hbuf = s.hbuf ∧ (s.emittedRun p k).hcnt = s.hcnt ∧ (s.emittedRun p k).width = s.width ∧
    (s.emittedRun p k).height = s.height ∧ (s.emittedRun p k).channels = s.channels ∧
    (s.emittedRun p k).colorspace = s.colorspace ∧ (s.emittedRun p k).hdrValid = s.hdrValid ∧
    (s.emittedRun p k).npix = s.npix ∧ (s.emittedRun p k).tcnt = s.tcnt ∧ (s.emittedRun p k).err = s.err ∧
    (s.emittedRun p k).runcnt = s.runcnt ∧ (s.emittedRun p k).input = s.input := by
  induction k generalizing s with
  | zero => simp
  | succ k ih => simpa [State.emittedRun] using ih (s.emitted p)

@[simp] theorem emittedRun_op (p : Pixel) (k : Nat) (s : State) : (s.emittedRun p k).op = s.op := (emittedRun_frame p k s).1
@[simp] theorem emittedRun_scratch (p : Pixel) (k : Nat) (s : State) : (s.emittedRun p k).scratch = s.scratch :=
  (emittedRun_frame p k s).2.1
@[simp] theorem emittedRun_cnt (p : Pixel) (k : Nat) (s : State) : (s.emittedRun p k).cnt = s.cnt :=
  (emittedRun_frame p k s).2.2.1
@[simp] theorem emittedRun_hbuf (p : Pixel) (k : Nat) (s : State) : (s.emittedRun p k).hbuf = s.hbuf :=
  (emittedRun_frame p k s).2.2.2.1
@[simp] theorem emittedRun_hcnt (p : Pixel) (k : Nat) (s : State) : (s.emittedRun p k).hcnt = s.hcnt :=
  (emittedRun_frame p k s).2.2.2.2.1
@[simp] theorem emittedRun_width (p : Pixel) (k : Nat) (s : State) : (s.emittedRun p k).width = s.width :=
  (emittedRun_frame p k s).2.2.2.2.2.1
@[simp] theorem emittedRun_height (p : Pixel) (k : Nat) (s : State) : (s.emittedRun p k).height = s.height :=
  (emittedRun_frame p k s).2.2.2.2.2.2.1
@[simp] theorem emittedRun_channels (p : Pixel) (k : Nat) (s : State) : (s.emittedRun p k).channels = s.channels :=
  (emittedRun_frame p k s).2.2.2.2.2.2.2.1
@[simp] theorem emittedRun_colorspace (p : Pixel) (k : Nat) (s : State) : (s.emittedRun p k).colorspace = s.colorspace :=
  (emittedRun_frame p k s).2.2.2.2.2.2.2.2.1
@[simp] theorem emittedRun_hdrValid (p : Pixel) (k : Nat) (s : State) : (s.emittedRun p k).hdrValid = s.hdrValid :=
  (emittedRun_frame p k s).2.2.2.2.2.2.2.2.2.1
@[simp] theorem emittedRun_npix (p : Pixel) (k : Nat) (s : State) : (s.emittedRun p k).npix = s.npix :=
  (emittedRun_frame p k s).2.2.2.2.2.2.2.2.2.2.1
@[simp] theorem emittedRun_tcnt (p : Pixel) (k : Nat) (s : State) : (s.emittedRun p k).tcnt = s.tcnt :=
  (emittedRun_frame p k s).2.2.2.2.2.2.2.2.2.2.2.1
@[simp] theorem emittedRun_err (p : Pixel) (k : Nat) (s : State) : (s.emittedRun p k).err = s.err :=
  (emittedRun_frame p k s).2.2.2.2.2.2.2.2.2.2.2.2.1
@[simp] theorem emittedRun_runcnt (p : Pixel) (k : Nat) (s : State) : (s.emittedRun p k).runcnt = s.runcnt :=
  (emittedRun_frame p k s).2.2.2.2.2.2.2.2.2.2.2.2.2.1
@[simp] theorem emittedRun_input (p : Pixel) (k : Nat) (s : State) : (s.emittedRun p k).input = s.input :=
  (emittedRun_frame p k s).2.2.2.2.2.2.2.2.2.2.2.2.2.2

@[simp] theorem emittedRun_px_succ (p : Pixel) (k : Nat) (s : State) : (s.emittedRun p (k + 1)).px = p := by
  induction k generalizing s with
  | zero => rfl
  | succ k ih => exact ih (s.emitted p)

@[simp] theorem emittedRun_cache_succ (p : Pixel) (k : Nat) (s : State) :
    (s.emittedRun p (k + 1)).cache = cacheStore s.cache p := by
  induction k generalizing s with
  | zero => rfl
  | succ k ih => simpa [State.emittedRun] using ih (s.emitted p)

theorem emittedRun_outputs (p : Pixel) (k : Nat) (s : State) :
    (s.emittedRun p k).outputs =
      s.outputs ++ (List.range k).map fun i => .pixelEmitted (s.wptr + BitVec.ofNat 64 i) p := by
  induction k generalizing s with
  | zero => simp
  | succ k ih =>
    simp only [State.emittedRun, ih, State.emitted_outputs, State.emitted_wptr, List.range_succ_eq_map, List.map_cons,
      List.map_map, List.append_assoc, List.singleton_append]
    congr 2
    · simp
    · refine List.map_congr_left fun i _ => ?_
      simp only [Function.comp, OutputEvent.pixelEmitted.injEq, and_true]
      rw [BitVec.add_assoc]
      congr 1
      have one : (1 : BitVec 64) = BitVec.ofNat 64 1 := rfl
      rw [one, ← BitVec.ofNat_add, Nat.add_comm]

/-- The phase after repeated Emit: TRAILER exactly when the last Pixel fills the buffer. -/
theorem emittedRun_phase (p : Pixel) (k : Nat) (s : State) (h : k + 1 ≤ s.room) :
    (s.emittedRun p (k + 1)).phase = if s.wptr.toNat + (k + 1) = s.npix.toNat then .trailer else s.phase := by
  induction k generalizing s with
  | zero =>
    have hlt : s.wptr < s.npix := (room_pos_iff s).1 (by omega)
    simp only [State.emittedRun, State.emitted_phase, ← BitVec.toNat_inj, wptr_succ_toNat s hlt]
  | succ k ih =>
    have hlt : s.wptr < s.npix := (room_pos_iff s).1 (by omega)
    have hr := room_emitted p s hlt
    have hne : ¬ s.wptr + 1 = s.npix := by
      intro e
      have : (s.wptr + 1).toNat = s.npix.toNat := by rw [e]
      rw [wptr_succ_toNat s hlt] at this
      unfold State.room at h
      omega
    show (State.emittedRun p (k + 1) (s.emitted p)).phase = _
    rw [ih _ (by omega)]
    simp only [State.emitted_wptr, State.emitted_npix, State.emitted_phase, wptr_succ_toNat s hlt, if_neg hne]
    congr 1
    simp only [eq_iff_iff]
    omega

theorem emittedRun_wf (p : Pixel) (k : Nat) (s : State) (h : Memory.wf s.pb) : Memory.wf (s.emittedRun p k).pb := by
  induction k generalizing s with
  | zero => exact h
  | succ k ih => exact ih _ (Memory.wf_writePixel _ _ _ h)

/-- The bytes outside the `k` Pixels from `wptr` on are untouched. -/
theorem emittedRun_read_other (p : Pixel) (k : Nat) (s : State) (h : k ≤ s.room) (a : Nat)
    (ha : a < pixelOffset s.wptr ∨ pixelOffset s.wptr + 4 * k ≤ a) :
    Memory.read (s.emittedRun p k).pb a = Memory.read s.pb a := by
  induction k generalizing s with
  | zero => rfl
  | succ k ih =>
    have hlt : s.wptr < s.npix := (room_pos_iff s).1 (by omega)
    have hr := room_emitted p s hlt
    have hw := wptr_succ_toNat s hlt
    simp only [pixelOffset] at ha ih
    simp only [State.emittedRun]
    rw [ih _ (by omega) (by rw [State.emitted_wptr, hw]; omega), State.emitted_pb,
      Memory.read_writePixel_other _ _ _ _ (by simp only [pixelOffset]; omega)]

/-- The `k` Pixels from `wptr` on are all written. -/
theorem emittedRun_readPixel (p : Pixel) (k : Nat) (s : State) (h : k ≤ s.room) (i : Nat)
    (hi : s.wptr.toNat ≤ i) (hk : i < s.wptr.toNat + k) : Memory.readPixel (s.emittedRun p k).pb i = some p := by
  induction k generalizing s with
  | zero => omega
  | succ k ih =>
    have hlt : s.wptr < s.npix := (room_pos_iff s).1 (by omega)
    have hr := room_emitted p s hlt
    have hw := wptr_succ_toNat s hlt
    simp only [State.emittedRun]
    by_cases he : i = s.wptr.toNat
    · subst he
      have hpre : Memory.readPixel (s.emitted p).pb s.wptr.toNat = some p := by
        simp only [State.emitted_pb, pixelOffset, Memory.readPixel_writePixel_same]
      rw [← hpre]
      unfold Memory.readPixel
      have hoff : pixelOffset (s.emitted p).wptr = 4 * s.wptr.toNat + 4 := by
        simp only [State.emitted_wptr, pixelOffset, hw]; omega
      rw [emittedRun_read_other p k _ (by omega) _ (by omega), emittedRun_read_other p k _ (by omega) _ (by omega),
        emittedRun_read_other p k _ (by omega) _ (by omega), emittedRun_read_other p k _ (by omega) _ (by omega)]
    · exact ih _ (by omega) (by rw [State.emitted_wptr, hw]; omega) (by rw [State.emitted_wptr, hw]; omega)

/-! ## The one form of every opcode's meaning -/

/-- `exec` is the meaning under the default parameters. -/
theorem execWith_default (i : Instr) (s : State) : execWith Config.params i s = exec i s := by
  cases i <;> rfl

/-- The Pixel an opcode emits (42_opcodes.md R128 to R133). -/
def opcodePixel (P : Params) (i : Instr) (s : State) : Pixel :=
  match i with
  | .rgb r g b => ⟨r, g, b, s.px.a⟩
  | .rgba r g b a => ⟨r, g, b, a⟩
  | .index idx => cacheLookup s.cache idx
  | .diff fr fg fb => Pixel.addDeltas s.px (diffDelta P.diffCoding fr) (diffDelta P.diffCoding fg) (diffDelta P.diffCoding fb)
  | .luma fg frg fbg => Pixel.addDeltas s.px (lumaDelta fg frg) (lumaDg fg) (lumaDelta fg fbg)
  | .run _ => s.px
  | .header _ _ _ _ _ => s.px
  | .trailer => s.px

/-- How many times an opcode emits it (42_opcodes.md R134, R137). -/
def opcodeCount (i : Instr) (s : State) : Nat :=
  match i with
  | .run frun => min (runLength frun) s.room
  | _ => 1

/-- The instruction is a RUN that overruns the buffer where such a RUN has no meaning (42_opcodes.md R134). -/
def RefusedRun (P : Params) (i : Instr) (s : State) : Prop :=
  P.runOverrun = .refuse ∧ ∃ frun, i = .run frun ∧ s.room < runLength frun

/-- Under the default parameters no RUN is refused. -/
theorem not_refusedRun_default (i : Instr) (s : State) : ¬ RefusedRun Config.params i s := by
  rintro ⟨h, _⟩
  exact absurd h (by decide)

theorem emitOne_of_room (p : Pixel) (s : State) (h : s.wptr < s.npix) :
    emitOne p s = .next (s.emittedRun p 1).finish := by
  simp only [emitOne, emit_of_room p s h, thenDo_next]
  rfl

/-- The whole of what RUN can answer. -/
theorem execRunWith_cases (P : Params) (frun : BitVec 6) (s : State) :
    (RefusedRun P (.run frun) s ∧ execRunWith P frun s = .refused .runOverrun) ∨
    (¬ RefusedRun P (.run frun) s ∧
      execRunWith P frun s = .next (s.emittedRun s.px (min (runLength frun) s.room)).finish) := by
  by_cases h : s.room < runLength frun ∧ P.runOverrun = .refuse
  · exact .inl ⟨⟨h.2, frun, rfl, h.1⟩, if_pos h⟩
  · refine .inr ⟨?_, ?_⟩
    · rintro ⟨hp, _, e, hr⟩
      cases e
      exact h ⟨hr, hp⟩
    · simp only [execRunWith, if_neg h, emitRun_eq _ _ _ (Nat.min_le_right _ _), thenDo_next]

/-- RUN under the default parameters always answers a next state. -/
theorem execRun_eq (frun : BitVec 6) (s : State) :
    execRun frun s = .next (s.emittedRun s.px (min (runLength frun) s.room)).finish := by
  rcases execRunWith_cases Config.params frun s with ⟨h, _⟩ | ⟨_, h⟩
  · exact absurd h (not_refusedRun_default _ s)
  · exact h

/-- With room in the buffer every opcode that is not a refused RUN answers a next state: its Pixel emitted as often as it says, then Finish. -/
theorem execWith_opcode (P : Params) (i : Instr) (s : State) (hi : i.space = .ops) (hf : ¬ RefusedRun P i s) (h : s.wptr < s.npix) :
    execWith P i s = .next (s.emittedRun (opcodePixel P i s) (opcodeCount i s)).finish := by
  cases i with
  | rgb r g b => exact emitOne_of_room _ s h
  | rgba r g b a => exact emitOne_of_room _ s h
  | index idx => exact emitOne_of_room _ s h
  | diff fr fg fb => exact emitOne_of_room _ s h
  | luma fg frg fbg => exact emitOne_of_room _ s h
  | run frun =>
    rcases execRunWith_cases P frun s with ⟨h, _⟩ | ⟨_, h⟩
    · exact absurd h hf
    · exact h
  | header _ _ _ _ _ => cases hi
  | trailer => cases hi

/-- With room in the buffer every opcode answers a next state under the default parameters. -/
theorem exec_opcode (i : Instr) (s : State) (hi : i.space = .ops) (h : s.wptr < s.npix) :
    exec i s = .next (s.emittedRun (opcodePixel Config.params i s) (opcodeCount i s)).finish :=
  (execWith_default i s).symm.trans (execWith_opcode Config.params i s hi (not_refusedRun_default i s) h)

theorem opcodeCount_le_room (i : Instr) (s : State) (h : s.wptr < s.npix) : opcodeCount i s ≤ s.room := by
  have := (room_pos_iff s).2 h
  unfold opcodeCount
  split
  · exact Nat.min_le_right _ _
  · omega

theorem opcodeCount_pos (i : Instr) (s : State) (h : s.wptr < s.npix) : 1 ≤ opcodeCount i s := by
  have := (room_pos_iff s).2 h
  unfold opcodeCount
  split
  · simp only [runLength]; omega
  · omega

/-- The whole of what an opcode can answer, in any state: a refused RUN, the fault of a full buffer, or its Pixels emitted and Finish. -/
theorem execWith_opcode_cases (P : Params) (i : Instr) (s : State) (hi : i.space = .ops) :
    (RefusedRun P i s ∧ execWith P i s = .refused .runOverrun) ∨
    (¬ s.wptr < s.npix ∧ execWith P i s = .fault .emitOnFullBuffer) ∨
    (¬ RefusedRun P i s ∧ opcodeCount i s ≤ s.room ∧
      execWith P i s = .next (s.emittedRun (opcodePixel P i s) (opcodeCount i s)).finish) := by
  cases i with
  | run frun =>
    rcases execRunWith_cases P frun s with h | ⟨hf, h⟩
    · exact .inl h
    · exact .inr (.inr ⟨hf, Nat.min_le_right _ _, h⟩)
  | header _ _ _ _ _ => cases hi
  | trailer => cases hi
  | _ =>
    all_goals
      by_cases hr : s.wptr < s.npix
      · refine .inr (.inr ⟨?_, opcodeCount_le_room _ s hr, execWith_opcode P _ s hi ?_ hr⟩) <;>
        · rintro ⟨_, _, e, _⟩
          cases e
      · refine .inr (.inl ⟨hr, ?_⟩)
        simp only [execWith, execRgb, execRgba, execIndex, execDiffWith, execLuma, emitOne, emit_of_full _ _ hr, thenDo]

/-- Whatever state it starts in, an opcode that answers a next state has emitted Pixels that fit, and finished. -/
theorem execWith_opcode_next {P : Params} {i : Instr} {s t : State} (hi : i.space = .ops) (h : execWith P i s = .next t) :
    t = (s.emittedRun (opcodePixel P i s) (opcodeCount i s)).finish ∧ opcodeCount i s ≤ s.room := by
  rcases execWith_opcode_cases P i s hi with ⟨_, e⟩ | ⟨_, e⟩ | ⟨_, hr, e⟩
  · cases e.symm.trans h
  · cases e.symm.trans h
  · cases e.symm.trans h
    exact ⟨rfl, hr⟩

/-- The same of `exec`. -/
theorem exec_opcode_next {i : Instr} {s t : State} (hi : i.space = .ops) (h : exec i s = .next t) :
    t = (s.emittedRun (opcodePixel Config.params i s) (opcodeCount i s)).finish ∧ opcodeCount i s ≤ s.room :=
  execWith_opcode_next hi ((execWith_default i s).trans h)

end Sys2Proof.Machine
end

