-- ==== Sys2Proof/Laws/Sequencer.lean ====
section
/-! SUPPORT. What one step can do, said once: the inversion of HEADER, of one byte, and of a step. -/

namespace Sys2Proof.Machine

/-- The whole of what HEADER can answer (41_header.md R111, R115, R119). -/
theorem execHeaderWith_cases (P : Params) (magic width height : BitVec 32) (channels colorspace : Byte) (s : State) :
    (∃ k, (k = .headerMagicMismatch ∧ magic ≠ P.magic ∨
          k = .unsupportedChannelMode ∧ magic = P.magic ∧ channels ≠ 3 ∧ channels ≠ 4 ∨
          k = .unsupportedColorspaceMode ∧ magic = P.magic ∧ (channels = 3 ∨ channels = 4) ∧ colorspace ≠ 0 ∧ colorspace ≠ 1) ∧
        execHeaderWith P magic width height channels colorspace s =
          .next (raise k (s.withHeaderBytes (headerBytes magic width height channels colorspace)))) ∨
      (magic = P.magic ∧ (channels = 3 ∨ channels = 4) ∧ (colorspace = 0 ∨ colorspace = 1) ∧
        (P.maxPixels < width.toNat * height.toNat ∧
            execHeaderWith P magic width height channels colorspace s = .refused .imageTooLarge ∨
          width.toNat * height.toNat ≤ P.maxPixels ∧
            execHeaderWith P magic width height channels colorspace s =
              .next ((s.withHeaderBytes (headerBytes magic width height channels colorspace)).acceptHeader
                width height channels colorspace))) := by
  unfold execHeaderWith
  by_cases hm : magic = P.magic
  · by_cases hc : channels ≠ 3 ∧ channels ≠ 4
    · exact .inl ⟨.unsupportedChannelMode, .inr (.inl ⟨rfl, hm, hc⟩), by rw [if_neg (not_not.2 hm), if_pos hc]⟩
    · have hc' : channels = 3 ∨ channels = 4 := by
        by_contra h
        exact hc ⟨fun e => h (.inl e), fun e => h (.inr e)⟩
      by_cases hs : colorspace ≠ 0 ∧ colorspace ≠ 1
      · exact .inl ⟨.unsupportedColorspaceMode, .inr (.inr ⟨rfl, hm, hc', hs⟩), by rw [if_neg (not_not.2 hm), if_neg hc, if_pos hs]⟩
      · have hs' : colorspace = 0 ∨ colorspace = 1 := by
          by_contra h
          exact hs ⟨fun e => h (.inl e), fun e => h (.inr e)⟩
        refine .inr ⟨hm, hc', hs', ?_⟩
        by_cases hx : P.maxPixels < width.toNat * height.toNat
        · exact .inl ⟨hx, by rw [if_neg (not_not.2 hm), if_neg hc, if_neg hs, if_pos hx]⟩
        · exact .inr ⟨by omega, by rw [if_neg (not_not.2 hm), if_neg hc, if_neg hs, if_neg hx]⟩
  · exact .inl ⟨.headerMagicMismatch, .inl ⟨rfl, hm⟩, by rw [if_pos hm]⟩

/-- Every image has fewer than 2^64 Pixels (10_state.md R21). -/
theorem dimensions_lt (w h : BitVec 32) : w.toNat * h.toNat < 2 ^ 64 := by
  have := Nat.mul_le_mul (Nat.le_sub_one_of_lt w.isLt) (Nat.le_sub_one_of_lt h.isLt)
  omega

/-- The product of the dimensions fits `npix` (10_state.md R21). -/
theorem npix_toNat (w h : BitVec 32) : (BitVec.ofNat 64 (w.toNat * h.toNat)).toNat = w.toNat * h.toNat := by
  rw [BitVec.toNat_ofNat, Nat.mod_eq_of_lt (dimensions_lt w h)]

/-- Under the default limit no image is too large (41_header.md R119). -/
theorem dimensions_le_maxPixels (w h : BitVec 32) : w.toNat * h.toNat ≤ Config.params.maxPixels := by
  have := dimensions_lt w h
  show _ ≤ 2 ^ 64 - 1
  omega

/-- The whole of what a header byte does (41_header.md R110, R111, R115) when it answers a next state: it is stored, and if it is
the 14th one, a check fails or the header is accepted. -/
theorem headerByte_next {P : Params} {b : Byte} {s t : State} (h : headerByte P b s = .next t) :
    (s.hcnt + 1 ≠ 14 ∧ t = s.storeHeaderByte b) ∨
    (s.hcnt + 1 = 14 ∧ ∃ m ww hh c cs, headerOf (s.storeHeaderByte b).hbuf = .header m ww hh c cs ∧
      ((∃ k, (k = .headerMagicMismatch ∧ m ≠ P.magic ∨
            k = .unsupportedChannelMode ∧ m = P.magic ∧ c ≠ 3 ∧ c ≠ 4 ∨
            k = .unsupportedColorspaceMode ∧ m = P.magic ∧ (c = 3 ∨ c = 4) ∧ cs ≠ 0 ∧ cs ≠ 1) ∧
          t = raise k (s.storeHeaderByte b)) ∨
        (m = P.magic ∧ (c = 3 ∨ c = 4) ∧ (cs = 0 ∨ cs = 1) ∧ ww.toNat * hh.toNat ≤ P.maxPixels ∧
          t = (s.storeHeaderByte b).acceptHeader ww hh c cs))) := by
  by_cases hc : s.hcnt + 1 = 14
  · refine .inr ⟨hc, be32 (s.storeHeaderByte b).hbuf[0] (s.storeHeaderByte b).hbuf[1] (s.storeHeaderByte b).hbuf[2]
      (s.storeHeaderByte b).hbuf[3], be32 (s.storeHeaderByte b).hbuf[4] (s.storeHeaderByte b).hbuf[5]
      (s.storeHeaderByte b).hbuf[6] (s.storeHeaderByte b).hbuf[7], be32 (s.storeHeaderByte b).hbuf[8]
      (s.storeHeaderByte b).hbuf[9] (s.storeHeaderByte b).hbuf[10] (s.storeHeaderByte b).hbuf[11],
      (s.storeHeaderByte b).hbuf[12], (s.storeHeaderByte b).hbuf[13], rfl, ?_⟩
    have stands : ∀ v, v = (s.storeHeaderByte b).hbuf → (s.storeHeaderByte b).withHeaderBytes v = s.storeHeaderByte b := by
      rintro v rfl
      unfold State.withHeaderBytes
      rw [← hc]
      rfl
    have e : headerByte P b s = execWith P (headerOf (s.storeHeaderByte b).hbuf) (s.storeHeaderByte b) := if_pos hc
    have e' := e.symm.trans h
    rcases execHeaderWith_cases P _ _ _ _ _ (s.storeHeaderByte b) with ⟨k, hk, x⟩ | ⟨hm, h1, h2, ⟨hl, x⟩ | ⟨hl, x⟩⟩
    · refine .inl ⟨k, hk, ?_⟩
      have := x.symm.trans e'
      rw [stands _ (headerBytes_of_headerOf rfl)] at this
      cases this; rfl
    · cases x.symm.trans e'
    · refine .inr ⟨hm, h1, h2, hl, ?_⟩
      have := x.symm.trans e'
      rw [stands _ (headerBytes_of_headerOf rfl)] at this
      cases this; rfl
  · refine .inl ⟨hc, ?_⟩
    have e : headerByte P b s = .next (s.storeHeaderByte b) := if_neg hc
    cases e.symm.trans h; rfl

/-- The whole of what End does (40_stream_sequencer.md R96, R97). -/
theorem endEvent_cases (s : State) :
    (endEvent s = raise .prematureEndOfStream s ∧ (s.phase = .header ∨ s.phase = .ops ∨ s.phase = .trailer ∧ s.tcnt ≠ 8)) ∨
    (endEvent s = s.complete ∧ s.phase = .trailer ∧ s.tcnt = 8) ∨
    (endEvent s = s ∧ (s.phase = .done ∨ s.phase = .failed)) := by
  unfold endEvent
  split
  case h_1 h => exact .inl ⟨rfl, .inl h⟩
  case h_2 h => exact .inl ⟨rfl, .inr (.inl h)⟩
  case h_3 h =>
    split
    · exact .inr (.inl ⟨rfl, h, ‹_›⟩)
    · exact .inl ⟨rfl, .inr (.inr ⟨h, ‹_›⟩)⟩
  case h_4 h => exact .inr (.inr ⟨rfl, .inl h⟩)
  case h_5 h => exact .inr (.inr ⟨rfl, .inr h⟩)

theorem instrOf_space {k : Op} {v : Vector Byte 5} {i : Instr} (h : instrOf k v = some i) : i.space = .ops := by
  cases k <;> simp only [instrOf, Option.some.injEq, reduceCtorEq] at h <;> subst h <;> rfl

/-- A tag byte of an opcode that is not complete in it. -/
theorem kindOf_waits : ∀ b : Byte, opLength (kindOf b) ≠ 1 → kindOf b = .rgb ∨ kindOf b = .rgba ∨ kindOf b = .luma := by
  decide

/-- What a byte in phase OPS can do: it is stored and the opcode waits for more, or it completes an opcode, which runs. -/
theorem opcodeByte_next {P : Params} {b : Byte} {s t : State} (h : opcodeByte P b s = .next t) :
    (t = s.storeTag b ∧ s.op = .none ∧ (kindOf b = .rgb ∨ kindOf b = .rgba ∨ kindOf b = .luma)) ∨
    (t = s.storeData b ∧ (s.op = .rgb ∧ s.cnt.toNat ≠ 3 ∨ s.op = .rgba ∧ s.cnt.toNat ≠ 4 ∨ s.op = .luma ∧ s.cnt.toNat ≠ 1)) ∨
    (∃ i u, (u = s.storeTag b ∨ u = s.storeData b) ∧ instrOf u.op u.scratch = some i ∧ i.space = .ops ∧ execWith P i u = .next t) := by
  have run : ∀ u, (u = s.storeTag b ∨ u = s.storeData b) → runAssembled P u = .next t →
      ∃ i u, (u = s.storeTag b ∨ u = s.storeData b) ∧ instrOf u.op u.scratch = some i ∧ i.space = .ops ∧ execWith P i u = .next t := by
    intro u hu hr
    unfold runAssembled at hr
    split at hr
    case h_1 i hi => exact ⟨i, u, hu, hi, instrOf_space hi, hr⟩
    case h_2 => cases hr
  unfold opcodeByte at h
  split at h
  case h_1 hop =>
    split at h
    · exact .inr (.inr (run _ (.inl rfl) h))
    · exact .inl ⟨by cases h; rfl, hop, kindOf_waits b ‹_›⟩
  case h_2 hop =>
    split at h
    · exact .inr (.inr (run _ (.inr rfl) h))
    · exact .inr (.inl ⟨by cases h; rfl, .inl ⟨hop, by omega⟩⟩)
  case h_3 hop =>
    split at h
    · exact .inr (.inr (run _ (.inr rfl) h))
    · exact .inr (.inl ⟨by cases h; rfl, .inr (.inl ⟨hop, by omega⟩)⟩)
  case h_4 hop =>
    split at h
    · exact .inr (.inr (run _ (.inr rfl) h))
    · exact .inr (.inl ⟨by cases h; rfl, .inr (.inr ⟨hop, by omega⟩)⟩)
  all_goals cases h

/-- What a trailer byte can do (44_trailer.md R160). -/
theorem trailerByte_cases (P : Params) (b : Byte) (s : State) :
    (trailerByte P b s = .next (raise .trailerMismatch s) ∧ (8 ≤ s.tcnt.toNat ∨ b ≠ trailerExpected s.tcnt.toNat)) ∨
    (trailerByte P b s = .next s.verifyTrailer ∧ s.tcnt.toNat = 7 ∧ b = trailerExpected s.tcnt.toNat) ∨
    (trailerByte P b s = .next s.bumpTrailer ∧ s.tcnt.toNat < 7 ∧ b = trailerExpected s.tcnt.toNat) := by
  unfold trailerByte
  by_cases h8 : 8 ≤ s.tcnt.toNat
  · exact .inl ⟨by simp [h8], .inl h8⟩
  · by_cases hb : b = trailerExpected s.tcnt.toNat
    · by_cases h7 : s.tcnt.toNat = 7
      · refine .inr (.inl ⟨?_, h7, hb⟩)
        simp [hb, h7, execWith, execTrailer]
      · refine .inr (.inr ⟨?_, by omega, hb⟩)
        simp [h8, hb, h7]
    · exact .inl ⟨by simp [h8, hb], .inr hb⟩

/-- Everything one step that answers a next state can have done, under any parameters. -/
theorem stepWith_cases {P : Params} {s t : State} (h : stepWith P s = .next t) :
    (s.input = [] ∧ t = s) ∨
    (∃ es, s.input = .endOfStream :: es ∧ t = endEvent (s.withInput es)) ∨
    (∃ b es, s.input = .byte b :: es ∧
      ((s.phase = .header ∧ headerByte P b (s.withInput es) = .next t) ∨
       (s.phase = .ops ∧ opcodeByte P b (s.withInput es) = .next t) ∨
       (s.phase = .trailer ∧ trailerByte P b (s.withInput es) = .next t) ∨
       ((s.phase = .done ∨ s.phase = .failed) ∧ t = s.withInput es))) := by
  unfold stepWith at h
  split at h
  case h_1 hi => exact .inl ⟨hi, by cases h; rfl⟩
  case h_2 e es hi =>
    cases e with
    | endOfStream => exact .inr (.inl ⟨es, hi, by cases h; rfl⟩)
    | byte b =>
      refine .inr (.inr ⟨b, es, hi, ?_⟩)
      simp only [accept, byteEvent, State.withInput_phase] at h
      split at h
      case h_1 hp => exact .inl ⟨hp, h⟩
      case h_2 hp => exact .inr (.inl ⟨hp, h⟩)
      case h_3 hp => exact .inr (.inr (.inl ⟨hp, h⟩))
      case h_4 hp => exact .inr (.inr (.inr ⟨.inl hp, by cases h; rfl⟩))
      case h_5 hp => exact .inr (.inr (.inr ⟨.inr hp, by cases h; rfl⟩))

/-- Everything one step under the default parameters can have done. -/
theorem step_cases {s t : State} (h : step s = .next t) :
    (s.input = [] ∧ t = s) ∨
    (∃ es, s.input = .endOfStream :: es ∧ t = endEvent (s.withInput es)) ∨
    (∃ b es, s.input = .byte b :: es ∧
      ((s.phase = .header ∧ headerByte Config.params b (s.withInput es) = .next t) ∨
       (s.phase = .ops ∧ opcodeByte Config.params b (s.withInput es) = .next t) ∨
       (s.phase = .trailer ∧ trailerByte Config.params b (s.withInput es) = .next t) ∨
       ((s.phase = .done ∨ s.phase = .failed) ∧ t = s.withInput es))) :=
  stepWith_cases h

/-! ## Runs -/

@[simp] theorem runStepsWith_zero (P : Params) (s : State) : runStepsWith P 0 s = .next s := rfl

theorem runStepsWith_succ {P : Params} {s t : State} (h : stepWith P s = .next t) (n : Nat) :
    runStepsWith P (n + 1) s = runStepsWith P n t := by
  simp only [runStepsWith, h, thenDo_next]

/-- A run of `m + n` steps is a run of `m` and then one of `n`. -/
theorem runStepsWith_add (P : Params) (m n : Nat) (s : State) :
    runStepsWith P (m + n) s = thenDo (runStepsWith P m s) (runStepsWith P n) := by
  induction m generalizing s with
  | zero => simp
  | succ m ih =>
    rw [Nat.add_right_comm]
    simp only [runStepsWith]
    cases stepWith P s with
    | next t => exact ih t
    | fault r => rfl
    | refused r => rfl

theorem coreRun_next (M : Host.Core) (n : Nat) (s t : M.State) (h : M.step s = .next t) : M.run (n + 1) s = M.run n t := by
  simp only [Host.Core.run, h]

theorem coreRun_fault (M : Host.Core) (n : Nat) (s : M.State) (r : M.Fault) (h : M.step s = .fault r) :
    M.run (n + 1) s = .fault r := by
  simp only [Host.Core.run, h]

theorem coreRun_refused (M : Host.Core) (n : Nat) (s : M.State) (r : M.Refusal) (h : M.step s = .refused r) :
    M.run (n + 1) s = .refused r := by
  simp only [Host.Core.run, h]

/-- `runSteps` is the host's run of this machine. -/
theorem runSteps_eq_run (n : Nat) (s : State) : runSteps n s = Host.Core.run core n s := by
  induction n generalizing s with
  | zero => rfl
  | succ n ih =>
    cases h : stepWith Config.params s with
    | next t => exact (runStepsWith_succ h n).trans ((ih t).trans (coreRun_next core n s t h).symm)
    | fault r =>
      have e : runSteps (n + 1) s = .fault r := by simp only [runStepsWith, h, thenDo]
      exact e.trans (coreRun_fault core n s r h).symm
    | refused r =>
      have e : runSteps (n + 1) s = .refused r := by simp only [runStepsWith, h, thenDo]
      exact e.trans (coreRun_refused core n s r h).symm

end Sys2Proof.Machine
end

