-- ==== Sys2Proof/Laws/Input.lean ====
section
/-! SUPPORT. What the meanings do not look at: no meaning reads or writes the events still to come, and an opcode's meaning is the same whatever
stands in the assembly registers. -/

namespace Sys2Proof.Machine

theorem emittedRun_withInput (p : Pixel) (k : Nat) (s : State) (es : List InputEvent) : (State.withInput es s).emittedRun p k = State.withInput es (s.emittedRun p k) := by
  induction k generalizing s with
  | zero => rfl
  | succ k ih => exact ih (s.emitted p)

/-- The Pixel of an opcode is read from `px` and the cache alone. -/
theorem opcodePixel_congr {P : Params} {i : Instr} {s u : State} (h1 : u.px = s.px) (h2 : u.cache = s.cache) : opcodePixel P i u = opcodePixel P i s := by
  cases i <;> simp [opcodePixel, h1, h2]

/-- A meaning commutes with a change of the events still to come. -/
theorem execWith_withInput (P : Params) (i : Instr) (s : State) (es : List InputEvent) :
    execWith P i (State.withInput es s) = thenDo (execWith P i s) fun t => .next (t.withInput es) := by
  cases i with
  | header m w h c cs =>
    have : ∀ u : State, execHeaderWith P m w h c cs u =
      if m ≠ P.magic then .next (raise .headerMagicMismatch (u.withHeaderBytes (headerBytes m w h c cs)))
      else if c ≠ 3 ∧ c ≠ 4 then .next (raise .unsupportedChannelMode (u.withHeaderBytes (headerBytes m w h c cs)))
      else if cs ≠ 0 ∧ cs ≠ 1 then .next (raise .unsupportedColorspaceMode (u.withHeaderBytes (headerBytes m w h c cs)))
      else if P.maxPixels < w.toNat * h.toNat then .refused .imageTooLarge
      else .next ((u.withHeaderBytes (headerBytes m w h c cs)).acceptHeader w h c cs) := fun u => rfl
    simp only [execWith, this]
    split
    · rfl
    · split
      · rfl
      · split
        · rfl
        · split <;> rfl
  | trailer =>
    show execTrailer _ = thenDo (execTrailer s) _
    unfold execTrailer
    by_cases h : 8 ≤ s.tcnt.toNat
    · rw [if_pos h, if_pos (show 8 ≤ (State.withInput es s).tcnt.toNat from h)]; rfl
    · rw [if_neg h, if_neg (show ¬ 8 ≤ (State.withInput es s).tcnt.toNat from h)]; rfl
  | run f =>
    show execRunWith P f _ = thenDo (execRunWith P f s) _
    rcases execRunWith_cases P f s with ⟨h, e⟩ | ⟨h, e⟩ <;>
      rcases execRunWith_cases P f (State.withInput es s) with ⟨h', e'⟩ | ⟨h', e'⟩
    · rw [e, e']; rfl
    · exact absurd h h'
    · exact absurd h' h
    · rw [e, e']
      show Host.Outcome.next ((State.withInput es s).emittedRun s.px (min (runLength f) s.room)).finish = _
      rw [emittedRun_withInput]; rfl
  | _ =>
    all_goals
      by_cases h : s.wptr < s.npix
      · rw [execWith_opcode P _ s rfl (by rintro ⟨_, _, e, _⟩; cases e) h,
          execWith_opcode P _ (State.withInput es s) rfl (by rintro ⟨_, _, e, _⟩; cases e) h, emittedRun_withInput]
        rfl
      · simp only [execWith, execRgb, execRgba, execIndex, execDiffWith, execLuma, emitOne, emit_of_full _ s h,
          emit_of_full _ (State.withInput es s) h, thenDo]

/-- The acceptance of one event commutes with a change of the events still to come. -/
theorem accept_withInput (P : Params) (e : InputEvent) (s : State) (es : List InputEvent) :
    accept P e (State.withInput es s) = thenDo (accept P e s) fun t => .next (t.withInput es) := by
  cases e with
  | endOfStream =>
    show Host.Outcome.next (endEvent (State.withInput es s)) = .next _
    congr 1
    unfold endEvent
    show (match s.phase with | .header => _ | .ops => _ | .trailer => _ | .done => _ | .failed => _) = State.withInput es (match s.phase with | .header => _ | .ops => _ | .trailer => _ | .done => _ | .failed => _)
    cases s.phase
    · rfl
    · rfl
    · by_cases h : s.tcnt = 8
      · show (if s.tcnt = 8 then _ else _) = State.withInput es (if s.tcnt = 8 then _ else _)
        rw [if_pos h, if_pos h]; rfl
      · show (if s.tcnt = 8 then _ else _) = State.withInput es (if s.tcnt = 8 then _ else _)
        rw [if_neg h, if_neg h]; rfl
    · rfl
    · rfl
  | byte b =>
    have hra : ∀ u, runAssembled P (State.withInput es u) = thenDo (runAssembled P u) fun t => .next (t.withInput es) := by
      intro u
      unfold runAssembled
      show (match instrOf u.op u.scratch with | some i => execWith P i (State.withInput es u) | none => _) = _
      cases instrOf u.op u.scratch with
      | none => rfl
      | some i => exact execWith_withInput P i u es
    cases hp : s.phase with
    | header =>
      have e1 : ∀ u : State, u.phase = .header → accept P (.byte b) u = headerByte P b u := by intro u h; simp [accept, byteEvent, h]
      rw [e1 _ hp, e1 (State.withInput es s) hp]
      by_cases hc : s.hcnt + 1 = 14
      · have a1 : headerByte P b s = execWith P (headerOf (s.storeHeaderByte b).hbuf) (s.storeHeaderByte b) := if_pos hc
        have a2 : headerByte P b (State.withInput es s) = execWith P (headerOf (s.storeHeaderByte b).hbuf) (State.withInput es (s.storeHeaderByte b)) := if_pos hc
        rw [a1, a2]; exact execWith_withInput P _ _ _
      · have a1 : headerByte P b s = .next (s.storeHeaderByte b) := if_neg hc
        have a2 : headerByte P b (State.withInput es s) = .next (State.withInput es (s.storeHeaderByte b)) := if_neg hc
        rw [a1, a2]; rfl
    | ops =>
      have e1 : ∀ u : State, u.phase = .ops → accept P (.byte b) u = opcodeByte P b u := by intro u h; simp [accept, byteEvent, h]
      rw [e1 _ hp, e1 (State.withInput es s) hp]
      unfold opcodeByte
      show (match s.op with | .none => _ | .rgb => _ | .rgba => _ | .luma => _ | .index => _ | .diff => _ | .run => _) = _
      cases s.op
      · show (if opLength (kindOf b) = 1 then _ else _) = thenDo (if opLength (kindOf b) = 1 then _ else _) _
        split
        · exact hra (s.storeTag b)
        · rfl
      · show (if s.cnt.toNat + 1 = 4 then _ else _) = thenDo (if s.cnt.toNat + 1 = 4 then _ else _) _
        by_cases h : s.cnt.toNat + 1 = 4
        · rw [if_pos h, if_pos h]; exact hra (s.storeData b)
        · rw [if_neg h, if_neg h]; rfl
      · show (if s.cnt.toNat + 1 = 5 then _ else _) = thenDo (if s.cnt.toNat + 1 = 5 then _ else _) _
        by_cases h : s.cnt.toNat + 1 = 5
        · rw [if_pos h, if_pos h]; exact hra (s.storeData b)
        · rw [if_neg h, if_neg h]; rfl
      · rfl
      · rfl
      · show (if s.cnt.toNat + 1 = 2 then _ else _) = thenDo (if s.cnt.toNat + 1 = 2 then _ else _) _
        by_cases h : s.cnt.toNat + 1 = 2
        · rw [if_pos h, if_pos h]; exact hra (s.storeData b)
        · rw [if_neg h, if_neg h]; rfl
      · rfl
    | trailer =>
      have e1 : ∀ u : State, u.phase = .trailer → accept P (.byte b) u = trailerByte P b u := by intro u h; simp [accept, byteEvent, h]
      rw [e1 _ hp, e1 (State.withInput es s) hp]
      rcases trailerByte_cases P b s with ⟨e, h3⟩ | ⟨e, h7, h8⟩ | ⟨e, h7, h8⟩ <;> rw [e] <;> rcases trailerByte_cases P b (State.withInput es s) with ⟨e', h3'⟩ | ⟨e', h7', h8'⟩ | ⟨e', h7', h8'⟩ <;> rw [e'] <;> (try rfl) <;> (exfalso; simp only [State.withInput_tcnt] at *; first | omega | (rcases h3 with h | h <;> first | omega | exact h h8') | (rcases h3' with h | h <;> first | omega | exact h h8))
    | done => simp [accept, byteEvent, hp]
    | failed => simp [accept, byteEvent, hp]

/-- `instrOf` reads only the bytes of the opcode. -/
theorem instrOf_congr {k : Op} {v w : Vector Byte 5} (h : ∀ j (hj : j < 5), j < opLength k → v[j] = w[j]) : instrOf k v = instrOf k w := by
  cases k <;> simp only [instrOf, opLength] at h ⊢
  · rw [h 1 (by omega) (by omega), h 2 (by omega) (by omega), h 3 (by omega) (by omega)]
  · rw [h 1 (by omega) (by omega), h 2 (by omega) (by omega), h 3 (by omega) (by omega), h 4 (by omega) (by omega)]
  · rw [h 0 (by omega) (by omega)]
  · rw [h 0 (by omega) (by omega)]
  · rw [h 0 (by omega) (by omega), h 1 (by omega) (by omega)]
  · rw [h 0 (by omega) (by omega)]

theorem runAssembled_of {P : Params} {u : State} {i : Instr} (h : instrOf u.op u.scratch = some i) :
    runAssembled P u = execWith P i u := by
  unfold runAssembled; rw [h]

/-- Finish forgets the assembly registers. -/
theorem emittedRun_finish_assembling (p : Pixel) (k : Nat) (s : State) (o : Op) (sc : Vector Byte 5) (n : BitVec 3) :
    (State.emittedRun p k { s with op := o, scratch := sc, cnt := n }).finish = (State.emittedRun p k s).finish := by
  induction k generalizing s with
  | zero => rfl
  | succ k ih => exact ih (s.emitted p)

/-- An opcode's meaning is the same whatever `op`, `scratch` and `cnt` hold: it ends in Finish. -/
theorem execWith_assembling (P : Params) {i : Instr} (hi : i.space = .ops) (s : State) (o : Op) (sc : Vector Byte 5) (n : BitVec 3) :
    execWith P i { s with op := o, scratch := sc, cnt := n } = execWith P i s := by
  cases i with
  | header => cases hi
  | trailer => cases hi
  | run f =>
    show execRunWith P f _ = execRunWith P f s
    rcases execRunWith_cases P f s with ⟨h, e⟩ | ⟨h, e⟩ <;>
      rcases execRunWith_cases P f { s with op := o, scratch := sc, cnt := n } with ⟨h', e'⟩ | ⟨h', e'⟩
    · rw [e, e']
    · exact absurd h h'
    · exact absurd h' h
    · rw [e, e']
      exact congrArg _ (emittedRun_finish_assembling _ _ s o sc n)
  | _ =>
    all_goals
      by_cases h : s.wptr < s.npix
      · rw [execWith_opcode P _ s rfl (by rintro ⟨_, _, e, _⟩; cases e) h,
          execWith_opcode P _ { s with op := o, scratch := sc, cnt := n } rfl (by rintro ⟨_, _, e, _⟩; cases e) h]
        exact congrArg _ (emittedRun_finish_assembling _ _ s o sc n)
      · simp only [execWith, execRgb, execRgba, execIndex, execDiffWith, execLuma, emitOne, emit_of_full _ s h,
          emit_of_full _ { s with op := o, scratch := sc, cnt := n } h, thenDo]

/-- A step is the acceptance of the next event. -/
theorem stepWith_cons (P : Params) (e : InputEvent) (es : List InputEvent) (s : State) :
    stepWith P (s.withInput (e :: es)) = accept P e (s.withInput es) := rfl

end Sys2Proof.Machine
end

