-- ==== Sys2Proof/Laws/PerInstr.lean ====
section
/-! SUPPORT. The per-instruction family Length: the encoding of each instruction has the length the spec gives it (30_encoding.md R63, R61, R73), and
for the opcodes that length is told by the tag byte alone. -/

namespace Sys2Proof.Laws.Length

/-- An instruction's encoding has its length, and an opcode's tag alone tells that length. -/
def Statement (i : Instr) : Prop :=
  (encode i).length = i.length ∧
    (i.space = .ops → i.wellFormed = true → opLength (kindOf ((encode i).headD 0)) = i.length)

theorem rgb (r g b : Byte) : Statement (.rgb r g b) := ⟨rfl, fun _ _ => (by decide : opLength (kindOf 0xFE) = 4)⟩

theorem rgba (r g b a : Byte) : Statement (.rgba r g b a) := ⟨rfl, fun _ _ => (by decide : opLength (kindOf 0xFF) = 5)⟩

theorem index (idx : BitVec 6) : Statement (.index idx) := ⟨rfl, fun _ _ => by revert idx; decide⟩

theorem diff (fr fg fb : BitVec 2) : Statement (.diff fr fg fb) := ⟨rfl, fun _ _ => by revert fr fg fb; decide⟩

theorem luma (fg : BitVec 6) (frg fbg : BitVec 4) : Statement (.luma fg frg fbg) :=
  ⟨rfl, fun _ _ => (by decide : ∀ f : BitVec 6, opLength (kindOf ((0b10 : BitVec 2) ++ f)) = 2) fg⟩

theorem run (frun : BitVec 6) : Statement (.run frun) := ⟨rfl, fun _ => by revert frun; decide⟩

theorem header (magic width height : BitVec 32) (channels colorspace : Byte) :
    Statement (.header magic width height channels colorspace) := ⟨rfl, fun h => by cases h⟩

theorem trailer : Statement .trailer := ⟨rfl, fun h => by cases h⟩

end Sys2Proof.Laws.Length
end

