-- ==== Sys2Proof/Tests/Slice0.lean ====
section
/-! SUPPORT. The model's own tests: expected values are those of 95_test_vectors.md (each named in its comment) or hand calculations from the rule
named. Then, for every obligation with hypotheses, a state and operands that meet them. -/

namespace Sys2Proof.Tests

open Sys2Proof.Machine

/-! ## Small states -/

/-- A session after HEADER 64, 1, 4, 0 with the previous Pixel `p` (setting of 95_test_vectors.md 2.2, Pixel 0 left out). -/
def opsState (p : Pixel) (es : List InputEvent) : State :=
  { State.reset with
    phase := .ops, px := p, hcnt := 14, width := 64, height := 1, channels := 4, hdrValid := true, npix := 64
    outputs := [.headerParsed 64 1 4 0], input := es }

/-- The same with an opcode in progress. -/
def partialState (k : Op) (v : Vector Byte 5) (n : BitVec 3) (es : List InputEvent) : State :=
  { opsState .seed es with op := k, scratch := v, cnt := n }

/-- A session after HEADER 3, 1, 4, 0 in which `n` Pixels are written, as far as the opcodes read it. -/
def nearEnd (n : BitVec 64) (es : List InputEvent) : State :=
  { opsState ⟨7, 7, 7, 7⟩ es with width := 3, npix := 3, wptr := n }

/-- A session at the trailer's byte `k`, one Pixel (1,2,3,255) decoded (the base stream of 95_test_vectors.md 2.9). -/
def trailerState (k : BitVec 4) (es : List InputEvent) : State :=
  { State.reset with
    phase := .trailer, px := ⟨1, 2, 3, 255⟩, cache := cacheStore State.reset.cache ⟨1, 2, 3, 255⟩, hcnt := 14, width := 1
    height := 1, channels := 4, hdrValid := true, npix := 1, wptr := 1, tcnt := k, pb := [(0, 1), (1, 2), (2, 3), (3, 255)]
    outputs := [.headerParsed 1 1 4 0, .pixelEmitted 0 ⟨1, 2, 3, 255⟩], input := es }

/-- That session after Completed. -/
def doneState (es : List InputEvent) : State :=
  { trailerState 8 es with
    phase := .done
    outputs := [.headerParsed 1 1 4 0, .pixelEmitted 0 ⟨1, 2, 3, 255⟩, .trailerVerified, .completed] }

/-- That session after a trailer mismatch at its first byte. -/
def failedState (es : List InputEvent) : State := raise .trailerMismatch (trailerState 0 es)

/-- A fresh session with all but the last byte of a HEADER record received. -/
def headerState (m : BitVec 32) (c : Byte) (es : List InputEvent) : State :=
  { State.reset with hbuf := headerBytes m 1 1 c 0, hcnt := 13, input := es }

/-- Parameters that all differ from the defaults. -/
def otherParams : Params :=
  { magic := 0x01020304, maxPixels := 3, errCode := fun _ => 7, pbBase := 0x1000, runOverrun := .refuse, diffCoding := .twosComplement }

/-- A field of the next state. -/
def after {α : Type} (o : Host.Outcome State Fault Refusal) (f : State → α) : Option α :=
  match o with
  | .next t => some (f t)
  | .fault _ => none
  | .refused _ => none

/-- A decoded instruction. -/
def decoded (sp : RecordSpace) (bs : List Byte) : Option Instr :=
  match decode sp bs with
  | .ok (i, []) => some i
  | .ok (_, _ :: _) => none
  | .error _ => none

/-! ## Well-formedness -/

/-- 30_encoding.md R74: field values 62 and 63 are no RUN. -/
theorem test_wellFormed_run : Instr.wellFormed (.run 61) = true ∧ Instr.wellFormed (.run 62) = false ∧
    Instr.wellFormed (.run 63) = false := by decide

/-! ## Decoding, from the words of the spec -/

/-- 30_encoding.md R65, R66. -/
theorem test_decode_literal : decoded .ops [0b11111110, 0x0A, 0x14, 0x1E] = some (.rgb 10 20 30) ∧
    decoded .ops [0b11111111, 0x0A, 0x14, 0x1E, 0xFF] = some (.rgba 10 20 30 255) := by decide

/-- 30_encoding.md R67: both ends of the range. -/
theorem test_decode_index : decoded .ops [0b00000000] = some (.index 0) ∧ decoded .ops [0b00111111] = some (.index 63) := by decide

/-- 95_test_vectors.md D4: fields 0, 3, 1. -/
theorem test_decode_diff : decoded .ops [0b01001101] = some (.diff 0 3 1) := by decide

/-- 95_test_vectors.md L1: fields 37, 6, 11. -/
theorem test_decode_luma : decoded .ops [0b10100101, 0b01101011] = some (.luma 37 6 11) := by decide

/-- 30_encoding.md R70, R74: 0xC0 and 0xFD are the first and the last RUN. -/
theorem test_decode_run : decoded .ops [0b11000000] = some (.run 0) ∧ decoded .ops [0b11111101] = some (.run 61) := by decide

/-- 95_test_vectors.md H2: width and height are big-endian. -/
theorem test_decode_header : decoded .header [0x71, 0x6F, 0x69, 0x66, 1, 2, 3, 4, 0x0A, 0x0B, 0x0C, 0x0D, 3, 1] =
    some (.header 0x716F6966 16909060 168496141 3 1) := by decide

/-- 30_encoding.md R73. -/
theorem test_decode_trailer : decoded .trailer [0, 0, 0, 0, 0, 0, 0, 1] = some .trailer ∧
    decoded .trailer [0, 0, 0, 0, 0, 0, 1, 1] = none := by decide

/-- An opcode with bytes missing is no opcode yet (42_opcodes.md R126). -/
theorem test_decode_truncated : decode .ops [0xFE, 1, 2] = .error .truncated := by rfl

/-- Table words: bit 0 is the least significant bit of the first byte. -/
theorem test_tableWord : decodeTableWord 32 0x1E140AFE = some (.rgb 10 20 30) ∧ decodeTableWord 40 0xFF1E140AFF = some (.rgba 10 20 30 255) ∧
    decodeTableWord 16 0x6BA5 = some (.luma 37 6 11) ∧ decodeTableWord 64 0x0100000000000000 = some .trailer ∧
    decodeTableWord 112 0x0003000000010000000166696F71 = some (.header 0x716F6966 0x01000000 0x01000000 3 0) := by decide

/-! ## One step of each instruction -/

/-- 95_test_vectors.md G1. -/
theorem test_rgb : after (exec (.rgb 10 20 30) (opsState ⟨1, 2, 3, 77⟩ [])) (fun t => (t.px, t.wptr, cacheLookup t.cache 35)) =
    some (⟨10, 20, 30, 77⟩, 1, ⟨10, 20, 30, 77⟩) := by decide

/-- 95_test_vectors.md A2: data bytes that look like tags are data; slot 51. -/
theorem test_rgba : after (exec (.rgba 0xFF 0xFE 0 0x80) (opsState ⟨1, 2, 3, 77⟩ [])) (fun t => (t.px, cacheLookup t.cache 51)) =
    some (⟨255, 254, 0, 128⟩, ⟨255, 254, 0, 128⟩) := by decide

/-- 95_test_vectors.md I7: INDEX 5 of a fresh cache takes alpha 0 from the slot and displaces what slot 0 held. -/
theorem test_index : after (exec (.index 5) { opsState .seed [] with cache := cacheStore State.reset.cache ⟨64, 0, 0, 0⟩ })
    (fun t => (t.px, cacheLookup t.cache 0)) = some (⟨0, 0, 0, 0⟩, ⟨0, 0, 0, 0⟩) := by decide

/-- 95_test_vectors.md D4: wrapping on each lane, alpha kept. -/
theorem test_diff : after (exec (.diff 0 3 1) (opsState ⟨0, 255, 10, 255⟩ [])) (fun t => (t.px, cacheLookup t.cache 46)) =
    some (⟨254, 0, 9, 255⟩, ⟨254, 0, 9, 255⟩) := by decide

/-- 95_test_vectors.md L2. -/
theorem test_luma_low : after (exec (.luma 0 0 0) (opsState ⟨10, 20, 30, 255⟩ [])) (·.px) = some ⟨226, 244, 246, 255⟩ := by decide

/-- 95_test_vectors.md L3. -/
theorem test_luma_high : after (exec (.luma 63 15 15) (opsState ⟨250, 250, 250, 9⟩ [])) (·.px) = some ⟨32, 25, 32, 9⟩ := by decide

/-- 95_test_vectors.md N3: 62 Pixels in one step. -/
theorem test_run : after (exec (.run 61) (opsState ⟨7, 7, 7, 7⟩ [])) (fun t => (t.wptr, t.px, t.phase, cacheLookup t.cache 54)) =
    some (62, ⟨7, 7, 7, 7⟩, .ops, ⟨7, 7, 7, 7⟩) := by decide

/-- The example of 42_opcodes.md R134: npix 3, wptr 1, byte C4: two Pixels, and the trailer is next. -/
theorem test_run_clamped : after (step (nearEnd 1 [.byte 0xC4])) (fun t => (t.wptr, t.phase, t.err)) = some (3, .trailer, none) := by
  decide

/-- 95_test_vectors.md H3: the product does not wrap. -/
theorem test_header : after (exec (.header 0x716F6966 0xFFFFFFFF 0xFFFFFFFF 4 1) State.reset) (fun t => (t.npix, t.phase, t.px)) =
    some (18446744065119617025, .ops, ⟨0, 0, 0, 255⟩) := by decide

/-- 95_test_vectors.md H16: no Pixel at all, so the trailer is next. -/
theorem test_header_empty : after (exec (.header 0x716F6966 0 5 4 0) State.reset) (fun t => (t.npix, t.phase)) =
    some (0, .trailer) := by decide

/-- 95_test_vectors.md H5, H10: the 14th byte of a bad header; magic first, then channels. -/
theorem test_header_bad : after (step (headerState 0x716F6967 4 [.byte 0])) (·.err) = some (some .headerMagicMismatch) ∧
    after (step (headerState 0x716F6966 7 [.byte 9])) (·.err) = some (some .unsupportedChannelMode) := by decide

/-- 95_test_vectors.md T2: the 8th byte verifies the trailer, and the session is still in TRAILER. -/
theorem test_trailer : after (step (trailerState 7 [.byte 1])) (fun t => (t.phase, t.tcnt, t.trailerOk)) = some (.trailer, 8, true) := by
  decide

/-- 95_test_vectors.md T6 and T9: a wrong 8th byte; a 9th byte. -/
theorem test_trailer_bad : after (step (trailerState 7 [.byte 0])) (fun t => (t.err, t.tcnt)) = some (some .trailerMismatch, 7) ∧
    after (step (trailerState 8 [.byte 0])) (fun t => (t.err, t.tcnt)) = some (some .trailerMismatch, 8) := by decide

/-- 95_test_vectors.md T1, T11. -/
theorem test_end : after (step (trailerState 8 [.endOfStream])) (·.phase) = some .done ∧
    after (step (trailerState 7 [.endOfStream])) (·.err) = some (some .prematureEndOfStream) := by decide

/-- 95_test_vectors.md G4, L7: a tag byte of a longer opcode is stored and emits nothing. -/
theorem test_partial : after (step (opsState .seed [.byte 0xFE])) (fun t => (t.op, t.cnt, t.wptr)) = some (.rgb, 1, 0) ∧
    after (step (opsState .seed [.byte 0xA5])) (fun t => (t.op, t.cnt, t.scratch)) = some (.luma, 1, #v[0xA5, 0, 0, 0, 0]) := by decide

/-- 95_test_vectors.md 2.8: the hash. -/
theorem test_hash : hashSlot ⟨255, 255, 255, 255⟩ = 38 ∧ hashSlot ⟨200, 100, 50, 128⟩ = 42 ∧ hashSlot ⟨0, 0, 0, 255⟩ = 53 ∧
    hashSlot ⟨5, 5, 5, 255⟩ = 0 := by decide

/-- 10_state.md R30: STATUS of a session that waits for its trailer: busy, hdr_valid, and phase code 2 in bits 7:5. -/
theorem test_status : statusWord false (trailerState 0 []) = 0x43 := by decide

/-- A placed table word is the next step's instruction: RGB as the first instruction after reset. -/
theorem test_withFetchWord : after (step (State.reset.withFetchWord 32 0x1E140AFE)) (·.px) = some ⟨10, 20, 30, 255⟩ ∧
    after (step (State.reset.withFetchWord 64 0x0100000000000000)) (·.outputs) = some [.trailerVerified] := by decide

/-- 00_scope.md R5: runs under other parameters: an overlong RUN is refused; another magic is accepted, the default one not; an image above
MAX_PIXELS is refused; a DIFF field of 01 under two's complement is +1 (30_encoding.md R71). -/
theorem test_parameters : stepWith otherParams (nearEnd 1 [.byte 0xC4]) = .refused .runOverrun ∧
    after (stepWith otherParams (headerState 0x01020304 4 [.byte 0])) (·.phase) = some .ops ∧
    after (stepWith otherParams (headerState 0x716F6966 4 [.byte 0])) (·.err) = some (some .headerMagicMismatch) ∧
    execWith otherParams (.header 0x01020304 2 2 4 0) State.reset = .refused .imageTooLarge ∧
    after (stepWith otherParams (opsState ⟨9, 9, 9, 9⟩ [.byte 0b01010101])) (·.px) = some ⟨10, 10, 10, 9⟩ :=
  ⟨rfl, by decide, by decide, rfl, by decide⟩

/-! ## The invariant of the small states -/

theorem cache_reset_sound : CacheSound State.reset.cache := by unfold CacheSound; decide

theorem cache_base_sound : CacheSound (cacheStore State.reset.cache ⟨1, 2, 3, 255⟩) := by unfold CacheSound; decide

theorem base_last_pixel : Memory.readPixel [(0, 1), (1, 2), (2, 3), (3, 255)] ((1 : BitVec 64).toNat - 1) = some ⟨1, 2, 3, 255⟩ ∧
    cacheLookup (cacheStore State.reset.cache ⟨1, 2, 3, 255⟩) (hashSlot ⟨1, 2, 3, 255⟩) = ⟨1, 2, 3, 255⟩ := by decide

theorem scratch_reset_clear : ∀ k : Fin 5, (#v[0, 0, 0, 0, 0] : Vector Byte 5)[k.val] = 0 := by decide

theorem nothing_written : ∀ a, (Memory.read [] a).isSome = true ↔ a < 4 * (0 : BitVec 64).toNat := by
  intro a; simp [Memory.read]

theorem one_pixel_written : ∀ a, (Memory.read [(0, 1), (1, 2), (2, 3), (3, 255)] a).isSome = true ↔ a < 4 * (1 : BitVec 64).toNat := by
  intro a
  rcases a with _ | _ | _ | _ | a <;> simp [Memory.read]

theorem inv_header (m : BitVec 32) (c : Byte) (es : List InputEvent) : SessionInv (headerState m c es) := by
  constructor <;> first
    | exact cache_reset_sound
    | exact nothing_written
    | (intros; first | exact scratch_reset_clear _ | decide | contradiction | simp_all [headerState, State.reset])

theorem inv_ops (es : List InputEvent) : SessionInv (opsState .seed es) := by
  constructor <;> first
    | exact cache_reset_sound
    | exact nothing_written
    | (intros; first | exact scratch_reset_clear _ | decide | contradiction | simp_all [opsState, State.reset])

theorem inv_trailer (k : BitVec 4) (hk : k.toNat ≤ 8) (es : List InputEvent) : SessionInv (trailerState k es) := by
  constructor <;> first
    | exact cache_base_sound
    | exact one_pixel_written
    | exact hk
    | (intros; first
        | exact scratch_reset_clear _ | exact base_last_pixel | decide | contradiction | simp_all [trailerState, State.reset])

theorem inv_done (es : List InputEvent) : SessionInv (doneState es) := by
  constructor <;> first
    | exact cache_base_sound
    | exact one_pixel_written
    | (intros; first
        | exact scratch_reset_clear _
        | exact base_last_pixel
        | decide
        | contradiction
        | simp_all [doneState, trailerState, State.reset])

theorem partial_scratch_clear :
    (∀ k : Fin 5, (3 : BitVec 3).toNat ≤ k.val → (#v[0xFE, 1, 2, 0, 0] : Vector Byte 5)[k.val] = 0) ∧
    (∀ k : Fin 5, (4 : BitVec 3).toNat ≤ k.val → (#v[0xFF, 1, 2, 3, 0] : Vector Byte 5)[k.val] = 0) ∧
    (∀ k : Fin 5, (1 : BitVec 3).toNat ≤ k.val → (#v[0xA5, 0, 0, 0, 0] : Vector Byte 5)[k.val] = 0) := by decide

/-- RGB, RGBA and LUMA each with one byte to come. -/
theorem inv_partial (es : List InputEvent) : SessionInv (partialState .rgb #v[0xFE, 1, 2, 0, 0] 3 es) ∧
    SessionInv (partialState .rgba #v[0xFF, 1, 2, 3, 0] 4 es) ∧ SessionInv (partialState .luma #v[0xA5, 0, 0, 0, 0] 1 es) := by
  refine ⟨?_, ?_, ?_⟩ <;> constructor <;> first
    | exact cache_reset_sound
    | exact nothing_written
    | (intros; first
        | exact partial_scratch_clear.1 _ ‹_›
        | exact partial_scratch_clear.2.1 _ ‹_›
        | exact partial_scratch_clear.2.2 _ ‹_›
        | decide
        | contradiction
        | simp_all [partialState, opsState, State.reset])

/-! ## Witnesses: for each obligation with hypotheses, values that meet them all -/

theorem witness_StepKeepsInvariant : (∃ s t, SessionInv s ∧ step s = .next t) ∧
    (∃ P s t, SessionInv s ∧ stepWith P s = .next t ∧ P.runOverrun = .refuse ∧ P.diffCoding = .twosComplement) :=
  ⟨⟨opsState .seed [.byte 0x05], _, inv_ops _, rfl⟩,
    ⟨otherParams, opsState .seed [.byte 0x4D], _, inv_ops _, rfl, rfl, rfl⟩⟩

theorem witness_InvariantStatesAlwaysStep : SessionInv (opsState .seed [.byte 0x05]) ∧ SessionInv (doneState [.byte 0]) ∧
    SessionInv (headerState 0 0 [.byte 9]) := ⟨inv_ops _, inv_done _, inv_header _ _ _⟩

theorem witness_OutputTraceStaysInStreamOrder : ∃ s t, SessionInv s ∧ s.outputs = traceOf s ∧ step s = .next t :=
  ⟨trailerState 7 [.byte 1], _, inv_trailer _ (by decide) _, by decide, rfl⟩

theorem witness_DecodeOfEncodeIsIdentity : Instr.wellFormed (.run 61) = true ∧ Instr.wellFormed (.run 0) = true := by decide

theorem witness_DecodedBytesAreTheEncoding :
    ∃ bs i rest, decode .ops bs = .ok (i, rest) ∧ rest ≠ [] := ⟨[0xFD, 0xFE], .run 61, [0xFE], rfl, by decide⟩

/-- TagMapIsComplete: both ends of each range. -/
theorem witness_TagMapIsComplete : (0x3F : Byte).toNat < 0x40 ∧ (0x40 ≤ (0x40 : Byte).toNat ∧ (0x7F : Byte).toNat < 0x80) ∧
    (0x80 ≤ (0x80 : Byte).toNat ∧ (0xBF : Byte).toNat < 0xC0) ∧ (0xC0 ≤ (0xC0 : Byte).toNat ∧ (0xFD : Byte).toNat < 0xFE) := by
  decide

theorem witness_StepRunsTheDecodedInstruction_header : ∃ s b es i, SessionInv s ∧ s.input = .byte b :: es ∧ s.phase = .header ∧
    decode .header (s.hbuf.toList.take s.hcnt.toNat ++ [b]) = .ok (i, []) :=
  ⟨headerState 0x716F6966 4 [.byte 0], 0, [], .header 0x716F6966 1 1 4 0, inv_header _ _ _, rfl, rfl, rfl⟩

theorem witness_StepRunsTheDecodedInstruction_tag : ∃ s b es i, SessionInv s ∧ s.input = .byte b :: es ∧ s.phase = .ops ∧
    s.op = .none ∧ decode .ops [b] = .ok (i, []) :=
  ⟨opsState .seed [.byte 0xFD], 0xFD, [], .run 61, inv_ops _, rfl, rfl, rfl, rfl⟩

theorem witness_StepRunsTheDecodedInstruction_data :
    (∃ s b es i, SessionInv s ∧ s.input = .byte b :: es ∧ s.phase = .ops ∧ s.op = .rgb ∧
      decode .ops (s.scratch.toList.take s.cnt.toNat ++ [b]) = .ok (i, [])) ∧
    (∃ s b es i, SessionInv s ∧ s.input = .byte b :: es ∧ s.phase = .ops ∧ s.op = .rgba ∧
      decode .ops (s.scratch.toList.take s.cnt.toNat ++ [b]) = .ok (i, [])) ∧
    (∃ s b es i, SessionInv s ∧ s.input = .byte b :: es ∧ s.phase = .ops ∧ s.op = .luma ∧
      decode .ops (s.scratch.toList.take s.cnt.toNat ++ [b]) = .ok (i, [])) :=
  ⟨⟨_, 9, [], .rgb 1 2 9, (inv_partial [.byte 9]).1, rfl, rfl, rfl, rfl⟩,
    ⟨_, 9, [], .rgba 1 2 3 9, (inv_partial [.byte 9]).2.1, rfl, rfl, rfl, rfl⟩,
    ⟨_, 0x6B, [], .luma 37 6 11, (inv_partial [.byte 0x6B]).2.2, rfl, rfl, rfl, rfl⟩⟩

theorem witness_StepRunsTheDecodedInstruction_trailer : ∃ s b es i, SessionInv s ∧ s.input = .byte b :: es ∧ s.phase = .trailer ∧
    decode .trailer (trailerBytes.take s.tcnt.toNat ++ [b]) = .ok (i, []) :=
  ⟨trailerState 7 [.byte 1], 1, [], .trailer, inv_trailer _ (by decide) _, rfl, rfl, rfl⟩

/-- One start for each space. -/
theorem witness_ByteStepsOfARecordAreItsMeaning : AtRecordStart .header State.reset ∧ AtRecordStart .ops (opsState .seed []) ∧
    AtRecordStart .trailer (trailerState 0 []) ∧ Instr.wellFormed (.run 61) = true ∧ Instr.space (.run 61) = .ops :=
  ⟨⟨rfl, rfl⟩, ⟨rfl, rfl, rfl, rfl⟩, ⟨rfl, rfl⟩, rfl, rfl⟩

/-- A state that waits; chunks that cut an RGB, one of them empty. -/
theorem witness_ChunkBoundariesAreInvisible : (opsState .seed []).input = [] ∧
    after (deliver [[.byte 0xFE, .byte 1], [], [.byte 2, .byte 3]] (opsState .seed [])) (·.px) = some ⟨1, 2, 3, 255⟩ := by decide

/-- The stream of 95_test_vectors.md S2. -/
theorem witness_WellFormedStreamDecodesToItsImage :
    (∀ i ∈ [Instr.rgb 100 100 100, Instr.run 1], i.space = .ops ∧ i.wellFormed = true) ∧
    (∀ c, (refImage c [.rgb 100 100 100, .run 1]).length = (1 : BitVec 32).toNat * (3 : BitVec 32).toNat ∧
      (∀ k, k < [Instr.rgb 100 100 100, Instr.run 1].length →
        (refImage c ([Instr.rgb 100 100 100, Instr.run 1].take k)).length < (1 : BitVec 32).toNat * (3 : BitVec 32).toNat)) ∧
    (1 : BitVec 32).toNat * (3 : BitVec 32).toNat ≤ Config.params.maxPixels ∧
    (1 : BitVec 32).toNat * (3 : BitVec 32).toNat ≤ otherParams.maxPixels :=
  ⟨by decide, fun c => by cases c <;> decide, by decide, by decide⟩

/-- RgbEmits…, RgbaEmits…, IndexEmits…, DiffAdds…, LumaAdds…, RunEmits…: the first place of the buffer and the last. -/
theorem witness_room : (opsState .seed []).wptr < (opsState .seed []).npix ∧ (nearEnd 2 []).wptr < (nearEnd 2 []).npix := by decide

/-- A RUN of 3 Pixels with room for 2 and a RUN of 62 with room for 1. -/
theorem witness_OverlongRunClampsOrIsRefused :
    ((nearEnd 1 []).wptr < (nearEnd 1 []).npix ∧
      (nearEnd 1 []).npix.toNat - (nearEnd 1 []).wptr.toNat < (2 : BitVec 6).toNat + 1) ∧
    ((nearEnd 2 []).wptr < (nearEnd 2 []).npix ∧
      (nearEnd 2 []).npix.toNat - (nearEnd 2 []).wptr.toNat < (61 : BitVec 6).toNat + 1) ∧
    Config.params.runOverrun = .clamp ∧ ({ Config.params with runOverrun := .refuse } : Params).runOverrun = .refuse := by decide

theorem witness_SinglePixelOpcodesStopOnAFullBuffer :
    Instr.space (.index 0) = .ops ∧ (∀ f, Instr.index 0 ≠ .run f) ∧ ¬ (nearEnd 3 []).wptr < (nearEnd 3 []).npix := by decide

theorem witness_AlphaChangesOnlyByRgbaAndIndex : ∃ s t1 t2 t3 t4 t5 t6 t7 t8, exec (.rgb 1 2 3) s = .next t1 ∧
    exec (.diff 0 0 0) s = .next t2 ∧ exec (.luma 0 0 0) s = .next t3 ∧ exec (.run 61) s = .next t4 ∧ exec (.rgba 1 2 3 4) s = .next t5 ∧
    exec (.index 0) s = .next t6 ∧ exec (.header 0x716F6966 1 1 3 0) s = .next t7 ∧ exec .trailer s = .next t8 :=
  ⟨opsState .seed [], _, _, _, _, _, _, _, _, rfl, rfl, rfl, rfl, rfl, rfl, rfl, rfl⟩

/-- CacheStoreOverwritesItsSlotOnly, OpcodesChangeNothingElse, OpcodesEmitOneToSixtyTwoPixels, EmittedPixelLandsAsRgbaBytes: a single-Pixel opcode and a RUN that is clamped. -/
theorem witness_opcodes : (∃ s t, Instr.space (.rgb 1 2 3) = .ops ∧ Instr.wellFormed (.rgb 1 2 3) = true ∧ s.wptr < s.npix ∧
      exec (.rgb 1 2 3) s = .next t) ∧
    (∃ s t, Instr.space (.run 61) = .ops ∧ Instr.wellFormed (.run 61) = true ∧ s.wptr < s.npix ∧ exec (.run 61) s = .next t) :=
  ⟨⟨opsState .seed [], _, rfl, rfl, by decide, rfl⟩, ⟨nearEnd 1 [], _, rfl, rfl, by decide, rfl⟩⟩

theorem witness_OperandsAreAssembledAsStated :
    headerOf (headerBytes 1 0xFFFFFFFF 256 4 1) = .header 1 0xFFFFFFFF 256 4 1 ∧ Instr.wellFormed (.run 0) = true ∧
    Instr.wellFormed (.run 61) = true := by decide

/-- Two Pixels that differ above the low six bits only: (64,0,0,255) and (0,0,0,255) of 95_test_vectors.md I6. -/
theorem witness_HashIsTheStatedFormula : (64 : Byte).extractLsb' 0 6 = (0 : Byte).extractLsb' 0 6 ∧
    (⟨64, 0, 0, 255⟩ : Pixel) ≠ ⟨0, 0, 0, 255⟩ := by decide

/-- The slot that a store wrote, and a slot never written. -/
theorem witness_IndexRestoreMayDisplaceSlotZero :
    (∃ s t, exec (.index 9) s = .next t ∧ hashSlot (cacheLookup s.cache 9) = 9) ∧
    (∃ s t, exec (.index 63) s = .next t ∧ cacheLookup s.cache 63 = ⟨0, 0, 0, 0⟩ ∧ cacheLookup s.cache 0 ≠ ⟨0, 0, 0, 0⟩) :=
  ⟨⟨{ opsState .seed [] with cache := cacheStore State.reset.cache ⟨10, 20, 30, 255⟩ }, _, rfl, by decide⟩,
    ⟨{ opsState .seed [] with cache := cacheStore State.reset.cache ⟨64, 0, 0, 0⟩ }, _, rfl, by decide, by decide⟩⟩

theorem witness_PartialOpcodesHaveNoOtherEffect :
    (∃ s t b es, s.phase = .ops ∧ s.input = .byte b :: es ∧ step s = .next t ∧ t.op ≠ .none) ∧
    (∃ s : State, s.phase = .ops ∧ s.op ≠ .none ∧ s.input = []) ∧
    (∃ (s : State) (es : List InputEvent), s.phase = .ops ∧ s.op ≠ .none ∧ s.input = .endOfStream :: es) :=
  ⟨⟨opsState .seed [.byte 0xFE], _, 0xFE, [], rfl, rfl, rfl, by decide⟩,
    ⟨partialState .luma #v[0xA5, 0, 0, 0, 0] 1 [], rfl, by decide, rfl⟩,
    ⟨partialState .luma #v[0xA5, 0, 0, 0, 0] 1 [.endOfStream], [], rfl, by decide, rfl⟩⟩

/-- GoodHeaderIsAccepted, HeaderInstructionCompletes: the limit itself is allowed. -/
theorem witness_GoodHeaderIsAccepted : ((3 : Byte) = 3 ∨ (3 : Byte) = 4) ∧ ((1 : Byte) = 0 ∨ (1 : Byte) = 1) ∧
    (2 : BitVec 32).toNat * (3 : BitVec 32).toNat ≤ ({ Config.params with maxPixels := 6 } : Params).maxPixels := by decide

/-- Each of the three checks fails somewhere, and all pass somewhere. -/
theorem witness_HeaderChecksAreMadeInOrder : (0x716F6967 : BitVec 32) ≠ Config.params.magic ∧
    ((0x716F6966 : BitVec 32) = Config.params.magic ∧ (5 : Byte) ≠ 3 ∧ (5 : Byte) ≠ 4) ∧
    ((0x716F6966 : BitVec 32) = Config.params.magic ∧ ((4 : Byte) = 3 ∨ (4 : Byte) = 4) ∧ (2 : Byte) ≠ 0 ∧ (2 : Byte) ≠ 1) ∧
    ((0x716F6966 : BitVec 32) = Config.params.magic ∧ ((3 : Byte) = 3 ∨ (3 : Byte) = 4) ∧ ((1 : Byte) = 0 ∨ (1 : Byte) = 1) ∧
      (2 : BitVec 32).toNat * (3 : BitVec 32).toNat ≤ Config.params.maxPixels) := by decide

/-- One Pixel more than the limit. -/
theorem witness_OnlyTooLargeImagesAreRefused : ((4 : Byte) = 3 ∨ (4 : Byte) = 4) ∧ ((0 : Byte) = 0 ∨ (0 : Byte) = 1) ∧
    ({ Config.params with maxPixels := 5 } : Params).maxPixels < (2 : BitVec 32).toNat * (3 : BitVec 32).toNat ∧
    execHeaderWith { Config.params with maxPixels := 5 } 0x716F6966 2 3 4 0 State.reset = .refused .imageTooLarge :=
  ⟨by decide, by decide, by decide, rfl⟩

/-- The first header byte and the 13th. -/
theorem witness_EarlyHeaderBytesAreOnlyStored :
    (∃ (s : State) (b : Byte) (es : List InputEvent), s.phase = .header ∧ s.input = .byte b :: es ∧ s.hcnt.toNat < 13 ∧ s.hcnt = 0) ∧
    (∃ (s : State) (b : Byte) (es : List InputEvent), s.phase = .header ∧ s.input = .byte b :: es ∧ s.hcnt.toNat < 13 ∧ s.hcnt = 12) :=
  ⟨⟨{ State.reset with input := [.byte 0x71] }, 0x71, [], rfl, rfl, by decide, rfl⟩,
    ⟨{ State.reset with hcnt := 12, input := [.byte 4] }, 4, [], rfl, rfl, by decide, rfl⟩⟩

theorem witness_HeaderSerialisationRoundTrips : ∃ bs t, bs.length = 14 ∧
    runSteps 14 (State.reset.withInput (byteEvents bs)) = .next t ∧ t.hdrValid = true :=
  ⟨[0x71, 0x6F, 0x69, 0x66, 0, 0, 0, 1, 0, 0, 0, 1, 4, 0], _, rfl, rfl, by decide⟩

/-- HeaderRegistersAreImmutable, OnlyOpcodesTouchPixelState, ChannelsAndColorspaceNeverMatter, TheCoreNeverReadsTheBuffer. -/
theorem witness_laterSteps : ∃ s t : State, s.phase ≠ .header ∧ s.phase ≠ .ops ∧ step s = .next t :=
  ⟨trailerState 7 [.byte 1], _, by decide, by decide, rfl⟩

theorem witness_ChannelsAndColorspaceNeverMatter : ∃ s t : State, s.phase ≠ .header ∧ step s = .next t :=
  ⟨opsState .seed [.byte 0xFD], _, by decide, rfl⟩

theorem witness_OnlyOpcodesTouchPixelState : ∃ s t : State, s.phase ≠ .ops ∧ step s = .next t ∧ t.phase = .ops :=
  ⟨headerState 0x716F6966 4 [.byte 1], _, by decide, rfl, by decide⟩

/-- Each position class, and each way to be wrong. -/
theorem witness_TrailerBytesAreCheckedByPosition :
    (∃ (s : State) (b : Byte) (es : List InputEvent), s.phase = .trailer ∧ s.input = .byte b :: es ∧ s.tcnt.toNat < 7 ∧ b = 0x00) ∧
    (∃ (s : State) (b : Byte) (es : List InputEvent), s.phase = .trailer ∧ s.input = .byte b :: es ∧ s.tcnt.toNat = 7 ∧ b = 0x01) ∧
    (∃ (s : State) (b : Byte) (es : List InputEvent), s.phase = .trailer ∧ s.input = .byte b :: es ∧ s.tcnt.toNat < 7 ∧ b ≠ 0x00) ∧
    (∃ (s : State) (b : Byte) (es : List InputEvent), s.phase = .trailer ∧ s.input = .byte b :: es ∧ s.tcnt.toNat = 7 ∧ b ≠ 0x01) ∧
    (∃ (s : State) (b : Byte) (es : List InputEvent), s.phase = .trailer ∧ s.input = .byte b :: es ∧ 8 ≤ s.tcnt.toNat) :=
  ⟨⟨trailerState 6 [.byte 0], 0, [], rfl, rfl, by decide, rfl⟩, ⟨trailerState 7 [.byte 1], 1, [], rfl, rfl, rfl, rfl⟩,
    ⟨trailerState 6 [.byte 1], 1, [], rfl, rfl, by decide, by decide⟩, ⟨trailerState 7 [.byte 0], 0, [], rfl, rfl, rfl, by decide⟩,
    ⟨trailerState 8 [.byte 0], 0, [], rfl, rfl, by decide⟩⟩

theorem witness_TrailerInstructionCompletes : (trailerState 7 []).tcnt.toNat < 8 ∧ 8 ≤ (trailerState 8 []).tcnt.toNat := by decide

theorem witness_EndOfStreamEffectByPhase :
    (∃ (s : State) (es : List InputEvent), s.input = .endOfStream :: es ∧ s.phase = .header) ∧ (∃ (s : State) (es : List InputEvent), s.input = .endOfStream :: es ∧ s.phase = .ops) ∧
    (∃ (s : State) (es : List InputEvent), s.input = .endOfStream :: es ∧ s.phase = .trailer ∧ s.tcnt = 8) ∧
    (∃ (s : State) (es : List InputEvent), s.input = .endOfStream :: es ∧ s.phase = .trailer ∧ s.tcnt ≠ 8) ∧
    (∃ (s : State) (es : List InputEvent), s.input = .endOfStream :: es ∧ s.phase = .done) ∧ (∃ (s : State) (es : List InputEvent), s.input = .endOfStream :: es ∧ s.phase = .failed) :=
  ⟨⟨State.reset.withInput [.endOfStream], [], rfl, rfl⟩, ⟨opsState .seed [.endOfStream], [], rfl, rfl⟩,
    ⟨trailerState 8 [.endOfStream], [], rfl, rfl, rfl⟩, ⟨trailerState 7 [.endOfStream], [], rfl, rfl, by decide⟩,
    ⟨doneState [.endOfStream], [], rfl, rfl⟩, ⟨failedState [.endOfStream], [], rfl, rfl⟩⟩

theorem witness_TerminalPhasesAbsorbEveryEvent :
    (∃ (s : State) (e : InputEvent) (es : List InputEvent), s.phase = .done ∧ s.input = e :: es) ∧ (∃ (s : State) (e : InputEvent) (es : List InputEvent), s.phase = .failed ∧ s.input = e :: es) :=
  ⟨⟨doneState [.byte 0xFF], _, [], rfl, rfl⟩, ⟨failedState [.endOfStream], _, [], rfl, rfl⟩⟩

theorem witness_SuccessIsCommittedOnlyAtEnd : ∃ s t, step s = .next t ∧ t.phase = .done ∧ s.phase ≠ .done :=
  ⟨trailerState 8 [.endOfStream], _, rfl, rfl, by decide⟩

theorem witness_PhaseTransitionsAreTheTable : ∃ s t, step s = .next t ∧ s.phase ≠ t.phase :=
  ⟨trailerState 8 [.endOfStream], _, rfl, by decide⟩

/-- Each of the five kinds is raised somewhere. -/
theorem witness_EachErrorHasItsCause :
    (∃ s t, SessionInv s ∧ stepWith Config.params s = .next t ∧ s.phase ≠ .failed ∧ t.err = some .headerMagicMismatch) ∧
    (∃ s t, SessionInv s ∧ stepWith Config.params s = .next t ∧ s.phase ≠ .failed ∧ t.err = some .unsupportedChannelMode) ∧
    (∃ s t, SessionInv s ∧ stepWith Config.params s = .next t ∧ s.phase ≠ .failed ∧ t.err = some .unsupportedColorspaceMode) ∧
    (∃ s t, SessionInv s ∧ stepWith Config.params s = .next t ∧ s.phase ≠ .failed ∧ t.err = some .trailerMismatch) ∧
    (∃ s t, SessionInv s ∧ stepWith Config.params s = .next t ∧ s.phase ≠ .failed ∧ t.err = some .prematureEndOfStream) :=
  ⟨⟨headerState 0x716F6967 4 [.byte 0], _, inv_header _ _ _, rfl, by decide, by decide⟩,
    ⟨headerState 0x716F6966 5 [.byte 0], _, inv_header _ _ _, rfl, by decide, by decide⟩,
    ⟨headerState 0x716F6966 4 [.byte 2], _, inv_header _ _ _, rfl, by decide, by decide⟩,
    ⟨trailerState 8 [.byte 1], _, inv_trailer _ (by decide) _, rfl, by decide, by decide⟩,
    ⟨trailerState 7 [.endOfStream], _, inv_trailer _ (by decide) _, rfl, by decide, by decide⟩⟩

/-- A failure in the header step and one elsewhere. -/
theorem witness_RaiseWritesOnlyPhaseErrAndEvent :
    (∃ s t, step s = .next t ∧ s.phase ≠ .failed ∧ t.phase = .failed ∧ s.phase = .header ∧ s.hcnt = 13) ∧
    (∃ s t, step s = .next t ∧ s.phase ≠ .failed ∧ t.phase = .failed ∧ s.phase = .trailer) :=
  ⟨⟨headerState 0x716F6966 5 [.byte 0], _, rfl, by decide, by decide, rfl, rfl⟩,
    ⟨trailerState 8 [.byte 1], _, rfl, by decide, by decide, rfl⟩⟩

/-- WrittenPixelsNeverChange, StepReturnsTheStatedEvents: a step that emits, and one after which written bytes stand. -/
theorem witness_steps : (∃ s t, SessionInv s ∧ step s = .next t ∧ t.wptr = 62) ∧
    (∃ s t a, SessionInv s ∧ step s = .next t ∧ a < pixelOffset s.wptr ∧ a = 3) :=
  ⟨⟨opsState .seed [.byte 0xFD], _, inv_ops _, rfl, by decide⟩,
    ⟨trailerState 7 [.byte 1], _, 3, inv_trailer _ (by decide) _, rfl, by decide, rfl⟩⟩

/-- A header byte not yet received and the header registers may differ. -/
theorem witness_UnspecifiedResetValuesNeverMatter : ∃ s t s', SessionInv s ∧ SameButUnspecified s t ∧ s ≠ t ∧ step s = .next s' :=
  ⟨headerState 0x716F6966 4 [.byte 0], { headerState 0x716F6966 4 [.byte 0] with width := 5, npix := 9 }, _, inv_header _ _ _,
    ⟨rfl, fun _ _ => rfl, fun h => by cases h⟩, by decide, rfl⟩

theorem witness_ResultExistsExactlyWhenDone : ∃ s r, SessionInv s ∧ s.result = some r :=
  ⟨doneState [], ⟨1, 1, [1, 2, 3, 255]⟩, inv_done _, rfl⟩

theorem witness_FinishedImageIsRowMajor : ∃ s i, SessionInv s ∧ s.phase = .done ∧ i < s.width.toNat * s.height.toNat :=
  ⟨doneState [], 0, inv_done _, rfl, by decide⟩

theorem witness_HostRegistersShowTheirFields : (doneState []).phase ≠ .failed ∧ (doneState []).hdrValid = true ∧
    (failedState []).phase = .failed := by decide

theorem witness_FailedSessionShowsOnlyPhaseAndErr : ∃ s t : State, s.phase = .failed ∧ t.phase = .failed ∧ s.err = t.err ∧ s ≠ t :=
  ⟨failedState [], { failedState [] with width := 9 }, rfl, rfl, rfl, by decide⟩

/-- A RUN of 62 Pixels, one that is clamped to one Pixel, which needs no draining cycle, and one that RUN_OVERRUN = refuse refuses. -/
theorem witness_DrainingARunRefinesItsStep :
    (∃ s b, AwaitsTag s ∧ s.runcnt = 0 ∧ s.wptr < s.npix ∧ kindOf b = .run ∧ runLength (b.extractLsb' 0 6) = 62) ∧
    (∃ s b, AwaitsTag s ∧ s.runcnt = 0 ∧ s.wptr < s.npix ∧ kindOf b = .run ∧ s.room = 1 ∧
      otherParams.runOverrun = .refuse ∧ s.room < runLength (b.extractLsb' 0 6)) :=
  ⟨⟨opsState .seed [], 0xFD, ⟨rfl, rfl, rfl, rfl⟩, rfl, by decide, by decide, by decide⟩,
    ⟨nearEnd 2 [], 0xC5, ⟨rfl, rfl, rfl, rfl⟩, rfl, by decide, by decide, by decide, rfl, by decide⟩⟩

theorem witness_OtherCyclesAreSteps :
    (∃ s b, inReady false s = true ∧ ¬ (s.phase = .ops ∧ s.op = .none ∧ kindOf b = .run)) ∧
    (∃ s : State, s.draining = true) ∧ (∃ i : PortsIn, i.rst = true) :=
  ⟨⟨opsState .seed [], 0xFE, by decide, by decide⟩, ⟨{ opsState .seed [] with op := .run, runcnt := 61 }, by decide⟩,
    ⟨⟨true, true, 0, true⟩, rfl⟩⟩

/-- A cycle that writes a Pixel while a RUN drains, one that writes the Pixel of an INDEX, and one that writes none. -/
theorem witness_WritePortShowsTheWrittenPixel :
    (∃ i s t, i.rst = false ∧ cycle Config.params i s = .next t ∧ (portsOut Config.params 0 i s t).pbWe = true ∧ s.draining = true) ∧
    (∃ i s t, i.rst = false ∧ cycle Config.params i s = .next t ∧ (portsOut Config.params 0 i s t).pbWe = true ∧ s.draining = false) ∧
    (∃ i s t, i.rst = false ∧ cycle Config.params i s = .next t ∧ (portsOut Config.params 0 i s t).pbWe = false) :=
  ⟨⟨.idle, { opsState .seed [] with op := .run, runcnt := 61 }, _, rfl, rfl, by decide, by decide⟩,
    ⟨.offer 0x05, opsState .seed [], _, rfl, rfl, by decide, by decide⟩, ⟨.offer 0xFE, opsState .seed [], _, rfl, rfl, by decide⟩⟩

theorem witness_TaggedVariantIsLossless : SessionInv (partialState .rgba #v[0xFF, 1, 2, 3, 0] 4 []) := (inv_partial _).2.1

end Sys2Proof.Tests
end

section
/-! SUPPORT. Totality of a step (00_scope.md R6): what the byte of each phase answers where the invariant of 10_state.md R29 holds. -/

namespace Sys2Proof.Machine

/-! ## Phase HEADER -/

/-- The largest image that two 32-bit dimensions give (10_state.md R21). -/
theorem dimensions_le_largest (w h : BitVec 32) : w.toNat * h.toNat ≤ (2 ^ 32 - 1) * (2 ^ 32 - 1) :=
  Nat.mul_le_mul (Nat.le_sub_one_of_lt w.isLt) (Nat.le_sub_one_of_lt h.isLt)

theorem execHeaderWith_next_or_refused (P : Params) (m w h : BitVec 32) (c cs : Byte) (s : State) :
    (∃ t, execHeaderWith P m w h c cs s = .next t) ∨
    (execHeaderWith P m w h c cs s = .refused .imageTooLarge ∧ P.maxPixels < (2 ^ 32 - 1) * (2 ^ 32 - 1)) := by
  rcases execHeaderWith_cases P m w h c cs s with ⟨_, _, e⟩ | ⟨_, _, _, ⟨hlarge, e⟩ | ⟨_, e⟩⟩
  · exact .inl ⟨_, e⟩
  · exact .inr ⟨e, hlarge.trans_le (dimensions_le_largest w h)⟩
  · exact .inl ⟨_, e⟩

theorem headerByte_next_or_refused (P : Params) (b : Byte) (s : State) :
    (∃ t, headerByte P b s = .next t) ∨
    (headerByte P b s = .refused .imageTooLarge ∧ P.maxPixels < (2 ^ 32 - 1) * (2 ^ 32 - 1)) := by
  by_cases hlast : (s.storeHeaderByte b).hcnt = 14
  · have e : headerByte P b s = execWith P (headerOf (s.storeHeaderByte b).hbuf) (s.storeHeaderByte b) := if_pos hlast
    rw [e]
    exact execHeaderWith_next_or_refused P _ _ _ _ _ _
  · exact .inl ⟨_, if_neg hlast⟩

/-! ## Phase OPS -/

theorem kindOf_ne_none (b : Byte) : kindOf b ≠ .none := by
  obtain ⟨_, _, _, _, _, _, hne⟩ := kindOf_inversion b
  exact hne

theorem instrOf_eq_some {k : Op} (hk : k ≠ .none) (v : Vector Byte 5) : ∃ i, instrOf k v = some i := by
  cases k with
  | none => exact absurd rfl hk
  | _ => exact ⟨_, rfl⟩

theorem runAssembled_next_or_refused (P : Params) {u : State} (hop : u.op ≠ .none) (hroom : u.wptr < u.npix) :
    (∃ t, runAssembled P u = .next t) ∨ (runAssembled P u = .refused .runOverrun ∧ P.runOverrun = .refuse) := by
  obtain ⟨i, hi⟩ := instrOf_eq_some hop u.scratch
  rw [runAssembled_of hi]
  rcases execWith_opcode_cases P i u (instrOf_space hi) with ⟨hrefused, e⟩ | ⟨hfull, _⟩ | ⟨_, _, e⟩
  · exact .inr ⟨e, hrefused.1⟩
  · exact absurd hroom hfull
  · exact .inl ⟨_, e⟩

/-- With no one-byte kind in `op`, an opcode byte is stored as a tag or as data, and the opcode then runs or waits for more
(42_opcodes.md R125, R126). -/
theorem opcodeByte_stores (P : Params) (b : Byte) {s : State} (hop : s.op ≠ .index ∧ s.op ≠ .diff ∧ s.op ≠ .run) :
    ∃ u, (u = s.storeTag b ∨ u = s.storeData b ∧ s.op ≠ .none) ∧
      (opcodeByte P b s = runAssembled P u ∨ opcodeByte P b s = .next u) := by
  obtain ⟨hindex, hdiff, hrun⟩ := hop
  unfold opcodeByte
  cases h : s.op with
  | none => exact ⟨_, .inl rfl, ite_eq_or_eq _ _ _⟩
  | rgb => exact ⟨_, .inr ⟨rfl, by decide⟩, ite_eq_or_eq _ _ _⟩
  | rgba => exact ⟨_, .inr ⟨rfl, by decide⟩, ite_eq_or_eq _ _ _⟩
  | luma => exact ⟨_, .inr ⟨rfl, by decide⟩, ite_eq_or_eq _ _ _⟩
  | index => exact absurd h hindex
  | diff => exact absurd h hdiff
  | run => exact absurd h hrun

theorem opcodeByte_next_or_refused (P : Params) (b : Byte) {s : State} (hop : s.op ≠ .index ∧ s.op ≠ .diff ∧ s.op ≠ .run)
    (hroom : s.wptr < s.npix) :
    (∃ t, opcodeByte P b s = .next t) ∨ (opcodeByte P b s = .refused .runOverrun ∧ P.runOverrun = .refuse) := by
  obtain ⟨u, hu, e | e⟩ := opcodeByte_stores P b hop
  · rw [e]
    rcases hu with rfl | ⟨rfl, hassembling⟩
    · exact runAssembled_next_or_refused P (kindOf_ne_none b) hroom
    · exact runAssembled_next_or_refused P hassembling hroom
  · exact .inl ⟨u, e⟩

/-! ## Phase TRAILER -/

theorem trailerByte_answers_next (P : Params) (b : Byte) (s : State) : ∃ t, trailerByte P b s = .next t := by
  rcases trailerByte_cases P b s with ⟨e, _⟩ | ⟨e, _⟩ | ⟨e, _⟩ <;> exact ⟨_, e⟩

/-! ## One step -/

/-- What a step may answer in phase `p` under the parameters `P`: a next state, or the refusal that they ask for there
(42_opcodes.md R134, 41_header.md R119). -/
def AnswersAsAsked (P : Params) (p : Phase) (o : Host.Outcome State Fault Refusal) : Prop :=
  (∃ t, o = .next t) ∨
  (o = .refused .runOverrun ∧ P.runOverrun = .refuse ∧ p = .ops) ∨
  (o = .refused .imageTooLarge ∧ P.maxPixels < (2 ^ 32 - 1) * (2 ^ 32 - 1) ∧ p = .header)

theorem byteEvent_answersAsAsked (P : Params) (b : Byte) {s : State} (hop : s.op ≠ .index ∧ s.op ≠ .diff ∧ s.op ≠ .run)
    (hroom : s.phase = .ops → s.wptr < s.npix) : AnswersAsAsked P s.phase (byteEvent P b s) := by
  unfold byteEvent
  cases h : s.phase with
  | header =>
    rcases headerByte_next_or_refused P b s with hnext | ⟨e, hlimit⟩
    · exact .inl hnext
    · exact .inr (.inr ⟨e, hlimit, rfl⟩)
  | ops =>
    rcases opcodeByte_next_or_refused P b hop (hroom h) with hnext | ⟨e, hrefuse⟩
    · exact .inl hnext
    · exact .inr (.inl ⟨e, hrefuse, rfl⟩)
  | trailer => exact .inl (trailerByte_answers_next P b s)
  | done => exact .inl ⟨s, rfl⟩
  | failed => exact .inl ⟨s, rfl⟩

/-- Of the invariant only two items are needed: a record in assembly is none of the one-byte kinds, and in phase OPS the buffer has room. -/
theorem stepWith_answersAsAsked (P : Params) {s : State} (hs : SessionInv s) : AnswersAsAsked P s.phase (stepWith P s) := by
  unfold stepWith
  cases s.input with
  | nil => exact .inl ⟨s, rfl⟩
  | cons e es =>
    cases e with
    | endOfStream => exact .inl ⟨endEvent (s.withInput es), rfl⟩
    | byte b =>
      have hroom : s.phase = .ops → s.wptr < s.npix := fun h => by
        obtain ⟨_, hlt, _⟩ := hs.ops_open h
        exact hlt
      exact byteEvent_answersAsAsked P b (s := s.withInput es) hs.op_between hroom

/-- The default parameters ask for no refusal: RUN_OVERRUN is clamp, and no image exceeds MAX_PIXELS (00_scope.md R5). -/
theorem next_of_answersAsAsked_default {p : Phase} {o : Host.Outcome State Fault Refusal}
    (h : AnswersAsAsked Config.params p o) : ∃ t, o = .next t := by
  rcases h with hnext | ⟨_, hrefuse, _⟩ | ⟨_, hlimit, _⟩
  · exact hnext
  · exact absurd hrefuse (by decide)
  · exact absurd hlimit (by decide)

/-- Settles O4: each phase's byte answers as the parameters ask, and the default parameters ask for no refusal. -/
theorem invariantStatesAlwaysStep : Obligations.InvariantStatesAlwaysStep :=
  ⟨fun _ hs => next_of_answersAsAsked_default (stepWith_answersAsAsked Config.params hs),
    fun P _ hs => stepWith_answersAsAsked P hs⟩

end Sys2Proof.Machine
end

section
/-! SUPPORT. The session invariant (10_state.md R29): it holds after reset, and every operation of a step keeps it. -/

namespace Sys2Proof.Machine

/-! ## Words and memory -/

theorem kindOf_luma_topBits : ∀ b : Byte, kindOf b = .luma → b.extractLsb' 6 2 = 2 := by decide

/-- A byte has a value after a Pixel write exactly when it is one of the four written or had one before. -/
theorem Memory.isSome_read_writePixel (m : Memory) (off a : Nat) (p : Pixel) :
    (Memory.read (Memory.writePixel m off p) a).isSome = true ↔
      (off ≤ a ∧ a < off + 4) ∨ (Memory.read m a).isSome = true := by
  by_cases hin : off ≤ a ∧ a < off + 4
  · have hwritten : (Memory.read (Memory.writePixel m off p) a).isSome = true := by
      obtain rfl | rfl | rfl | rfl : a = off ∨ a = off + 1 ∨ a = off + 2 ∨ a = off + 3 := by omega
      all_goals simp
    exact iff_of_true hwritten (.inl hin)
  · rw [Memory.read_writePixel_other _ _ _ _ (by omega), or_iff_right hin]

/-- 10_state.md R29 item 8: whatever Pixel is stored, it goes to the slot it hashes to. -/
theorem CacheSound.store {cache : Vector Pixel 64} (h : CacheSound cache) (p : Pixel) : CacheSound (cacheStore cache p) := by
  intro i
  by_cases hi : i = hashSlot p
  · subst hi
    exact .inr (by rw [cacheLookup_store_same])
  · rw [cacheLookup_store_other cache p i hi]
    exact h i

/-! ## Reset, input, failure and success -/

theorem sessionInv_withInput {s : State} (hs : SessionInv s) (es : List InputEvent) : SessionInv (s.withInput es) :=
  { hs with }

theorem sessionInv_raise {s : State} (hs : SessionInv s) (k : ErrorKind) : SessionInv (raise k s) :=
  { hs with
    header_unparsed := nofun
    parsed := by rintro (h | h | h) <;> cases h
    header_fresh := nofun
    ops_open := nofun
    full := by rintro (h | h) <;> cases h
    done_verified := nofun
    err_iff := iff_of_false nofun (fun h => h rfl) }

/-- In phase FAILED the invariant says nothing of `hbuf` and `hcnt`: a header byte may be stored before its failure. -/
theorem sessionInv_raise_storeHeaderByte {s : State} (hs : SessionInv s) (k : ErrorKind) (b : Byte) :
    SessionInv (raise k (s.storeHeaderByte b)) :=
  { sessionInv_raise hs k with
    header_fresh := nofun
    ops_open := nofun }

theorem sessionInv_complete {s : State} (hs : SessionInv s) (hphase : s.phase = .trailer) (h8 : s.tcnt = 8) :
    SessionInv s.complete :=
  { hs with
    header_unparsed := nofun
    parsed := fun _ => hs.parsed (.inr (.inl hphase))
    header_fresh := nofun
    ops_open := nofun
    full := fun _ => hs.full (.inl hphase)
    done_verified := fun _ => h8
    err_iff := iff_of_true (hs.err_iff.2 (by rw [hphase]; decide)) nofun }

theorem sessionInv_endEvent {s : State} (hs : SessionInv s) : SessionInv (endEvent s) := by
  rcases endEvent_cases s with ⟨e, _⟩ | ⟨e, hphase, h8⟩ | ⟨e, _⟩ <;> rw [e]
  · exact sessionInv_raise hs _
  · exact sessionInv_complete hs hphase h8
  · exact hs

/-! ## Phase TRAILER -/

/-- In phase TRAILER `tcnt` is free up to 8. -/
theorem sessionInv_setTcnt {s : State} (hs : SessionInv s) (hphase : s.phase = .trailer) {n : BitVec 4} (hn : n.toNat ≤ 8)
    (os : List OutputEvent) : SessionInv { s with tcnt := n, outputs := os } :=
  { hs with
    header_fresh := fun h => nomatch hphase.symm.trans h
    ops_open := fun h => nomatch hphase.symm.trans h
    done_verified := fun h => nomatch hphase.symm.trans h
    tcnt_le := hn }

theorem sessionInv_trailerByte {P : Params} {b : Byte} {s t : State} (hs : SessionInv s) (hphase : s.phase = .trailer)
    (h : trailerByte P b s = .next t) : SessionInv t := by
  rcases trailerByte_cases P b s with ⟨e, _⟩ | ⟨e, _⟩ | ⟨e, hlt, _⟩ <;> cases e.symm.trans h
  · exact sessionInv_raise hs _
  · exact sessionInv_setTcnt hs hphase (by decide) _
  · exact sessionInv_setTcnt hs hphase (by bv_omega) _

/-! ## Phase HEADER -/

theorem sessionInv_storeHeaderByte {s : State} (hs : SessionInv s) (hphase : s.phase = .header) (b : Byte)
    (hmore : s.hcnt + 1 ≠ 14) : SessionInv (s.storeHeaderByte b) := by
  obtain ⟨hle, hrest⟩ := hs.header_fresh hphase
  have hcnt : (s.hcnt + 1).toNat ≤ 13 := by bv_omega
  exact { hs with
    header_fresh := fun _ => ⟨hcnt, hrest⟩
    ops_open := fun h => nomatch hphase.symm.trans h }

theorem acceptHeader_phase_cases (w h : BitVec 32) (c cs : Byte) (s : State) :
    ((s.acceptHeader w h c cs).phase = .trailer ∧ w.toNat * h.toNat = 0) ∨
    ((s.acceptHeader w h c cs).phase = .ops ∧ 0 < w.toNat * h.toNat) := by
  rcases Nat.eq_zero_or_pos (w.toNat * h.toNat) with hempty | hpos
  · exact .inl ⟨if_pos hempty, hempty⟩
  · exact .inr ⟨if_neg hpos.ne', hpos⟩

/-- 41_header.md R115: an accepted header opens an unwritten buffer, and its phase is the one that the size asks for. -/
theorem sessionInv_acceptHeader {s : State} (hs : SessionInv s) (hphase : s.phase = .header) (b : Byte)
    (hlast : s.hcnt + 1 = 14) (w h : BitVec 32) {c cs : Byte} (hc : c = 3 ∨ c = 4) (hcs : cs = 0 ∨ cs = 1) :
    SessionInv ((s.storeHeaderByte b).acceptHeader w h c cs) := by
  obtain ⟨_, hop, _, hwptr, htcnt, _⟩ := hs.header_fresh hphase
  have herr : s.err = none := hs.err_iff.2 (by rw [hphase]; decide)
  have hnpix := npix_toNat w h
  have hw : ((s.storeHeaderByte b).acceptHeader w h c cs).wptr = 0 := hwptr
  have hphases := acceptHeader_phase_cases w h c cs (s.storeHeaderByte b)
  obtain ⟨hheader, hdone, hfailed⟩ : ((s.storeHeaderByte b).acceptHeader w h c cs).phase ≠ .header ∧
      ((s.storeHeaderByte b).acceptHeader w h c cs).phase ≠ .done ∧
      ((s.storeHeaderByte b).acceptHeader w h c cs).phase ≠ .failed := by
    rcases hphases with ⟨e, _⟩ | ⟨e, _⟩ <;> rw [e] <;> decide
  exact
    { hs with
      header_unparsed := fun e => absurd e hheader
      parsed := fun _ => rfl
      header_fresh := fun e => absurd e hheader
      ops_open := fun e => by
        rcases hphases with ⟨e', _⟩ | ⟨_, hpos⟩
        · cases e.symm.trans e'
        · refine ⟨hlast, ?_, htcnt⟩
          rw [hw, BitVec.lt_def, State.acceptHeader_npix, hnpix]
          exact hpos
      full := fun e => by
        rcases hphases with ⟨_, hempty⟩ | ⟨e', _⟩
        · refine ⟨?_, hop⟩
          rw [hw, State.acceptHeader_npix, hempty]
          rfl
        · rw [e'] at e
          rcases e with e | e <;> cases e
      done_verified := fun e => absurd e hdone
      last_pixel := fun hne => absurd hw hne
      err_iff := iff_of_true herr hfailed
      pb_wf := .nil
      pb_written := fun a => by rw [hw]; simp
      header_registers := fun _ => ⟨hnpix, hc, hcs⟩
      wptr_le := fun _ => by rw [hw]; exact Nat.zero_le _
      no_buffer := fun _ => hw }

theorem sessionInv_headerByte {P : Params} {b : Byte} {s t : State} (hs : SessionInv s) (hphase : s.phase = .header)
    (hnext : headerByte P b s = .next t) : SessionInv t := by
  rcases headerByte_next hnext with ⟨hmore, rfl⟩ | ⟨hlast, _, w, h, _, _, _, ⟨k, _, rfl⟩ | ⟨_, hc, hcs, _, rfl⟩⟩
  · exact sessionInv_storeHeaderByte hs hphase b hmore
  · exact sessionInv_raise_storeHeaderByte hs k b
  · exact sessionInv_acceptHeader hs hphase b hlast w h hc hcs

/-! ## Phase OPS -/

/-- 42_opcodes.md R125: a tag byte that leaves its opcode incomplete. -/
theorem sessionInv_storeTag {s : State} (hs : SessionInv s) (hphase : s.phase = .ops) (hop : s.op = .none) {b : Byte}
    (hkind : kindOf b = .rgb ∨ kindOf b = .rgba ∨ kindOf b = .luma) : SessionInv (s.storeTag b) := by
  obtain ⟨hcnt, _⟩ := hs.op_none hop
  obtain ⟨hrgb, hrgba, _⟩ := kindOf_inversion b
  have hone : (s.storeTag b).cnt.toNat = 1 := rfl
  have htag : (s.storeTag b).scratch[0] = b := Vector.getElem_set_self _
  exact
    { hs with
      header_fresh := fun h => nomatch hphase.symm.trans h
      full := by rintro (h | h) <;> cases hphase.symm.trans h
      op_none := fun h => absurd h (kindOf_ne_none b)
      op_rgb := fun h => ⟨by omega, by omega, htag.trans (hrgb h)⟩
      op_rgba := fun h => ⟨by omega, by omega, htag.trans (hrgba h)⟩
      op_luma := fun h => ⟨rfl, by rw [htag]; exact kindOf_luma_topBits b h⟩
      op_between := by
        rw [State.storeTag_op]
        rcases hkind with h | h | h <;> rw [h] <;> decide
      scratch_clear := fun k hk => by
        have hne : 0 ≠ k.val := by omega
        have hclear := hs.scratch_clear k (by rw [hcnt]; exact Nat.zero_le _)
        simpa [hne] using hclear }

/-- 42_opcodes.md R126: a data byte that leaves its opcode incomplete. It is stored above the tag, at the first clear entry. -/
theorem sessionInv_storeData {s : State} (hs : SessionInv s) (hphase : s.phase = .ops) (b : Byte)
    (hmore : s.op = .rgb ∧ s.cnt.toNat ≠ 3 ∨ s.op = .rgba ∧ s.cnt.toNat ≠ 4 ∨ s.op = .luma ∧ s.cnt.toNat ≠ 1) :
    SessionInv (s.storeData b) := by
  have hbounds : 1 ≤ s.cnt.toNat ∧ s.cnt.toNat ≤ 3 ∧ (s.op = .rgb → s.cnt.toNat ≤ 2) ∧ s.op ≠ .none ∧ s.op ≠ .luma := by
    rcases hmore with ⟨hop, hne⟩ | ⟨hop, hne⟩ | ⟨hop, hne⟩
    · obtain ⟨hlow, hhigh, _⟩ := hs.op_rgb hop
      exact ⟨hlow, hhigh, fun _ => by omega, by simp [hop]⟩
    · obtain ⟨hlow, hhigh, _⟩ := hs.op_rgba hop
      exact ⟨hlow, by omega, by simp [hop]⟩
    · obtain ⟨hcnt, _⟩ := hs.op_luma hop
      exact absurd (by rw [hcnt]; rfl) hne
  obtain ⟨hlow, hhigh, hrgb, hnone, hluma⟩ := hbounds
  have hcnt : (s.storeData b).cnt.toNat = s.cnt.toNat + 1 := by
    rw [State.storeData_cnt]
    bv_omega
  have htag : (s.storeData b).scratch[0] = s.scratch[0] := Vector.getElem_setIfInBounds_ne _ (by omega)
  exact
    { hs with
      header_fresh := fun h => nomatch hphase.symm.trans h
      full := by rintro (h | h) <;> cases hphase.symm.trans h
      op_none := fun h => absurd h hnone
      op_rgb := fun h => by
        obtain ⟨_, _, htag'⟩ := hs.op_rgb h
        exact ⟨by omega, by have := hrgb h; omega, htag.trans htag'⟩
      op_rgba := fun h => by
        obtain ⟨_, _, htag'⟩ := hs.op_rgba h
        exact ⟨by omega, by omega, htag.trans htag'⟩
      op_luma := fun h => absurd h hluma
      scratch_clear := fun k hk => by
        rw [← hs.scratch_clear k (by omega)]
        exact Vector.getElem_setIfInBounds_ne k.isLt (by omega) }

theorem sessionInv_finish {s : State} (hs : SessionInv s) : SessionInv s.finish :=
  { hs with
    header_fresh := fun h => by
      obtain ⟨hhcnt, _, _, hrest⟩ := hs.header_fresh h
      exact ⟨hhcnt, rfl, rfl, hrest⟩
    full := fun h => (hs.full h).imp_right fun _ => rfl
    op_none := fun _ => ⟨rfl, rfl⟩
    op_rgb := nofun
    op_rgba := nofun
    op_luma := nofun
    op_between := ⟨nofun, nofun, nofun⟩
    scratch_clear := fun k _ => Vector.getElem_replicate (n := 5) k.isLt }

theorem emitted_phase_cases (p : Pixel) (s : State) :
    ((s.emitted p).phase = .trailer ∧ s.wptr + 1 = s.npix) ∨ ((s.emitted p).phase = s.phase ∧ s.wptr + 1 ≠ s.npix) := by
  by_cases h : s.wptr + 1 = s.npix
  · exact .inl ⟨if_pos h, h⟩
  · exact .inr ⟨if_neg h, h⟩

/-- 42_opcodes.md R127: an Emit of any Pixel between two opcodes; the one that fills the buffer opens phase TRAILER. -/
theorem sessionInv_emitted {s : State} (hs : SessionInv s) (hphase : s.phase = .ops) (hop : s.op = .none) (p : Pixel) :
    SessionInv (s.emitted p) := by
  obtain ⟨hhcnt, hroom, htcnt⟩ := hs.ops_open hphase
  have hvalid : s.hdrValid = true := hs.parsed (.inl hphase)
  have herr : s.err = none := hs.err_iff.2 (by rw [hphase]; decide)
  have hwptr := wptr_succ_toNat s hroom
  have hle : s.wptr + 1 ≤ s.npix := by
    rw [BitVec.le_def, hwptr]
    exact hroom
  have hphases := emitted_phase_cases p s
  rw [hphase] at hphases
  obtain ⟨hheader, hdone, hfailed⟩ : (s.emitted p).phase ≠ .header ∧ (s.emitted p).phase ≠ .done ∧
      (s.emitted p).phase ≠ .failed := by
    rcases hphases with ⟨e, _⟩ | ⟨e, _⟩ <;> rw [e] <;> decide
  exact
    { hs with
      header_unparsed := fun e => absurd e hheader
      parsed := fun _ => hvalid
      header_fresh := fun e => absurd e hheader
      ops_open := fun e => by
        rcases hphases with ⟨e', _⟩ | ⟨_, hne⟩
        · cases e.symm.trans e'
        · exact ⟨hhcnt, BitVec.lt_of_le_ne hle hne, htcnt⟩
      full := fun e => by
        rcases hphases with ⟨_, hfull⟩ | ⟨e', _⟩
        · exact ⟨hfull, hop⟩
        · rw [e'] at e
          rcases e with e | e <;> cases e
      done_verified := fun e => absurd e hdone
      last_pixel := fun _ => by
        rw [State.emitted_wptr, hwptr, Nat.add_sub_cancel]
        exact ⟨Memory.readPixel_writePixel_same _ _ _, cacheLookup_store_same _ _⟩
      cache_sound := hs.cache_sound.store p
      err_iff := iff_of_true herr hfailed
      pb_wf := Memory.wf_writePixel _ _ _ hs.pb_wf
      pb_written := fun a => by
        rw [State.emitted_pb, Memory.isSome_read_writePixel, hs.pb_written a, State.emitted_wptr, hwptr, pixelOffset]
        omega
      wptr_le := fun _ => hle
      no_buffer := fun e => nomatch hvalid.symm.trans e }

theorem room_eq_zero_of_full {s : State} (h : s.wptr = s.npix) : s.room = 0 := by
  rw [State.room, h, Nat.sub_self]

/-- 42_opcodes.md R133: Pixels that fit. Only the last of them can leave phase OPS, so each Emit starts in it. -/
theorem sessionInv_emittedRun (p : Pixel) (k : Nat) {s : State} (hs : SessionInv s) (hop : s.op = .none)
    (hphase : s.phase = .ops ∨ s.phase = .trailer) (hk : k ≤ s.room) : SessionInv (s.emittedRun p k) := by
  induction k generalizing s with
  | zero => exact hs
  | succ k ih =>
    have hroom : s.wptr < s.npix := (room_pos_iff s).1 (by omega)
    have hops : s.phase = .ops := by
      refine hphase.resolve_right fun htrailer => ?_
      obtain ⟨hfull, _⟩ := hs.full (.inl htrailer)
      rw [room_eq_zero_of_full hfull] at hk
      cases hk
    refine ih (sessionInv_emitted hs hops hop p) hop ?_ (by rw [room_emitted p s hroom]; omega)
    rcases emitted_phase_cases p s with ⟨e, _⟩ | ⟨e, _⟩
    · exact .inr e
    · exact .inl (e.trans hops)

/-- 42_opcodes.md R138: an opcode's end is the same whatever stood in the assembly registers, so it is that of an opcode
between two others. -/
theorem sessionInv_emittedRun_finish (p : Pixel) (k : Nat) {s : State} (hs : SessionInv s) (hphase : s.phase = .ops)
    (hk : k ≤ s.room) : SessionInv (s.emittedRun p k).finish := by
  have hrun := sessionInv_emittedRun p k (sessionInv_finish hs) rfl (.inl hphase) hk
  rw [← emittedRun_finish_assembling p k s .none #v[0, 0, 0, 0, 0] 0]
  exact sessionInv_finish hrun

theorem sessionInv_opcodeByte {P : Params} {b : Byte} {s t : State} (hs : SessionInv s) (hphase : s.phase = .ops)
    (hnext : opcodeByte P b s = .next t) : SessionInv t := by
  rcases opcodeByte_next hnext with ⟨rfl, hop, hkind⟩ | ⟨rfl, hmore⟩ | ⟨i, u, hu, _, hspace, hexec⟩
  · exact sessionInv_storeTag hs hphase hop hkind
  · exact sessionInv_storeData hs hphase b hmore
  · obtain ⟨rfl, hk⟩ := execWith_opcode_next hspace hexec
    rcases hu with rfl | rfl
    · rw [State.storeTag, emittedRun_finish_assembling]
      exact sessionInv_emittedRun_finish _ _ hs hphase hk
    · rw [State.storeData, emittedRun_finish_assembling]
      exact sessionInv_emittedRun_finish _ _ hs hphase hk

/-! ## Reset -/

/-- The invariant holds of the reset state with any events to come (70_reset_and_hazards.md R210). -/
theorem sessionInv_reset (es : List InputEvent) : SessionInv (State.reset.withInput es) where
  header_unparsed := fun _ => rfl
  parsed := by rintro (h | h | h) <;> cases h
  header_fresh := fun _ => ⟨Nat.zero_le _, rfl, rfl, rfl, rfl, rfl, rfl⟩
  ops_open := nofun
  full := by rintro (h | h) <;> cases h
  done_verified := nofun
  tcnt_le := Nat.zero_le _
  op_none := fun _ => ⟨rfl, rfl⟩
  op_rgb := nofun
  op_rgba := nofun
  op_luma := nofun
  op_between := ⟨nofun, nofun, nofun⟩
  scratch_clear := fun k _ => Vector.getElem_replicate (n := 5) k.isLt
  last_pixel := fun h => absurd rfl h
  cache_sound := fun i => .inl (cacheLookup_replicate _ i)
  err_iff := iff_of_true rfl nofun
  pb_wf := .nil
  pb_written := fun _ => iff_of_false nofun (Nat.not_lt_zero _)
  header_registers := nofun
  wptr_le := nofun
  no_buffer := fun _ => rfl
  not_draining := rfl

/-- Settles O2: after reset nothing is output, and every part of the ordered trace is empty. -/
theorem resetMeetsInvariant : Obligations.ResetMeetsInvariant :=
  fun es => ⟨sessionInv_reset es, rfl⟩

/-! ## One step -/

theorem sessionInv_stepWith {P : Params} {s t : State} (hs : SessionInv s) (hnext : stepWith P s = .next t) :
    SessionInv t := by
  rcases stepWith_cases hnext with ⟨_, rfl⟩ | ⟨es, _, rfl⟩ |
    ⟨b, es, _, ⟨hphase, h⟩ | ⟨hphase, h⟩ | ⟨hphase, h⟩ | ⟨_, rfl⟩⟩
  · exact hs
  · exact sessionInv_endEvent (sessionInv_withInput hs es)
  · exact sessionInv_headerByte (sessionInv_withInput hs es) hphase h
  · exact sessionInv_opcodeByte (sessionInv_withInput hs es) hphase h
  · exact sessionInv_trailerByte (sessionInv_withInput hs es) hphase h
  · exact sessionInv_withInput hs es

/-- Settles O3: each operation of a step keeps the invariant, whatever the parameters. -/
theorem stepKeepsInvariant : Obligations.StepKeepsInvariant :=
  ⟨fun _ _ hs hnext => sessionInv_stepWith (P := Config.params) hs hnext, fun _ _ _ hs hnext => sessionInv_stepWith hs hnext⟩

end Sys2Proof.Machine
end

section
/-! SUPPORT. The registers without a reset value (93_implementation_defined.md U3, U4) have no influence: every operation of a step keeps the
relation between two states that differ in them alone. -/

namespace Sys2Proof.Machine

/-! ## The relation and the operations that do not read the unspecified registers -/

section
variable {s t : State} (h : SameButUnspecified s t)
include h

theorem SameButUnspecified.phase : t.phase = s.phase := (congrArg State.phase h.1 :)
theorem SameButUnspecified.tcnt : t.tcnt = s.tcnt := (congrArg State.tcnt h.1 :)
theorem SameButUnspecified.hcnt : t.hcnt = s.hcnt := (congrArg State.hcnt h.1 :)
theorem SameButUnspecified.input : t.input = s.input := (congrArg State.input h.1 :)

theorem sameButUnspecified_withInput (es : List InputEvent) : SameButUnspecified (s.withInput es) (t.withInput es) :=
  h.imp_left (congrArg (State.withInput es))

theorem sameButUnspecified_raise (k : ErrorKind) : SameButUnspecified (raise k s) (raise k t) :=
  h.imp_left (congrArg (raise k))

theorem sameButUnspecified_complete : SameButUnspecified s.complete t.complete :=
  h.imp_left (congrArg State.complete)

theorem sameButUnspecified_bumpTrailer : SameButUnspecified s.bumpTrailer t.bumpTrailer :=
  h.imp_left (congrArg State.bumpTrailer)

theorem sameButUnspecified_verifyTrailer : SameButUnspecified s.verifyTrailer t.verifyTrailer :=
  h.imp_left (congrArg State.verifyTrailer)

theorem sameButUnspecified_endEvent : SameButUnspecified (endEvent s) (endEvent t) := by
  unfold endEvent
  rw [h.phase, h.tcnt]
  cases s.phase with
  | header => exact sameButUnspecified_raise h _
  | ops => exact sameButUnspecified_raise h _
  | trailer =>
    by_cases h8 : s.tcnt = 8
    · simpa only [if_pos h8] using sameButUnspecified_complete h
    · simpa only [if_neg h8] using sameButUnspecified_raise h _
  | done => exact h
  | failed => exact h

/-- Once 14 header bytes are received, none is unspecified. -/
theorem SameButUnspecified.hbuf_eq (hall : s.hcnt = 14) : t.hbuf = s.hbuf := by
  obtain ⟨_, hreceived, _⟩ := h
  refine Vector.ext fun k hk => hreceived ⟨k, hk⟩ ?_
  rw [hall]
  exact hk

/-- In phase OPS every header byte is received and the header is parsed, so nothing is left to differ. -/
theorem SameButUnspecified.eq_of_ops (hs : SessionInv s) (hphase : s.phase = .ops) : t = s := by
  obtain ⟨hhcnt, _⟩ := hs.ops_open hphase
  have hbuf := h.hbuf_eq hhcnt
  obtain ⟨e, _, hregs⟩ := h
  obtain ⟨hw, hh, hc, hcs, hn⟩ := hregs (hs.parsed (.inl hphase))
  rw [e, hbuf, hw, hh, hc, hcs, hn]

/-- 41_header.md R110: the byte received stands in both. -/
theorem sameButUnspecified_storeHeaderByte (b : Byte) :
    SameButUnspecified (s.storeHeaderByte b) (t.storeHeaderByte b) := by
  have hhcnt := h.hcnt
  obtain ⟨e, hreceived, hregs⟩ := h
  refine ⟨(congrArg (State.storeHeaderByte b) e).trans ?_, fun k hk => ?_, hregs⟩
  · simp only [State.storeHeaderByte, hhcnt]
  · have hle : (s.hcnt + 1).toNat ≤ s.hcnt.toNat + 1 := by bv_omega
    rw [State.storeHeaderByte_hcnt] at hk
    simp only [State.storeHeaderByte_hbuf, hhcnt, Vector.getElem_setIfInBounds]
    split
    · rfl
    · exact hreceived k (by omega)

/-- 41_header.md R115: an accepted header gives the registers that could differ the same values. -/
theorem sameButUnspecified_acceptHeader (w hgt : BitVec 32) (c cs : Byte) (hbuf : t.hbuf = s.hbuf) :
    SameButUnspecified (s.acceptHeader w hgt c cs) (t.acceptHeader w hgt c cs) :=
  ⟨congrArg (State.acceptHeader w hgt c cs) h.1, fun _ _ => by simp only [State.acceptHeader_hbuf, hbuf],
    fun _ => ⟨rfl, rfl, rfl, rfl, rfl⟩⟩

end

/-! ## Outcomes -/

/-- Wherever the first outcome is a next state, so is the second, and the two differ in unspecified registers alone. -/
def NextAlike (o o' : Host.Outcome State Fault Refusal) : Prop :=
  ∀ s', o = .next s' → ∃ t', o' = .next t' ∧ SameButUnspecified s' t'

theorem nextAlike_next {s t : State} (h : SameButUnspecified s t) : NextAlike (.next s) (.next t) := by
  rintro _ ⟨⟩
  exact ⟨t, rfl, h⟩

theorem nextAlike_refused (r : Refusal) (o : Host.Outcome State Fault Refusal) : NextAlike (.refused r) o := by
  rintro _ ⟨⟩

theorem nextAlike_refl (o : Host.Outcome State Fault Refusal) : NextAlike o o :=
  fun s' e => ⟨s', e, rfl, fun _ _ => rfl, fun _ => ⟨rfl, rfl, rfl, rfl, rfl⟩⟩

theorem nextAlike_ite {q : Prop} [Decidable q] {a b a' b' : Host.Outcome State Fault Refusal} (ha : q → NextAlike a a')
    (hb : ¬ q → NextAlike b b') : NextAlike (if q then a else b) (if q then a' else b') := by
  by_cases hq : q
  · simpa only [if_pos hq] using ha hq
  · simpa only [if_neg hq] using hb hq

/-! ## The bytes of each phase -/

section
variable {s t : State} (h : SameButUnspecified s t)
include h

/-- HEADER's bytes are overwritten by those of the record, and every check reads the record alone. -/
theorem nextAlike_execHeaderWith (P : Params) (m w hgt : BitVec 32) (c cs : Byte) :
    NextAlike (execHeaderWith P m w hgt c cs s) (execHeaderWith P m w hgt c cs t) := by
  have hbytes : SameButUnspecified (s.withHeaderBytes (headerBytes m w hgt c cs))
      (t.withHeaderBytes (headerBytes m w hgt c cs)) :=
    ⟨congrArg (State.withHeaderBytes _) h.1, fun _ _ => rfl, h.2.2⟩
  unfold execHeaderWith
  refine nextAlike_ite (fun _ => nextAlike_next (sameButUnspecified_raise hbytes _)) fun _ => ?_
  refine nextAlike_ite (fun _ => nextAlike_next (sameButUnspecified_raise hbytes _)) fun _ => ?_
  refine nextAlike_ite (fun _ => nextAlike_next (sameButUnspecified_raise hbytes _)) fun _ => ?_
  refine nextAlike_ite (fun _ => nextAlike_refused _ _) fun _ => ?_
  exact nextAlike_next (sameButUnspecified_acceptHeader hbytes w hgt c cs rfl)

/-- With the 14th byte every header byte is received, so the record that is parsed is the same. -/
theorem nextAlike_headerByte (P : Params) (b : Byte) : NextAlike (headerByte P b s) (headerByte P b t) := by
  have hstored := sameButUnspecified_storeHeaderByte h b
  unfold headerByte
  simp only [hstored.hcnt]
  refine nextAlike_ite (fun hlast => ?_) fun _ => nextAlike_next hstored
  rw [hstored.hbuf_eq hlast]
  exact nextAlike_execHeaderWith hstored P _ _ _ _ _

theorem nextAlike_trailerByte (P : Params) (b : Byte) : NextAlike (trailerByte P b s) (trailerByte P b t) := by
  have hrecord : NextAlike (execTrailer s) (execTrailer t) := by
    unfold execTrailer
    rw [h.tcnt]
    exact nextAlike_ite (fun _ => nextAlike_next (sameButUnspecified_raise h _))
      fun _ => nextAlike_next (sameButUnspecified_verifyTrailer h)
  unfold trailerByte
  rw [h.tcnt]
  refine nextAlike_ite (fun _ => nextAlike_next (sameButUnspecified_raise h _)) fun _ => ?_
  refine nextAlike_ite (fun _ => nextAlike_next (sameButUnspecified_raise h _)) fun _ => ?_
  exact nextAlike_ite (fun _ => hrecord) fun _ => nextAlike_next (sameButUnspecified_bumpTrailer h)

theorem nextAlike_byteEvent (P : Params) (b : Byte) (hs : SessionInv s) : NextAlike (byteEvent P b s) (byteEvent P b t) := by
  unfold byteEvent
  rw [h.phase]
  cases hphase : s.phase with
  | header => exact nextAlike_headerByte h P b
  | ops =>
    rw [h.eq_of_ops hs hphase]
    exact nextAlike_refl _
  | trailer => exact nextAlike_trailerByte h P b
  | done => exact nextAlike_next h
  | failed => exact nextAlike_next h

/-! ## One step -/

theorem nextAlike_stepWith (P : Params) (hs : SessionInv s) : NextAlike (stepWith P s) (stepWith P t) := by
  unfold stepWith
  rw [h.input]
  cases s.input with
  | nil => exact nextAlike_next h
  | cons e es =>
    have hrest := sameButUnspecified_withInput h es
    cases e with
    | endOfStream => exact nextAlike_next (sameButUnspecified_endEvent hrest)
    | byte b => exact nextAlike_byteEvent hrest P b (sessionInv_withInput hs es)

end

/-- Settles O52: what a step reads of the unspecified registers it has received or written before. -/
theorem unspecifiedResetValuesNeverMatter : Obligations.UnspecifiedResetValuesNeverMatter :=
  fun _ _ s' hs h hnext => nextAlike_stepWith h Config.params hs s' hnext

end Sys2Proof.Machine
end

section
/-! SUPPORT. The header registers once phase HEADER is left (10_state.md R18 to R21). -/

namespace Sys2Proof.Machine

/-! ## The operations that leave the header registers alone -/

theorem keepsHeader_raise (k : ErrorKind) (s : State) : KeepsHeader s (raise k s) := ⟨rfl, rfl, rfl, rfl, rfl, rfl⟩

theorem keepsHeader_endEvent (s : State) : KeepsHeader s (endEvent s) := by
  rcases endEvent_cases s with ⟨e, _⟩ | ⟨e, _⟩ | ⟨e, _⟩ <;> rw [e]
  · exact keepsHeader_raise _ s
  · exact ⟨rfl, rfl, rfl, rfl, rfl, rfl⟩
  · exact ⟨rfl, rfl, rfl, rfl, rfl, rfl⟩

theorem keepsHeader_trailerByte {P : Params} {b : Byte} {s t : State} (hnext : trailerByte P b s = .next t) :
    KeepsHeader s t := by
  rcases trailerByte_cases P b s with ⟨e, _⟩ | ⟨e, _⟩ | ⟨e, _⟩ <;> cases e.symm.trans hnext
  · exact keepsHeader_raise _ s
  · exact ⟨rfl, rfl, rfl, rfl, rfl, rfl⟩
  · exact ⟨rfl, rfl, rfl, rfl, rfl, rfl⟩

theorem keepsHeader_emittedRun_finish (p : Pixel) (k : Nat) (s : State) : KeepsHeader s (s.emittedRun p k).finish :=
  ⟨emittedRun_width p k s, emittedRun_height p k s, emittedRun_channels p k s, emittedRun_colorspace p k s,
    emittedRun_hdrValid p k s, emittedRun_npix p k s⟩

/-- An opcode byte writes the assembly registers, and an opcode that it completes emits Pixels and finishes. -/
theorem keepsHeader_opcodeByte {P : Params} {b : Byte} {s t : State} (hnext : opcodeByte P b s = .next t) :
    KeepsHeader s t := by
  rcases opcodeByte_next hnext with ⟨rfl, _⟩ | ⟨rfl, _⟩ | ⟨i, u, hu, _, hspace, hexec⟩
  · exact ⟨rfl, rfl, rfl, rfl, rfl, rfl⟩
  · exact ⟨rfl, rfl, rfl, rfl, rfl, rfl⟩
  · obtain ⟨rfl, _⟩ := execWith_opcode_next hspace hexec
    obtain ⟨hw, hh, hc, hcs, hv, hn⟩ := keepsHeader_emittedRun_finish (opcodePixel P i u) (opcodeCount i u) u
    rcases hu with rfl | rfl <;> exact ⟨hw, hh, hc, hcs, hv, hn⟩

/-- Settles O38: of the operations of a step only HEADER's acceptance writes a header register. -/
theorem headerRegistersAreImmutable : Obligations.HeaderRegistersAreImmutable := by
  intro s t hphase hnext
  have keeps : ∀ es, KeepsHeader (s.withInput es) t → KeepsHeader s t := by
    rintro es ⟨hw, hh, hc, hcs, hv, hn⟩
    exact ⟨hw, hh, hc, hcs, hv, hn⟩
  rcases step_cases hnext with ⟨_, rfl⟩ | ⟨es, _, rfl⟩ |
    ⟨b, es, _, ⟨hheader, _⟩ | ⟨_, h⟩ | ⟨_, h⟩ | ⟨_, rfl⟩⟩
  · exact ⟨rfl, rfl, rfl, rfl, rfl, rfl⟩
  · exact keeps es (keepsHeader_endEvent _)
  · exact absurd hheader hphase
  · exact keeps es (keepsHeader_opcodeByte h)
  · exact keeps es (keepsHeader_trailerByte h)
  · exact ⟨rfl, rfl, rfl, rfl, rfl, rfl⟩

end Sys2Proof.Machine
end

section
/-! SUPPORT. What the host reads (10_state.md R30, R31): the fields of each register, and what a failure hides. -/

namespace Sys2Proof.Machine

/-! ## The fields of STATUS -/

/-- The layout of STATUS, for any values of its fields. -/
theorem statusLayout : ∀ (phase : BitVec 3) (fail done trailerOk hdrValid busy : Bool),
    let w := (0 : BitVec 24) ++ phase ++ BitVec.ofBool fail ++ BitVec.ofBool done ++ BitVec.ofBool trailerOk
      ++ BitVec.ofBool hdrValid ++ BitVec.ofBool busy
    w.extractLsb' 8 24 = 0 ∧ w.extractLsb' 5 3 = phase ∧ w.getLsbD 4 = fail ∧ w.getLsbD 3 = done ∧
      w.getLsbD 2 = trailerOk ∧ w.getLsbD 1 = hdrValid ∧ w.getLsbD 0 = busy := by
  decide

theorem statusWord_fields (v : Bool) (s : State) :
    (statusWord v s).extractLsb' 8 24 = 0 ∧ (statusWord v s).extractLsb' 5 3 = s.phase.code ∧
      (statusWord v s).getLsbD 4 = s.isFail ∧ (statusWord v s).getLsbD 3 = s.isDone ∧
      (statusWord v s).getLsbD 2 = s.trailerOk ∧
      (statusWord v s).getLsbD 1 = (if s.phase = .failed then v else s.hdrValid) ∧
      (statusWord v s).getLsbD 0 = s.busy :=
  statusLayout _ _ _ _ _ _

/-! ## The other registers -/

/-- ERR: the code in bits 2:0, zeros above (60_exceptions.md R180). -/
theorem errRead_fields (P : Params) (n : Nat) (s : State) :
    (hostRead P n .err s).extractLsb' 0 3 = errCodeOf P s.err ∧ (hostRead P n .err s).extractLsb' 3 29 = 0 :=
  ⟨BitVec.extractLsb'_append_eq_right, BitVec.extractLsb'_append_eq_left⟩

/-- The upper half of MODE is reserved, whether or not the header registers show. -/
theorem modeRead_reserved (P : Params) (n : Nat) (s : State) : (hostRead P n .mode s).extractLsb' 16 16 = 0 :=
  BitVec.extractLsb'_append_eq_left

/-- The two halves of a 64-bit register read as two words. -/
theorem halves_append (x : BitVec 64) : x.extractLsb' 32 32 ++ x.extractLsb' 0 32 = x :=
  (BitVec.extractLsb'_append_extractLsb'_eq_extractLsb' rfl).trans BitVec.extractLsb'_eq_self

theorem headerRead_fields (P : Params) (n : Nat) {s : State} (hvisible : s.headerVisible = true) :
    hostRead P n .width s = s.width ∧ hostRead P n .height s = s.height ∧
      (hostRead P n .mode s).extractLsb' 0 8 = s.channels ∧ (hostRead P n .mode s).extractLsb' 8 8 = s.colorspace ∧
      hostRead P n .npixHi s ++ hostRead P n .npixLo s = s.npix := by
  have hmode : hostRead P n .mode s = (0 : BitVec 16) ++ (s.colorspace ++ s.channels) :=
    congrArg ((0 : BitVec 16) ++ ·) (if_pos hvisible)
  have hhi : hostRead P n .npixHi s = s.npix.extractLsb' 32 32 := if_pos hvisible
  have hlo : hostRead P n .npixLo s = s.npix.extractLsb' 0 32 := if_pos hvisible
  refine ⟨if_pos hvisible, if_pos hvisible, ?_, ?_, ?_⟩
  · rw [hmode, BitVec.extractLsb'_append_eq_of_add_le (by decide), BitVec.extractLsb'_append_eq_right]
  · rw [hmode, BitVec.extractLsb'_append_eq_of_add_le (by decide), BitVec.extractLsb'_append_eq_left]
  · rw [hhi, hlo, halves_append]

theorem wptrRead_halves (P : Params) (n : Nat) {s : State} (hphase : s.phase ≠ .failed) :
    hostRead P n .wptrHi s ++ hostRead P n .wptrLo s = s.wptr := by
  have hhi : hostRead P n .wptrHi s = s.wptr.extractLsb' 32 32 := if_neg hphase
  have hlo : hostRead P n .wptrLo s = s.wptr.extractLsb' 0 32 := if_neg hphase
  rw [hhi, hlo, halves_append]

/-- Settles O55: each register is laid out from its fields, which are the state's where the session has not failed. -/
theorem hostRegistersShowTheirFields : Obligations.HostRegistersShowTheirFields := by
  intro P n s
  obtain ⟨hupper, hphase, hfail, hdone, htrailer, hvalid, hbusy⟩ := statusWord_fields ((Config.freeHostWord n).getLsbD 1) s
  obtain ⟨hcode, herrUpper⟩ := errRead_fields P n s
  refine ⟨⟨hphase, hfail, hupper, hcode, herrUpper, modeRead_reserved P n s⟩, fun hlive => ?_⟩
  refine ⟨hbusy, hvalid.trans (if_neg hlive), htrailer, hdone, fun hparsed => ?_, wptrRead_halves P n hlive⟩
  exact headerRead_fields P n (by simp [State.headerVisible, hparsed, hlive])

/-! ## After a failure -/

/-- What read number `n` shows of a failed session: `phase`, `fail` and the code of `err`; every other bit is free or reserved. -/
def failedRead (P : Params) (n : Nat) (err : Option ErrorKind) (reg : HostReg) : BitVec 32 :=
  match reg with
  | .status =>
    (0 : BitVec 24) ++ Phase.failed.code ++ BitVec.ofBool true ++ BitVec.ofBool false ++ BitVec.ofBool false
      ++ BitVec.ofBool ((Config.freeHostWord n).getLsbD 1) ++ BitVec.ofBool false
  | .err => (0 : BitVec 29) ++ errCodeOf P err
  | .mode => (0 : BitVec 16) ++ (Config.freeHostWord n).extractLsb' 0 16
  | .width => Config.freeHostWord n
  | .height => Config.freeHostWord n
  | .npixLo => Config.freeHostWord n
  | .npixHi => Config.freeHostWord n
  | .wptrLo => Config.freeHostWord n
  | .wptrHi => Config.freeHostWord n

theorem statusWord_failed (v : Bool) {s : State} (hphase : s.phase = .failed) :
    statusWord v s = (0 : BitVec 24) ++ Phase.failed.code ++ BitVec.ofBool true ++ BitVec.ofBool false
      ++ BitVec.ofBool false ++ BitVec.ofBool v ++ BitVec.ofBool false := by
  simp [statusWord, State.isFail, State.isDone, State.trailerOk, State.busy, hphase]

theorem not_headerVisible_failed {s : State} (hphase : s.phase = .failed) : ¬ s.headerVisible = true := by
  simp [State.headerVisible, hphase]

theorem hostRead_failed (P : Params) (n : Nat) (reg : HostReg) {s : State} (hphase : s.phase = .failed) :
    hostRead P n reg s = failedRead P n s.err reg := by
  have hhidden := not_headerVisible_failed hphase
  cases reg with
  | status => exact statusWord_failed _ hphase
  | err => rfl
  | mode => exact congrArg ((0 : BitVec 16) ++ ·) (if_neg hhidden)
  | width => exact if_neg hhidden
  | height => exact if_neg hhidden
  | npixLo => exact if_neg hhidden
  | npixHi => exact if_neg hhidden
  | wptrLo => exact if_pos hphase
  | wptrHi => exact if_pos hphase

theorem hostReadByte_failed (P : Params) (a : Nat) {s : State} (hphase : s.phase = .failed) : hostReadByte P a s = none := by
  simp [hostReadByte, hphase]

theorem result_failed {s : State} (hphase : s.phase = .failed) : s.result = none := by
  simp [State.result, hphase]

/-- Settles O56: every read of a failed session is a function of the read's number, the register and `err`. -/
theorem failedSessionShowsOnlyPhaseAndErr : Obligations.FailedSessionShowsOnlyPhaseAndErr := by
  intro P s t hs ht herr
  refine ⟨fun n reg => ?_, fun a => ?_, result_failed hs, result_failed ht⟩
  · rw [hostRead_failed P n reg hs, hostRead_failed P n reg ht, herr]
  · rw [hostReadByte_failed P a hs, hostReadByte_failed P a ht]

end Sys2Proof.Machine
end

section
/-! SUPPORT. The output trace (20_memory.md R47 (d)): every operation of a step appends to the outputs what it appends to the ordered trace. -/

namespace Sys2Proof.Machine

/-! ## The parts of the trace -/

theorem pixelEvents_congr {m m' : Memory} {n : Nat} (h : ∀ i, i < n → Memory.readPixel m' i = Memory.readPixel m i) :
    pixelEvents m' n = pixelEvents m n :=
  List.filterMap_congr fun i hi => by rw [h i (List.mem_range.1 hi)]

/-- The Pixel written behind the first `n` is the next event. -/
theorem pixelEvents_writePixel (m : Memory) (n : Nat) (p : Pixel) :
    pixelEvents (Memory.writePixel m (4 * n) p) (n + 1) = pixelEvents m n ++ [.pixelEmitted (BitVec.ofNat 64 n) p] := by
  have hearlier : pixelEvents (Memory.writePixel m (4 * n) p) n = pixelEvents m n :=
    pixelEvents_congr fun i hi => Memory.readPixel_writePixel_other m n i p hi.ne
  have hsplit : pixelEvents (Memory.writePixel m (4 * n) p) (n + 1) =
      pixelEvents (Memory.writePixel m (4 * n) p) n ++ [.pixelEmitted (BitVec.ofNat 64 n) p] := by
    simp [pixelEvents, List.range_succ]
  rw [hsplit, hearlier]

theorem trailerEvents_of_ne {n : BitVec 4} (h : n ≠ 8) : trailerEvents n = [] := if_neg h

theorem doneEvents_of_ne {p : Phase} (h : p ≠ .done) : doneEvents p = [] := by
  cases p with
  | done => exact absurd rfl h
  | _ => rfl

/-- Before a session has ended its trace ends with the trailer's event. -/
theorem traceOf_running {s : State} (hphase : s.phase ≠ .done) (herr : s.err = none) :
    traceOf s = headerEvents s.hdrValid s.width s.height s.channels s.colorspace ++ pixelEvents s.pb s.wptr.toNat ++
      trailerEvents s.tcnt := by
  rw [traceOf, doneEvents_of_ne hphase, herr]
  simp [failureEvents]

/-! ## Extension of the trace -/

/-- From `s` to `t` the outputs and the ordered trace grow by the same events. -/
def ExtendsTrace (s t : State) : Prop := ∃ evs, t.outputs = s.outputs ++ evs ∧ traceOf t = traceOf s ++ evs

theorem extendsTrace_of_eq {s t : State} (houtputs : t.outputs = s.outputs) (htrace : traceOf t = traceOf s) :
    ExtendsTrace s t :=
  ⟨[], by simp [houtputs], by simp [htrace]⟩

theorem ExtendsTrace.trans {s t u : State} (hst : ExtendsTrace s t) (htu : ExtendsTrace t u) : ExtendsTrace s u := by
  obtain ⟨evs, ho, ht⟩ := hst
  obtain ⟨evs', ho', ht'⟩ := htu
  exact ⟨evs ++ evs', by rw [ho', ho, List.append_assoc], by rw [ht', ht, List.append_assoc]⟩

theorem ExtendsTrace.inOrder {s t : State} (h : ExtendsTrace s t) (hs : s.outputs = traceOf s) : t.outputs = traceOf t := by
  obtain ⟨evs, ho, ht⟩ := h
  rw [ho, ht, hs]

/-! ## Failure, success and the trailer -/

theorem SessionInv.err_none {s : State} (hs : SessionInv s) (hphase : s.phase ≠ .failed) : s.err = none := hs.err_iff.2 hphase

theorem extendsTrace_raise (k : ErrorKind) {s : State} (hphase : s.phase ≠ .done) (herr : s.err = none) :
    ExtendsTrace s (raise k s) :=
  ⟨[.failed k], rfl, by rw [traceOf_running hphase herr]; simp [traceOf, doneEvents, failureEvents]⟩

theorem extendsTrace_complete {s : State} (hphase : s.phase ≠ .done) (herr : s.err = none) : ExtendsTrace s s.complete :=
  ⟨[.completed], rfl, by rw [traceOf_running hphase herr]; simp [traceOf, doneEvents, failureEvents, herr]⟩

theorem extendsTrace_verifyTrailer {s : State} (hphase : s.phase ≠ .done) (herr : s.err = none) (htcnt : s.tcnt ≠ 8) :
    ExtendsTrace s s.verifyTrailer :=
  ⟨[.trailerVerified], rfl, by
    rw [traceOf_running hphase herr, traceOf_running (s := s.verifyTrailer) hphase herr, trailerEvents_of_ne htcnt]
    simp [trailerEvents]⟩

theorem extendsTrace_bumpTrailer {s : State} (htcnt : s.tcnt.toNat < 7) : ExtendsTrace s s.bumpTrailer := by
  have hbefore : s.tcnt ≠ 8 := by bv_omega
  have hafter : s.tcnt + 1 ≠ 8 := by bv_omega
  refine extendsTrace_of_eq rfl ?_
  rw [traceOf, State.bumpTrailer_tcnt, trailerEvents_of_ne hafter, traceOf, trailerEvents_of_ne hbefore]
  rfl

theorem extendsTrace_endEvent {s : State} (hs : SessionInv s) : ExtendsTrace s (endEvent s) := by
  rcases endEvent_cases s with ⟨e, hphase⟩ | ⟨e, hphase, _⟩ | ⟨e, _⟩ <;> rw [e]
  · obtain ⟨hdone, hfailed⟩ : s.phase ≠ .done ∧ s.phase ≠ .failed := by
      rcases hphase with h | h | ⟨h, _⟩ <;> rw [h] <;> decide
    exact extendsTrace_raise _ hdone (hs.err_none hfailed)
  · exact extendsTrace_complete (by rw [hphase]; decide) (hs.err_none (by rw [hphase]; decide))
  · exact extendsTrace_of_eq rfl rfl

theorem extendsTrace_trailerByte {P : Params} {b : Byte} {s t : State} (hs : SessionInv s) (hphase : s.phase = .trailer)
    (hnext : trailerByte P b s = .next t) : ExtendsTrace s t := by
  have hdone : s.phase ≠ .done := by rw [hphase]; decide
  have herr : s.err = none := hs.err_none (by rw [hphase]; decide)
  rcases trailerByte_cases P b s with ⟨e, _⟩ | ⟨e, hseven, _⟩ | ⟨e, hlt, _⟩ <;> cases e.symm.trans hnext
  · exact extendsTrace_raise _ hdone herr
  · exact extendsTrace_verifyTrailer hdone herr (by bv_omega)
  · exact extendsTrace_bumpTrailer hlt

/-! ## Phase HEADER -/

theorem traceOf_header {s : State} (hs : SessionInv s) (hphase : s.phase = .header) : traceOf s = [] := by
  obtain ⟨_, _, _, hwptr, htcnt, _⟩ := hs.header_fresh hphase
  rw [traceOf_running (by rw [hphase]; decide) (hs.err_none (by rw [hphase]; decide)), hs.header_unparsed hphase, hwptr, htcnt]
  rfl

/-- 41_header.md R115: nothing is in the trace before the accepted header, and nothing is written behind it yet. -/
theorem extendsTrace_acceptHeader {s : State} (hs : SessionInv s) (hphase : s.phase = .header) (w h : BitVec 32) (c cs : Byte) :
    ExtendsTrace s (s.acceptHeader w h c cs) := by
  obtain ⟨_, _, _, hwptr, htcnt, _⟩ := hs.header_fresh hphase
  have hdone : (s.acceptHeader w h c cs).phase ≠ .done := by
    rcases acceptHeader_phase_cases w h c cs s with ⟨e, _⟩ | ⟨e, _⟩ <;> rw [e] <;> decide
  have herr : (s.acceptHeader w h c cs).err = none := hs.err_none (by rw [hphase]; decide)
  refine ⟨[.headerParsed w h c cs], rfl, ?_⟩
  rw [traceOf_header hs hphase, traceOf_running hdone herr]
  simp [headerEvents, pixelEvents, trailerEvents, hwptr, htcnt]

theorem extendsTrace_headerByte {P : Params} {b : Byte} {s t : State} (hs : SessionInv s) (hphase : s.phase = .header)
    (hnext : headerByte P b s = .next t) : ExtendsTrace s t := by
  have hstored : ExtendsTrace s (s.storeHeaderByte b) := extendsTrace_of_eq rfl rfl
  rcases headerByte_next hnext with ⟨_, rfl⟩ | ⟨_, _, w, h, c, cs, _, ⟨k, _, rfl⟩ | ⟨_, _, _, _, rfl⟩⟩
  · exact hstored
  · exact hstored.trans (extendsTrace_raise k (by rw [State.storeHeaderByte_phase, hphase]; decide)
      (hs.err_none (by rw [hphase]; decide)))
  · exact extendsTrace_acceptHeader hs hphase w h c cs

/-! ## Phase OPS -/

theorem emitted_phase_ne_done (p : Pixel) {s : State} (hphase : s.phase ≠ .done) : (s.emitted p).phase ≠ .done := by
  rcases emitted_phase_cases p s with ⟨e, _⟩ | ⟨e, _⟩ <;> rw [e]
  · decide
  · exact hphase

theorem extendsTrace_emitted (p : Pixel) {s : State} (hphase : s.phase ≠ .done) (herr : s.err = none) (htcnt : s.tcnt ≠ 8)
    (hroom : s.wptr < s.npix) : ExtendsTrace s (s.emitted p) := by
  refine ⟨[.pixelEmitted s.wptr p], rfl, ?_⟩
  rw [traceOf_running hphase herr, traceOf_running (s := s.emitted p) (emitted_phase_ne_done p hphase) herr]
  rw [State.emitted_wptr, wptr_succ_toNat s hroom, State.emitted_pb, pixelOffset, pixelEvents_writePixel, State.emitted_tcnt,
    trailerEvents_of_ne htcnt]
  simp

/-- 42_opcodes.md R133: the Pixels that fit follow one another. -/
theorem extendsTrace_emittedRun (p : Pixel) (k : Nat) {s : State} (hphase : s.phase ≠ .done) (herr : s.err = none)
    (htcnt : s.tcnt ≠ 8) (hk : k ≤ s.room) : ExtendsTrace s (s.emittedRun p k) := by
  induction k generalizing s with
  | zero => exact extendsTrace_of_eq rfl rfl
  | succ k ih =>
    have hroom : s.wptr < s.npix := (room_pos_iff s).1 (by omega)
    have hrest : ExtendsTrace (s.emitted p) ((s.emitted p).emittedRun p k) :=
      ih (emitted_phase_ne_done p hphase) herr htcnt (by rw [room_emitted p s hroom]; omega)
    exact (extendsTrace_emitted p hphase herr htcnt hroom).trans hrest

theorem extendsTrace_opcodeByte {P : Params} {b : Byte} {s t : State} (hs : SessionInv s) (hphase : s.phase = .ops)
    (hnext : opcodeByte P b s = .next t) : ExtendsTrace s t := by
  have htag : ExtendsTrace s (s.storeTag b) := extendsTrace_of_eq rfl rfl
  have hdata : ExtendsTrace s (s.storeData b) := extendsTrace_of_eq rfl rfl
  rcases opcodeByte_next hnext with ⟨rfl, _⟩ | ⟨rfl, _⟩ | ⟨i, u, hu, _, hspace, hexec⟩
  · exact htag
  · exact hdata
  · obtain ⟨rfl, hk⟩ := execWith_opcode_next hspace hexec
    obtain ⟨_, _, htcnt⟩ := hs.ops_open hphase
    have hrun : s.phase ≠ .done ∧ s.err = none ∧ s.tcnt ≠ 8 :=
      ⟨by rw [hphase]; decide, hs.err_none (by rw [hphase]; decide), by rw [htcnt]; decide⟩
    have hstored : ExtendsTrace s u ∧ u.phase ≠ .done ∧ u.err = none ∧ u.tcnt ≠ 8 := by
      rcases hu with rfl | rfl
      · exact ⟨htag, hrun⟩
      · exact ⟨hdata, hrun⟩
    obtain ⟨hsu, hdone, herr, hne⟩ := hstored
    have hfinish : ∀ v : State, ExtendsTrace v v.finish := fun v => extendsTrace_of_eq rfl rfl
    exact (hsu.trans (extendsTrace_emittedRun _ _ hdone herr hne hk)).trans (hfinish _)

/-! ## One step -/

theorem extendsTrace_stepWith {P : Params} {s t : State} (hs : SessionInv s) (hnext : stepWith P s = .next t) :
    ExtendsTrace s t := by
  have hinput : ∀ es, ExtendsTrace s (s.withInput es) := fun es => extendsTrace_of_eq rfl rfl
  rcases stepWith_cases hnext with ⟨_, rfl⟩ | ⟨es, _, rfl⟩ |
    ⟨b, es, _, ⟨hphase, h⟩ | ⟨hphase, h⟩ | ⟨hphase, h⟩ | ⟨_, rfl⟩⟩
  · exact extendsTrace_of_eq rfl rfl
  · exact (hinput es).trans (extendsTrace_endEvent (sessionInv_withInput hs es))
  · exact (hinput es).trans (extendsTrace_headerByte (sessionInv_withInput hs es) hphase h)
  · exact (hinput es).trans (extendsTrace_opcodeByte (sessionInv_withInput hs es) hphase h)
  · exact (hinput es).trans (extendsTrace_trailerByte (sessionInv_withInput hs es) hphase h)
  · exact hinput es

/-- Settles O5: a step appends the same events to the outputs and to the ordered trace. -/
theorem outputTraceStaysInStreamOrder : Obligations.OutputTraceStaysInStreamOrder :=
  fun _ _ hs htrace hnext => (extendsTrace_stepWith (P := Config.params) hs hnext).inOrder htrace

end Sys2Proof.Machine
end

section
/-! SUPPORT. The Pixel Buffer's bytes (20_memory.md R42 to R48): where an emitted Pixel lands, that it stays, and the finished image. -/

namespace Sys2Proof.Machine

/-! ## A Pixel as its four bytes -/

/-- The bytes of a Pixel in the buffer, in the order R, G, B, A. -/
theorem Memory.readPixel_eq_some {m : Memory} {i : Nat} {p : Pixel} (h : Memory.readPixel m i = some p) :
    Memory.read m (4 * i) = some p.r ∧ Memory.read m (4 * i + 1) = some p.g ∧
      Memory.read m (4 * i + 2) = some p.b ∧ Memory.read m (4 * i + 3) = some p.a := by
  unfold Memory.readPixel at h
  split at h
  case h_1 hr hg hb ha =>
    cases h
    exact ⟨hr, hg, hb, ha⟩
  case h_2 => cases h

/-- Settles O26: every opcode emits at least once, first at `wptr`, and copies of one Pixel, which `px` keeps. -/
theorem emittedPixelLandsAsRgbaBytes : Obligations.EmittedPixelLandsAsRgbaBytes := by
  intro i s t hspace hroom hexec
  obtain ⟨rfl, hfit⟩ := exec_opcode_next hspace hexec
  obtain ⟨k, hk⟩ := Nat.exists_eq_add_of_le' (opcodeCount_pos i s hroom)
  rw [hk] at hfit ⊢
  rw [State.finish_px, emittedRun_px_succ]
  exact Memory.readPixel_eq_some (emittedRun_readPixel _ _ s hfit _ le_rfl (by omega))

/-! ## What is written stays -/

/-- From `s` to `t` no Pixel below `wptr` is lost or changed (20_memory.md R46). -/
def KeepsWritten (s t : State) : Prop :=
  s.wptr.toNat ≤ t.wptr.toNat ∧ ∀ a, a < pixelOffset s.wptr → Memory.read t.pb a = Memory.read s.pb a

theorem keepsWritten_of_eq {s t : State} (hwptr : t.wptr = s.wptr) (hpb : t.pb = s.pb) : KeepsWritten s t :=
  ⟨by rw [hwptr], fun _ _ => by rw [hpb]⟩

theorem keepsWritten_endEvent (s : State) : KeepsWritten s (endEvent s) := by
  rcases endEvent_cases s with ⟨e, _⟩ | ⟨e, _⟩ | ⟨e, _⟩ <;> rw [e] <;> exact keepsWritten_of_eq rfl rfl

theorem keepsWritten_trailerByte {P : Params} {b : Byte} {s t : State} (hnext : trailerByte P b s = .next t) :
    KeepsWritten s t := by
  rcases trailerByte_cases P b s with ⟨e, _⟩ | ⟨e, _⟩ | ⟨e, _⟩ <;> cases e.symm.trans hnext <;>
    exact keepsWritten_of_eq rfl rfl

/-- An accepted header opens an unwritten buffer, but only where nothing was written. -/
theorem keepsWritten_headerByte {P : Params} {b : Byte} {s t : State} (hwptr : s.wptr = 0)
    (hnext : headerByte P b s = .next t) : KeepsWritten s t := by
  rcases headerByte_next hnext with ⟨_, rfl⟩ | ⟨_, _, w, h, c, cs, _, ⟨k, _, rfl⟩ | ⟨_, _, _, _, rfl⟩⟩
  · exact keepsWritten_of_eq rfl rfl
  · exact keepsWritten_of_eq rfl rfl
  · exact ⟨le_rfl, fun a ha => by rw [hwptr] at ha; exact absurd ha (Nat.not_lt_zero a)⟩

theorem keepsWritten_emittedRun (p : Pixel) (k : Nat) (s : State) (hk : k ≤ s.room) : KeepsWritten s (s.emittedRun p k) :=
  ⟨by rw [emittedRun_wptr p k s hk]; exact Nat.le_add_right _ _, fun a ha => emittedRun_read_other p k s hk a (.inl ha)⟩

theorem keepsWritten_opcodeByte {P : Params} {b : Byte} {s t : State} (hnext : opcodeByte P b s = .next t) :
    KeepsWritten s t := by
  rcases opcodeByte_next hnext with ⟨rfl, _⟩ | ⟨rfl, _⟩ | ⟨i, u, hu, _, hspace, hexec⟩
  · exact keepsWritten_of_eq rfl rfl
  · exact keepsWritten_of_eq rfl rfl
  · obtain ⟨rfl, hk⟩ := execWith_opcode_next hspace hexec
    have hrun := keepsWritten_emittedRun (opcodePixel P i u) (opcodeCount i u) u hk
    rcases hu with rfl | rfl <;> exact hrun

/-- Settles O48: opcodes write from `wptr` on, and a header is accepted only while nothing is written. -/
theorem writtenPixelsNeverChange : Obligations.WrittenPixelsNeverChange := by
  intro s t hs hnext
  rcases step_cases hnext with ⟨_, rfl⟩ | ⟨es, _, rfl⟩ |
    ⟨b, es, _, ⟨hphase, h⟩ | ⟨_, h⟩ | ⟨_, h⟩ | ⟨_, rfl⟩⟩
  · exact keepsWritten_of_eq rfl rfl
  · exact keepsWritten_endEvent (s.withInput es)
  · obtain ⟨_, _, _, hwptr, _⟩ := hs.header_fresh hphase
    exact keepsWritten_headerByte (s := s.withInput es) hwptr h
  · exact keepsWritten_opcodeByte (s := s.withInput es) h
  · exact keepsWritten_trailerByte (s := s.withInput es) h
  · exact keepsWritten_of_eq rfl rfl

/-! ## The finished image -/

/-- R26: a Pixel below `wptr` has all its bytes. -/
theorem SessionInv.readPixel_of_lt {s : State} (hs : SessionInv s) {i : Nat} (hi : i < s.wptr.toNat) :
    ∃ p, Memory.readPixel s.pb i = some p :=
  Option.isSome_iff_exists.1 (Memory.readPixel_isSome s.pb i fun a _ ha => (hs.pb_written a).2 (by omega))

/-- In phase DONE the buffer is full. -/
theorem SessionInv.wptr_of_done {s : State} (hs : SessionInv s) (hphase : s.phase = .done) :
    s.wptr.toNat = s.width.toNat * s.height.toNat := by
  obtain ⟨hfull, _⟩ := hs.full (.inr hphase)
  obtain ⟨hnpix, _⟩ := hs.header_registers (hs.parsed (.inr (.inr hphase)))
  rw [hfull, hnpix]

/-- The raster point of Pixel `i` is a point of the image, and Pixel `i` is the one that it shows (20_memory.md R42). -/
theorem imagePoint_rasterPoint {s : State} (hphase : s.phase = .done) {i : Nat} (hi : i < s.width.toNat * s.height.toNat) :
    s.imagePoint (rasterPoint s.width i).1 (rasterPoint s.width i).2 = Memory.readPixel s.pb i := by
  have hwidth : 0 < s.width.toNat := Nat.pos_of_mul_pos_right (Nat.zero_lt_of_lt hi)
  have hcolumn : i % s.width.toNat < s.width.toNat := Nat.mod_lt _ hwidth
  have hrow : i / s.width.toNat < s.height.toNat := Nat.div_lt_of_lt_mul hi
  unfold State.imagePoint
  rw [if_pos ⟨hphase, hcolumn, hrow⟩]
  exact congrArg (Memory.readPixel s.pb) (Nat.div_add_mod' i _)

/-- In phase DONE the host reads byte `k` of Pixel `i` (20_memory.md R45, R48). -/
theorem hostReadByte_platformAddress (P : Params) {s : State} (hphase : s.phase = .done) (i k : Nat) :
    hostReadByte P (platformAddress P i k) s = Memory.read s.pb (4 * i + k) := by
  have hbase : P.pbBase ≤ platformAddress P i k := by unfold platformAddress; omega
  have hoffset : platformAddress P i k - P.pbBase = 4 * i + k := by unfold platformAddress; omega
  rw [hostReadByte, if_pos ⟨hphase, hbase⟩, hoffset]

/-- Settles O54: the buffer is full, so every raster point shows a Pixel, and the host reads its four bytes. -/
theorem finishedImageIsRowMajor : Obligations.FinishedImageIsRowMajor := by
  intro P s i hs hphase hi
  obtain ⟨p, hp⟩ := hs.readPixel_of_lt (by rw [hs.wptr_of_done hphase]; exact hi)
  simp only [hostReadByte_platformAddress P hphase]
  exact ⟨p, (imagePoint_rasterPoint hphase hi).trans hp, Memory.readPixel_eq_some hp⟩

end Sys2Proof.Machine
end

section
/-! SUPPORT. Chunks of input (20_memory.md R53): a run over the first events is the same whatever comes behind them. -/

namespace Sys2Proof.Machine

/-- The events behind a chunk wait until it is processed. -/
theorem runStepsWith_append (P : Params) (c rest : List InputEvent) (s : State) :
    runStepsWith P c.length (s.withInput (c ++ rest)) =
      thenDo (runStepsWith P c.length (s.withInput c)) fun t => .next (t.withInput rest) := by
  induction c generalizing s with
  | nil => rfl
  | cons e c ih =>
    simp only [List.length_cons, List.cons_append, runStepsWith, stepWith_cons, accept_withInput P e s]
    cases accept P e s with
    | next u => exact ih u
    | fault r => rfl
    | refused r => rfl

/-- A chunk is processed to its end. -/
theorem input_eq_nil_of_runStepsWith {P : Params} {c : List InputEvent} {s t : State}
    (h : runStepsWith P c.length (s.withInput c) = .next t) : t.input = [] := by
  have hwaits := runStepsWith_append P c [] s
  rw [List.append_nil, h, thenDo_next, Host.Outcome.next.injEq] at hwaits
  rw [hwaits, State.withInput_input]

theorem withInput_of_input_eq {s : State} {es : List InputEvent} (h : s.input = es) : s.withInput es = s := by
  subst h
  rfl

/-- Settles O13, by induction on the chunks: the first one leaves the state waiting, and the others are the events behind it. -/
theorem chunkBoundariesAreInvisible : Obligations.ChunkBoundariesAreInvisible := by
  intro s chunks hwaits
  induction chunks generalizing s with
  | nil => exact congrArg Host.Outcome.next (withInput_of_input_eq hwaits).symm
  | cons c cs ih =>
    simp only [deliver, List.flatten_cons, List.length_append, runSteps, runStepsWith_add, runStepsWith_append]
    cases hrun : runStepsWith Config.params c.length (s.withInput c) with
    | next t => exact ih t (input_eq_nil_of_runStepsWith hrun)
    | fault r => rfl
    | refused r => rfl

end Sys2Proof.Machine
end

section
/-! SUPPORT. Decoding and encoding (30_encoding.md R60 to R77): what each decoder answers, said once, and that the two maps are inverse. -/

namespace Sys2Proof.Machine

/-! ## What each decoder answers -/

/-- An opcode is decoded exactly when all the bytes that its tag asks for are there (R63, R72). -/
theorem decodeOpcode_eq_ok {t : Byte} {bs rest : List Byte} {i : Instr} :
    decodeOpcode (t :: bs) = .ok (i, rest) ↔
      opLength (kindOf t) ≤ (t :: bs).length ∧ instrOf (kindOf t) (firstFive (t :: bs)) = some i ∧
        (t :: bs).drop (opLength (kindOf t)) = rest := by
  obtain ⟨j, hj⟩ := instrOf_eq_some (kindOf_ne_none t) (firstFive (t :: bs))
  by_cases hshort : (t :: bs).length < opLength (kindOf t)
  · have herror : decodeOpcode (t :: bs) = .error .truncated := if_pos hshort
    simp only [herror, reduceCtorEq, false_iff]
    exact fun h => absurd h.1 (Nat.not_le.2 hshort)
  · have hok : decodeOpcode (t :: bs) = .ok (j, (t :: bs).drop (opLength (kindOf t))) := by
      simp only [decodeOpcode, if_neg hshort, hj]
    simp only [hok, hj, Nat.not_lt.1 hshort, Except.ok.injEq, Prod.mk.injEq, Option.some.injEq, true_and]

theorem decodeHeader_eq_ok {bs rest : List Byte} {i : Instr} :
    decodeHeader bs = .ok (i, rest) ↔ 14 ≤ bs.length ∧ headerOf (firstFourteen bs) = i ∧ bs.drop 14 = rest := by
  cases bs with
  | nil => simp [decodeHeader]
  | cons b bs =>
    by_cases hshort : (b :: bs).length < 14
    · have herror : decodeHeader (b :: bs) = .error .truncated := if_pos hshort
      simp only [herror, reduceCtorEq, false_iff]
      exact fun h => absurd h.1 (Nat.not_le.2 hshort)
    · have hok : decodeHeader (b :: bs) = .ok (headerOf (firstFourteen (b :: bs)), (b :: bs).drop 14) := if_neg hshort
      simp only [hok, Nat.not_lt.1 hshort, Except.ok.injEq, Prod.mk.injEq, true_and]

theorem decodeTrailer_eq_ok {bs rest : List Byte} {i : Instr} :
    decodeTrailer bs = .ok (i, rest) ↔ i = .trailer ∧ trailerBytes ++ rest = bs := by
  constructor
  · intro h
    cases bs with
    | nil => cases h
    | cons b bs =>
      simp only [decodeTrailer] at h
      split at h
      · cases h
      · split at h
        case isTrue htake =>
          cases h
          exact ⟨rfl, by rw [← htake, List.take_append_drop]⟩
        case isFalse => cases h
  · rintro ⟨rfl, rfl⟩
    rfl

/-! ## The bytes of an opcode -/

theorem take_firstFive {n : Nat} (hn : n ≤ 5) {bs : List Byte} (hlen : n ≤ bs.length) :
    (firstFive bs).toList.take n = bs.take n := by
  refine List.ext_getElem (by simp [hlen, hn]) fun j hj _ => ?_
  have hj5 : j < 5 := by simp at hj; omega
  have hjbs : j < bs.length := by simp at hj; omega
  simp only [List.getElem_take, Vector.getElem_toList]
  unfold firstFive
  interval_cases j <;> simp [hjbs]

/-- The bytes of a HEADER record. -/
theorem toList_firstFourteen {bs : List Byte} (hlen : 14 ≤ bs.length) : (firstFourteen bs).toList = bs.take 14 := by
  refine List.ext_getElem (by simp [hlen]) fun j hj _ => ?_
  have hj14 : j < 14 := by simpa using hj
  have hjbs : j < bs.length := by omega
  simp only [List.getElem_take, Vector.getElem_toList]
  unfold firstFourteen
  interval_cases j <;> simp [hjbs]

theorem opLength_le_five (k : Op) : opLength k ≤ 5 := by cases k <;> decide

/-- The bytes that an opcode is read from spell it, and it is well-formed (R65 to R70, R74). -/
theorem encode_of_instrOf {v : Vector Byte 5} {i : Instr} (h : instrOf (kindOf v[0]) v = some i) :
    i.wellFormed = true ∧ encode i = v.toList.take (opLength (kindOf v[0])) := by
  obtain ⟨hrgb, hrgba, hindex, hdiff, hluma, hrun, _⟩ := kindOf_inversion v[0]
  have hbytes : v.toList = [v[0], v[1], v[2], v[3], v[4]] := by
    obtain ⟨⟨bs⟩, hsize⟩ := v
    match bs, hsize with
    | [_, _, _, _, _], _ => rfl
  rw [hbytes]
  cases hk : kindOf v[0] <;> rw [hk] at h <;> cases h
  case rgb => exact ⟨rfl, by rw [hrgb hk]; rfl⟩
  case rgba => exact ⟨rfl, by rw [hrgba hk]; rfl⟩
  case index => exact ⟨rfl, congrArg ([·]) (hindex hk)⟩
  case diff => exact ⟨rfl, congrArg ([·]) (hdiff hk)⟩
  case luma => exact ⟨rfl, congrArg₂ ([·, ·]) (hluma hk) (nibbles_append v[1])⟩
  case run => exact ⟨decide_eq_true (hrun hk).2, congrArg ([·]) (hrun hk).1⟩

theorem length_of_instrOf {k : Op} {v : Vector Byte 5} {i : Instr} (h : instrOf k v = some i) : i.length = opLength k := by
  cases k <;> cases h <;> rfl

/-! ## Decode after encode -/

/-- What is left to show of one opcode: the kind of its tag, and that its fields are read back from its bytes. -/
theorem decodeOpcode_append {t : Byte} {ds rest : List Byte} {k : Op} {i : Instr} (hkind : kindOf t = k)
    (hlen : opLength k = ds.length + 1) (hi : instrOf k (firstFive (t :: ds ++ rest)) = some i) :
    decodeOpcode (t :: ds ++ rest) = .ok (i, rest) := by
  subst hkind
  refine decodeOpcode_eq_ok.2 ⟨by simp [hlen], hi, ?_⟩
  rw [hlen]
  exact List.drop_left' (l₁ := t :: ds) rfl

theorem decodeHeader_append (v : Vector Byte 14) (rest : List Byte) :
    decodeHeader (v.toList ++ rest) = .ok (headerOf v, rest) :=
  decodeHeader_eq_ok.2 ⟨by simp, by rw [firstFourteen_append], List.drop_left' (by simp)⟩

theorem decode_encode (i : Instr) (rest : List Byte) (hwf : i.wellFormed = true) :
    decode i.space (encode i ++ rest) = .ok (i, rest) := by
  cases i with
  | rgb r g b => exact decodeOpcode_append (t := 0xFE) (ds := [r, g, b]) (k := .rgb) (by decide) rfl rfl
  | rgba r g b a => exact decodeOpcode_append (t := 0xFF) (ds := [r, g, b, a]) (k := .rgba) (by decide) rfl rfl
  | index idx =>
    obtain ⟨hkind, hidx⟩ := kindOf_index idx
    exact decodeOpcode_append hkind rfl (congrArg (fun x => some (Instr.index x)) hidx)
  | diff fr fg fb =>
    obtain ⟨hkind, hr, hg, hb⟩ := kindOf_diff fr fg fb
    refine decodeOpcode_append hkind rfl ?_
    simp only [instrOf, firstFive, List.cons_append, List.getD_cons_zero, Vector.getElem_mk, List.getElem_toArray,
      List.getElem_cons_zero, hr, hg, hb]
  | luma fg frg fbg =>
    obtain ⟨hkind, hg⟩ := kindOf_luma fg
    obtain ⟨hrg, hbg⟩ := nibbles frg fbg
    refine decodeOpcode_append hkind rfl ?_
    simp only [instrOf, firstFive, List.cons_append, List.getD_cons_zero, List.getD_cons_succ, Vector.getElem_mk,
      List.getElem_toArray, List.getElem_cons_zero, List.getElem_cons_succ, hg, hrg, hbg]
  | run frun =>
    obtain ⟨hkind, hrun⟩ := kindOf_run frun (of_decide_eq_true hwf)
    exact decodeOpcode_append hkind rfl (congrArg (fun x => some (Instr.run x)) hrun)
  | header m w h c cs =>
    have hdecode := decodeHeader_append (headerBytes m w h c cs) rest
    rwa [headerOf_headerBytes] at hdecode
  | trailer => exact decodeTrailer_eq_ok.2 ⟨rfl, rfl⟩

/-- Settles O6: the tag tells the kind, and every field is read back from its place. -/
theorem decodeOfEncodeIsIdentity : Obligations.DecodeOfEncodeIsIdentity := decode_encode

/-! ## Encode after decode -/

theorem encode_of_decodeOpcode {bs rest : List Byte} {i : Instr} (h : decodeOpcode bs = .ok (i, rest)) :
    i.wellFormed = true ∧ i.space = .ops ∧ encode i ++ rest = bs := by
  cases bs with
  | nil => cases h
  | cons t bs =>
    obtain ⟨hlen, hi, rfl⟩ := decodeOpcode_eq_ok.1 h
    obtain ⟨hwf, hencode⟩ := encode_of_instrOf (v := firstFive (t :: bs)) hi
    have hbytes : encode i = (t :: bs).take (opLength (kindOf t)) :=
      hencode.trans (take_firstFive (opLength_le_five _) hlen)
    exact ⟨hwf, instrOf_space hi, by rw [hbytes, List.take_append_drop]⟩

theorem encode_headerOf (v : Vector Byte 14) : encode (headerOf v) = v.toList :=
  congrArg Vector.toList (headerBytes_of_headerOf rfl)

/-- Settles O7: in each space the bytes that are read are spelt again. -/
theorem decodedBytesAreTheEncoding : Obligations.DecodedBytesAreTheEncoding := by
  intro sp bs i rest h
  cases sp with
  | header =>
    obtain ⟨hlen, rfl, rfl⟩ := decodeHeader_eq_ok.1 h
    exact ⟨rfl, rfl, by rw [encode_headerOf, toList_firstFourteen hlen, List.take_append_drop]⟩
  | ops => exact encode_of_decodeOpcode h
  | trailer =>
    obtain ⟨rfl, rfl⟩ := decodeTrailer_eq_ok.1 h
    exact ⟨rfl, rfl, rfl⟩

/-! ## The tag map and whole opcodes -/

/-- Settles O8, byte by byte over the 256 of the map. -/
theorem tagMapIsComplete : Obligations.TagMapIsComplete := by
  unfold Obligations.TagMapIsComplete
  decide

/-- Settles O9: every tag names a kind, and no kind is longer than five bytes. -/
theorem noOpcodeBytesAreIllegal : Obligations.NoOpcodeBytesAreIllegal := by
  intro b0 b1 b2 b3 b4 rest
  obtain ⟨i, hi⟩ := instrOf_eq_some (kindOf_ne_none b0) (firstFive (b0 :: b1 :: b2 :: b3 :: b4 :: rest))
  have hlen : opLength (kindOf b0) ≤ (b0 :: b1 :: b2 :: b3 :: b4 :: rest).length :=
    (opLength_le_five _).trans (by simp)
  exact ⟨i, decodeOpcode_eq_ok.2 ⟨hlen, hi, by rw [length_of_instrOf hi]⟩⟩

/-- Settles O10: each word is the encoding of its instruction. -/
theorem wordsOfTheSpecDecode : Obligations.WordsOfTheSpecDecode :=
  ⟨decode_encode (.rgb 10 20 30) [] rfl, decode_encode (.rgba 10 20 30 255) [] rfl, decode_encode (.index 53) [] rfl,
    decode_encode (.diff 0 3 1) [] rfl, decode_encode (.luma 37 6 11) [] rfl, decode_encode (.run 61) [] rfl,
    decode_encode (.header 0x716F6966 0x01020304 0x0A0B0C0D 3 1) [] rfl, decode_encode .trailer [] rfl⟩

/-! ## Operands (R71) -/

/-- A bit field of a byte, as a number. -/
theorem toNat_field (t : Byte) (start len : Nat) : (t.extractLsb' start len).toNat = t.toNat / 2 ^ start % 2 ^ len := by
  rw [BitVec.extractLsb'_toNat, Nat.shiftRight_eq_div_pow]

theorem toNat_lowField (t : Byte) (len : Nat) : (t.extractLsb' 0 len).toNat = t.toNat % 2 ^ len := by
  rw [toNat_field, pow_zero, Nat.div_one]

theorem toNat_diffFields (t : Byte) :
    (t.extractLsb' 4 2).toNat = t.toNat / 16 % 4 ∧ (t.extractLsb' 2 2).toNat = t.toNat / 4 % 4 ∧
      (t.extractLsb' 0 2).toNat = t.toNat % 4 :=
  ⟨toNat_field t 4 2, toNat_field t 2 2, toNat_lowField t 2⟩

theorem toNat_nibbles (t : Byte) :
    (t.extractLsb' 4 4).toNat = t.toNat / 16 ∧ (t.extractLsb' 0 4).toNat = t.toNat % 16 := by
  have hlt := t.isLt
  have hhigh := toNat_field t 4 4
  exact ⟨by omega, toNat_lowField t 4⟩

/-- The operands of a HEADER record are the numbers that its bytes spell, and its last two bytes. -/
theorem headerOf_fields (v : Vector Byte 14) (m w h : BitVec 32) (c cs : Byte) (e : headerOf v = .header m w h c cs) :
    w.toNat = v[4].toNat * 2 ^ 24 + v[5].toNat * 2 ^ 16 + v[6].toNat * 2 ^ 8 + v[7].toNat ∧
    h.toNat = v[8].toNat * 2 ^ 24 + v[9].toNat * 2 ^ 16 + v[10].toNat * 2 ^ 8 + v[11].toNat ∧ c = v[12] ∧ cs = v[13] := by
  cases e
  exact ⟨be32_toNat _ _ _ _, be32_toNat _ _ _ _, rfl, rfl⟩

/-- The operands of each opcode kind, in terms of its bytes as numbers. -/
theorem instrOf_fields (v : Vector Byte 5) :
    instrOf .rgb v = some (.rgb v[1] v[2] v[3]) ∧ instrOf .rgba v = some (.rgba v[1] v[2] v[3] v[4]) ∧
    (∃ idx, instrOf .index v = some (.index idx) ∧ idx.toNat = v[0].toNat % 64) ∧
    (∃ fr fg fb, instrOf .diff v = some (.diff fr fg fb) ∧
      fr.toNat = v[0].toNat / 16 % 4 ∧ fg.toNat = v[0].toNat / 4 % 4 ∧ fb.toNat = v[0].toNat % 4) ∧
    (∃ fg frg fbg, instrOf .luma v = some (.luma fg frg fbg) ∧
      fg.toNat = v[0].toNat % 64 ∧ frg.toNat = v[1].toNat / 16 ∧ fbg.toNat = v[1].toNat % 16) ∧
    (∃ frun, instrOf .run v = some (.run frun) ∧ frun.toNat = v[0].toNat % 64) :=
  ⟨rfl, rfl, ⟨_, rfl, toNat_lowField _ 6⟩, ⟨_, _, _, rfl, toNat_diffFields _⟩,
    ⟨_, _, _, rfl, toNat_lowField _ 6, toNat_nibbles _⟩, ⟨_, rfl, toNat_lowField _ 6⟩⟩

/-- A biased field of `n` bits takes every value from `-k` up. -/
theorem unbias_range {n : Nat} (k : Nat) (f : BitVec n) : -(k : Int) ≤ unbias k f ∧ unbias k f < 2 ^ n - k := by
  have hlt : (f.toNat : Int) < 2 ^ n := by exact_mod_cast f.isLt
  exact ⟨by simp only [unbias]; omega, by simp only [unbias]; linarith⟩

theorem diffDelta_excess2_range (f : BitVec 2) :
    diffDelta .excess2 f = (f.toNat : Int) - 2 ∧ -2 ≤ diffDelta .excess2 f ∧ diffDelta .excess2 f ≤ 1 := by
  obtain ⟨hlow, hhigh⟩ := unbias_range 2 f
  exact ⟨rfl, hlow, Int.lt_add_one_iff.1 hhigh⟩

theorem diffDelta_twosComplement_range :
    ∀ f : BitVec 2, -2 ≤ diffDelta .twosComplement f ∧ diffDelta .twosComplement f ≤ 1 := by
  decide

theorem lumaDg_range (f : BitVec 6) : lumaDg f = (f.toNat : Int) - 32 ∧ -32 ≤ lumaDg f ∧ lumaDg f ≤ 31 := by
  obtain ⟨hlow, hhigh⟩ := unbias_range 32 f
  exact ⟨rfl, hlow, Int.lt_add_one_iff.1 hhigh⟩

theorem lumaCross_range (f : BitVec 4) : lumaCross f = (f.toNat : Int) - 8 ∧ -8 ≤ lumaCross f ∧ lumaCross f ≤ 7 := by
  obtain ⟨hlow, hhigh⟩ := unbias_range 8 f
  exact ⟨rfl, hlow, Int.lt_add_one_iff.1 hhigh⟩

theorem lumaDelta_range (f : BitVec 6) (g : BitVec 4) :
    lumaDelta f g = lumaCross g + lumaDg f ∧ -40 ≤ lumaDelta f g ∧ lumaDelta f g ≤ 38 := by
  obtain ⟨_, hdgLow, hdgHigh⟩ := lumaDg_range f
  obtain ⟨_, hcrossLow, hcrossHigh⟩ := lumaCross_range g
  refine ⟨rfl, ?_, ?_⟩ <;> unfold lumaDelta <;> omega

theorem runLength_range (f : BitVec 6) (hwf : (Instr.run f).wellFormed = true) :
    runLength f = f.toNat + 1 ∧ 1 ≤ runLength f ∧ runLength f ≤ 62 :=
  ⟨rfl, Nat.le_add_left 1 _, of_decide_eq_true hwf⟩

/-- Settles O27: the fields as numbers, the range of each operand, and the words at both of its ends. -/
theorem operandsAreAssembledAsStated : Obligations.OperandsAreAssembledAsStated :=
  ⟨headerOf_fields, rfl, rfl, instrOf_fields, fun _ => ⟨rfl, rfl⟩, rfl, rfl,
    diffDelta_excess2_range, rfl, rfl, rfl, rfl,
    diffDelta_twosComplement_range, rfl, rfl, rfl, rfl,
    lumaDg_range, rfl, rfl, lumaCross_range, rfl, rfl, lumaDelta_range, rfl, rfl, runLength_range, rfl, rfl⟩

end Sys2Proof.Machine
end

section
/-! SUPPORT. A record delivered byte by byte is run as a whole (40_stream_sequencer.md R100): for each space, by induction on the bytes that are
still to come. -/

namespace Sys2Proof.Machine

/-! ## Accepting events one after the other -/

/-- Some events are accepted in order; a fault or a refusal ends it. -/
def acceptAll (P : Params) : List InputEvent → State → Host.Outcome State Fault Refusal
  | [], s => .next s
  | e :: es, s => thenDo (accept P e s) (acceptAll P es)

/-- A run over the next events accepts them, and the events behind them wait. -/
theorem runStepsWith_eq_acceptAll (P : Params) (es rest : List InputEvent) (s : State) :
    runStepsWith P es.length (s.withInput (es ++ rest)) = thenDo (acceptAll P es s) fun t => .next (t.withInput rest) := by
  induction es generalizing s with
  | nil => rfl
  | cons e es ih =>
    simp only [List.length_cons, List.cons_append, runStepsWith, stepWith_cons, accept_withInput P e s, acceptAll]
    cases accept P e s with
    | next u => exact ih u
    | fault r => rfl
    | refused r => rfl

theorem acceptAll_append {P : Params} {es : List InputEvent} {s t : State} (h : acceptAll P es s = .next t)
    (es' : List InputEvent) : acceptAll P (es ++ es') s = acceptAll P es' t := by
  induction es generalizing s with
  | nil =>
    cases h
    rfl
  | cons e es ih =>
    obtain ⟨u, hu, hrest⟩ := thenDo_eq_next h
    simp only [List.cons_append, acceptAll, hu, thenDo_next]
    exact ih hrest

@[simp] theorem acceptAll_singleton (P : Params) (e : InputEvent) (s : State) : acceptAll P [e] s = accept P e s := by
  simp only [acceptAll]
  cases accept P e s <;> rfl

theorem acceptAll_cons_next {P : Params} {e : InputEvent} {s t : State} (h : accept P e s = .next t) (es : List InputEvent) :
    acceptAll P (e :: es) s = acceptAll P es t := by
  simp only [acceptAll, h, thenDo_next]

@[simp] theorem byteEvents_cons (b : Byte) (bs : List Byte) : byteEvents (b :: bs) = .byte b :: byteEvents bs := rfl

@[simp] theorem byteEvents_append (bs bs' : List Byte) : byteEvents (bs ++ bs') = byteEvents bs ++ byteEvents bs' :=
  List.map_append

/-! ## The bytes of a record received so far -/

/-- The first `n` bytes of the record `bs` stand in `buf`. -/
def Received {size : Nat} (n : Nat) (buf : Vector Byte size) (bs : List Byte) : Prop := ∀ j, j < n → buf[j]? = bs[j]?

theorem Received.store {size n : Nat} {buf : Vector Byte size} {bs : List Byte} (h : Received n buf bs) (hsize : n < size)
    (hn : n < bs.length) : Received (n + 1) (buf.setIfInBounds n bs[n]) bs := by
  intro j hj
  by_cases heq : n = j
  · subst heq
    simp [hsize, hn]
  · rw [Vector.getElem?_setIfInBounds_ne heq]
    exact h j (by omega)

theorem Received.eq {size : Nat} {buf v : Vector Byte size} (h : Received size buf v.toList) : buf = v := by
  refine Vector.ext fun j hj => ?_
  simpa [hj] using h j hj

/-- The events of the bytes that are still to come. -/
theorem byteEvents_drop {bs : List Byte} {n : Nat} (h : n < bs.length) :
    byteEvents (bs.drop n) = .byte bs[n] :: byteEvents (bs.drop (n + 1)) := by
  rw [List.drop_eq_getElem_cons h, byteEvents_cons]

/-- The last byte of a record. -/
theorem byteEvents_drop_last {bs : List Byte} {n : Nat} (h : bs.length = n + 1) :
    byteEvents (bs.drop n) = [.byte bs[n]] := by
  rw [byteEvents_drop (by omega), List.drop_eq_nil_of_le (by omega)]
  rfl

/-! ## HEADER -/

theorem accept_byte_header (P : Params) (b : Byte) {s : State} (hphase : s.phase = .header) :
    accept P (.byte b) s = headerByte P b s := by
  simp only [accept, byteEvent, hphase]

/-- The last byte runs HEADER, which writes the whole of `hbuf` and `hcnt`: that they hold the record already does not matter. -/
theorem headerByte_last (P : Params) {b : Byte} {v : Vector Byte 14} {s : State} (hlast : s.hcnt + 1 = 14)
    (hbuf : (s.storeHeaderByte b).hbuf = v) : headerByte P b s = execWith P (headerOf v) s := by
  have hrun : headerByte P b s = execWith P (headerOf (s.storeHeaderByte b).hbuf) (s.storeHeaderByte b) := if_pos hlast
  rw [hrun, hbuf]
  rfl

/-- 41_header.md R110, by induction on how many bytes are to come before the last one. -/
theorem acceptAll_headerBytes (P : Params) (v : Vector Byte 14) (m : Nat) {s : State} (hphase : s.phase = .header)
    (hcnt : s.hcnt.toNat + m = 13) (hreceived : Received s.hcnt.toNat s.hbuf v.toList) :
    acceptAll P (byteEvents (v.toList.drop s.hcnt.toNat)) s = execWith P (headerOf v) s := by
  have hlen : v.toList.length = 14 := v.length_toList
  induction m generalizing s with
  | zero =>
    have hlast : s.hcnt + 1 = 14 := by bv_omega
    have hstored := hreceived.store (by omega) (by omega)
    rw [show s.hcnt.toNat + 1 = 14 from congrArg (· + 1) hcnt] at hstored
    rw [byteEvents_drop_last (by omega), acceptAll_singleton, accept_byte_header P _ hphase]
    exact headerByte_last P hlast hstored.eq
  | succ m ih =>
    have hmore : s.hcnt + 1 ≠ 14 := by bv_omega
    have hsucc : (s.hcnt + 1).toNat = s.hcnt.toNat + 1 := by bv_omega
    have hstored := hreceived.store (by omega) (by omega)
    rw [← hsucc] at hstored
    have hnext := (accept_byte_header P v.toList[s.hcnt.toNat] hphase).trans (if_neg hmore)
    rw [byteEvents_drop (by omega), acceptAll_cons_next hnext, ← hsucc]
    exact ih (s := s.storeHeaderByte _) hphase (by rw [State.storeHeaderByte_hcnt]; omega) hstored

/-! ## Opcodes -/

theorem accept_byte_ops (P : Params) (b : Byte) {s : State} (hphase : s.phase = .ops) :
    accept P (.byte b) s = opcodeByte P b s := by
  simp only [accept, byteEvent, hphase]

theorem opcodeByte_tag (P : Params) (b : Byte) {s : State} (hop : s.op = .none) :
    opcodeByte P b s = if opLength (kindOf b) = 1 then runAssembled P (s.storeTag b) else .next (s.storeTag b) := by
  simp only [opcodeByte, hop]

theorem opcodeByte_data (P : Params) (b : Byte) {s : State} (hop : s.op = .rgb ∨ s.op = .rgba ∨ s.op = .luma) :
    opcodeByte P b s =
      if s.cnt.toNat + 1 = opLength s.op then runAssembled P (s.storeData b) else .next (s.storeData b) := by
  rcases hop with hop | hop | hop <;> simp only [opcodeByte, hop, opLength]

/-- An opcode is read from its own bytes, whatever stands behind them. -/
theorem instrOf_received {k : Op} {v : Vector Byte 5} {bs : List Byte} {i : Instr} (hlen : bs.length = opLength k)
    (hreceived : Received bs.length v bs) (hi : instrOf k (firstFive bs) = some i) : instrOf k v = some i := by
  rw [← hi]
  refine instrOf_congr fun j hj hjk => ?_
  have hjbs : j < bs.length := by omega
  have hv : v[j] = bs[j] := by simpa [hj, hjbs] using hreceived j hjbs
  rw [hv]
  unfold firstFive
  interval_cases j <;> simp [hjbs]

/-- The last byte runs the opcode, whose end forgets the assembly registers. -/
theorem runAssembled_received (P : Params) {s : State} {o : Op} {sc : Vector Byte 5} {n : BitVec 3} {bs : List Byte} {i : Instr}
    (hlen : bs.length = opLength o) (hreceived : Received bs.length sc bs) (hi : instrOf o (firstFive bs) = some i) :
    runAssembled P { s with op := o, scratch := sc, cnt := n } = execWith P i s := by
  rw [runAssembled_of (instrOf_received hlen hreceived hi)]
  exact execWith_assembling P (instrOf_space hi) s o sc n

/-- 42_opcodes.md R126, by induction on how many data bytes are to come before the last one. -/
theorem acceptAll_dataBytes (P : Params) {bs : List Byte} {i : Instr} (m : Nat) {s : State} (hphase : s.phase = .ops)
    (hop : s.op = .rgb ∨ s.op = .rgba ∨ s.op = .luma) (hlen : bs.length = opLength s.op)
    (hi : instrOf s.op (firstFive bs) = some i) (hcnt : s.cnt.toNat + (m + 1) = bs.length)
    (hreceived : Received s.cnt.toNat s.scratch bs) :
    acceptAll P (byteEvents (bs.drop s.cnt.toNat)) s = execWith P i s := by
  have hfive := opLength_le_five s.op
  induction m generalizing s with
  | zero =>
    have hstored := hreceived.store (by omega) (by omega)
    rw [hcnt] at hstored
    have hlast : s.cnt.toNat + 1 = opLength s.op := hcnt.trans hlen
    rw [byteEvents_drop_last hcnt.symm, acceptAll_singleton, accept_byte_ops P _ hphase, opcodeByte_data P _ hop, if_pos hlast]
    exact runAssembled_received P hlen hstored hi
  | succ m ih =>
    have hmore : ¬ s.cnt.toNat + 1 = opLength s.op := by omega
    have hsucc : (s.cnt + 1).toNat = s.cnt.toNat + 1 := by bv_omega
    have hstored := hreceived.store (by omega) (by omega)
    rw [← hsucc] at hstored
    have hnext := (accept_byte_ops P bs[s.cnt.toNat] hphase).trans ((opcodeByte_data P _ hop).trans (if_neg hmore))
    rw [byteEvents_drop (by omega), acceptAll_cons_next hnext, ← hsucc]
    refine (ih (s := s.storeData _) hphase hop hlen hi (by rw [State.storeData_cnt]; omega) hstored hfive).trans ?_
    exact execWith_assembling P (instrOf_space hi) s _ _ _

/-- 42_opcodes.md R125: the tag byte completes the opcode, or its data bytes do. -/
theorem acceptAll_opcode (P : Params) {t : Byte} {ds : List Byte} {i : Instr} {s : State} (hphase : s.phase = .ops)
    (hop : s.op = .none) (hlen : (t :: ds).length = opLength (kindOf t))
    (hi : instrOf (kindOf t) (firstFive (t :: ds)) = some i) : acceptAll P (byteEvents (t :: ds)) s = execWith P i s := by
  have hreceived : Received 1 (s.storeTag t).scratch (t :: ds) := by
    intro j hj
    obtain rfl : j = 0 := by omega
    simp
  have htag := (accept_byte_ops P t hphase).trans (opcodeByte_tag P t hop)
  by_cases hone : opLength (kindOf t) = 1
  · obtain rfl : ds = [] := List.length_eq_zero_iff.1 (by simpa [hone] using hlen)
    rw [if_pos hone] at htag
    refine (acceptAll_singleton P _ s).trans (htag.trans ?_)
    exact runAssembled_received P hlen hreceived hi
  · rw [if_neg hone] at htag
    obtain ⟨m, hm⟩ : ∃ m, 1 + (m + 1) = (t :: ds).length := ⟨ds.length - 1, by simp at hlen ⊢; omega⟩
    refine (acceptAll_cons_next htag _).trans ?_
    refine (acceptAll_dataBytes P (s := s.storeTag t) m hphase (kindOf_waits t hone) hlen hi hm hreceived).trans ?_
    exact execWith_assembling P (instrOf_space hi) s _ _ _

/-! ## TRAILER -/

theorem accept_byte_trailer (P : Params) (b : Byte) {s : State} (hphase : s.phase = .trailer) :
    accept P (.byte b) s = trailerByte P b s := by
  simp only [accept, byteEvent, hphase]

theorem getElem_trailerBytes {n : Nat} (h : n < trailerBytes.length) : trailerBytes[n] = trailerExpected n := by
  simp [trailerBytes]

theorem trailerByte_last (P : Params) {b : Byte} {s : State} (hlast : s.tcnt.toNat = 7) (hb : b = trailerExpected s.tcnt.toNat) :
    trailerByte P b s = .next s.verifyTrailer := by
  rcases trailerByte_cases P b s with ⟨_, hfull | hbad⟩ | ⟨e, _⟩ | ⟨_, hmore, _⟩
  · omega
  · exact absurd hb hbad
  · exact e
  · omega

theorem trailerByte_more (P : Params) {b : Byte} {s : State} (hmore : s.tcnt.toNat < 7) (hb : b = trailerExpected s.tcnt.toNat) :
    trailerByte P b s = .next s.bumpTrailer := by
  rcases trailerByte_cases P b s with ⟨_, hfull | hbad⟩ | ⟨_, hlast, _⟩ | ⟨e, _⟩
  · omega
  · exact absurd hb hbad
  · omega
  · exact e

/-- 44_trailer.md R160, by induction on how many bytes are to come before the last one. -/
theorem acceptAll_trailerBytes (P : Params) (m : Nat) {s : State} (hphase : s.phase = .trailer) (hcnt : s.tcnt.toNat + m = 7) :
    acceptAll P (byteEvents (trailerBytes.drop s.tcnt.toNat)) s = .next s.verifyTrailer := by
  have hlen : trailerBytes.length = 8 := rfl
  induction m generalizing s with
  | zero =>
    have hgood := getElem_trailerBytes (n := s.tcnt.toNat) (by omega)
    rw [byteEvents_drop_last (by omega), acceptAll_singleton, accept_byte_trailer P _ hphase]
    exact trailerByte_last P hcnt hgood
  | succ m ih =>
    have hgood := getElem_trailerBytes (n := s.tcnt.toNat) (by omega)
    have hsucc : (s.tcnt + 1).toNat = s.tcnt.toNat + 1 := by bv_omega
    have hnext := (accept_byte_trailer P _ hphase).trans (trailerByte_more P (by omega) hgood)
    rw [byteEvents_drop (by omega), acceptAll_cons_next hnext, ← hsucc]
    exact ih (s := s.bumpTrailer) hphase (by rw [State.bumpTrailer_tcnt]; omega)

/-! ## Records -/

theorem acceptAll_encode_opcode (P : Params) {i : Instr} {s : State} (hspace : i.space = .ops) (hwf : i.wellFormed = true)
    (hphase : s.phase = .ops) (hop : s.op = .none) : acceptAll P (byteEvents (encode i)) s = execWith P i s := by
  have hdecode := decode_encode i [] hwf
  rw [hspace, List.append_nil] at hdecode
  cases hbytes : encode i with
  | nil =>
    rw [hbytes] at hdecode
    cases hdecode
  | cons t ds =>
    rw [hbytes] at hdecode
    obtain ⟨hlen, hi, hrest⟩ := decodeOpcode_eq_ok.1 hdecode
    exact acceptAll_opcode P hphase hop (Nat.le_antisymm (List.drop_eq_nil_iff.1 hrest) hlen) hi

theorem acceptAll_encode_header (P : Params) (m w h : BitVec 32) (c cs : Byte) {s : State} (hphase : s.phase = .header)
    (hcnt : s.hcnt = 0) :
    acceptAll P (byteEvents (encode (.header m w h c cs))) s = execHeaderWith P m w h c cs s := by
  have hnone : s.hcnt.toNat = 0 := by rw [hcnt]; rfl
  have hrun := acceptAll_headerBytes P (headerBytes m w h c cs) 13 hphase (by omega) (fun j hj => by omega)
  rwa [hnone, headerOf_headerBytes] at hrun

theorem acceptAll_encode_trailer (P : Params) {s : State} (hphase : s.phase = .trailer) (hcnt : s.tcnt = 0) :
    acceptAll P (byteEvents (encode .trailer)) s = .next s.verifyTrailer := by
  have hnone : s.tcnt.toNat = 0 := by rw [hcnt]; rfl
  have hrun := acceptAll_trailerBytes P 7 hphase (by omega)
  rwa [hnone] at hrun

end Sys2Proof.Machine
end

section
/-! SUPPORT. A whole stream (30_encoding.md R60): between two records the machine has decoded what the reference decoder has, and the buffer holds
those Pixels. -/

namespace Sys2Proof.Machine

/-! ## An image in the buffer -/

/-- The buffer in which the bytes `bs` are written from offset 0 on. -/
def memoryOf (bs : List Byte) : Memory := bs.mapIdx Prod.mk

theorem memoryOf_bytes (bs : List Byte) : (memoryOf bs).map (·.2) = bs := by
  refine List.ext_getElem (by simp [memoryOf]) fun j _ _ => ?_
  simp [memoryOf]

/-- A write behind every written offset is the last cell. -/
theorem Memory.write_behind {m : Memory} {a : Nat} (h : ∀ x ∈ m, x.1 < a) (v : Byte) : Memory.write m a v = m ++ [(a, v)] := by
  induction m with
  | nil => rfl
  | cons c m ih =>
    obtain ⟨hc, hm⟩ := List.forall_mem_cons.1 h
    rw [Memory.write, if_neg (by omega), if_neg (by omega), ih hm]
    rfl

theorem write_memoryOf (bs : List Byte) (v : Byte) {a : Nat} (ha : a = bs.length) :
    Memory.write (memoryOf bs) a v = memoryOf (bs ++ [v]) := by
  subst ha
  rw [Memory.write_behind (fun x hx => ?_)]
  · simp [memoryOf, List.mapIdx_concat]
  · obtain ⟨j, hj, rfl⟩ := List.mem_mapIdx.1 hx
    exact hj

/-- 20_memory.md R42: a Pixel behind the others. -/
theorem writePixel_memoryOf (img : List Pixel) (p : Pixel) :
    Memory.writePixel (memoryOf (img.flatMap pixelBytes)) (4 * img.length) p =
      memoryOf ((img ++ [p]).flatMap pixelBytes) := by
  have hlen : (img.flatMap pixelBytes).length = 4 * img.length := by
    induction img with
    | nil => rfl
    | cons q img ih => simp [pixelBytes, ih]; omega
  rw [Memory.writePixel, write_memoryOf _ p.r (by simp [hlen]), write_memoryOf _ p.g (by simp [hlen]),
    write_memoryOf _ p.b (by simp [hlen]), write_memoryOf _ p.a (by simp [hlen])]
  simp [pixelBytes]

/-! ## The reference decoder's Pixels are the machine's -/

/-- 42_opcodes.md R136: a delta added over the integers wraps as it does on the 8-bit lane. -/
theorem addChannel_eq_add (v : Byte) (d : Int) : addChannel v d = v + BitVec.ofInt 8 d := by
  rw [addChannel, BitVec.ofInt_add, BitVec.ofInt_natCast, BitVec.ofNat_toNat, BitVec.setWidth_eq]

theorem ofInt_diffDelta (c : DiffCoding) : ∀ f : BitVec 2, BitVec.ofInt 8 (diffDelta c f) = refDiff c f := by
  cases c <;> decide

theorem ofInt_lumaDg : ∀ f : BitVec 6, BitVec.ofInt 8 (lumaDg f) = f.setWidth 8 - 32 := by decide

theorem ofInt_lumaCross : ∀ f : BitVec 4, BitVec.ofInt 8 (lumaCross f) = f.setWidth 8 - 8 := by decide

/-- What the reference decoder makes of one opcode, from the Pixel and the cache that the machine holds. -/
def refPixelsAt (P : Params) (i : Instr) (s : State) : List Pixel := refPixels P.diffCoding i s.px (cacheLookup s.cache)

/-- What it makes of the opcodes still to come. -/
def refDecodeAt (P : Params) (ops : List Instr) (s : State) : List Pixel :=
  refDecode P.diffCoding ops s.px (cacheLookup s.cache)

@[simp] theorem refDecodeAt_nil (P : Params) (s : State) : refDecodeAt P [] s = [] := rfl

/-- Where its Pixels fit, an opcode has the reference decoder's meaning: copies of one Pixel. -/
theorem refPixelsAt_eq_replicate (P : Params) {i : Instr} {s : State} (hspace : i.space = .ops)
    (hfit : (refPixelsAt P i s).length ≤ s.room) :
    refPixelsAt P i s = List.replicate (opcodeCount i s) (opcodePixel P i s) := by
  cases i with
  | rgb r g b => rfl
  | rgba r g b a => rfl
  | index idx => rfl
  | diff fr fg fb =>
    simp only [refPixelsAt, refPixels, opcodePixel, opcodeCount, Pixel.addDeltas, addChannel_eq_add, ofInt_diffDelta,
      List.replicate_one]
  | luma fg frg fbg =>
    simp only [refPixelsAt, refPixels, opcodePixel, opcodeCount, Pixel.addDeltas, lumaDelta, addChannel_eq_add,
      BitVec.ofInt_add, ofInt_lumaDg, ofInt_lumaCross, BitVec.add_assoc, List.replicate_one]
  | run frun =>
    rw [refPixelsAt, refPixels, List.length_replicate] at hfit
    have hcount : opcodeCount (.run frun) s = frun.toNat + 1 := Nat.min_eq_left hfit
    rw [hcount]
    rfl
  | header _ _ _ _ _ => cases hspace
  | trailer => cases hspace

theorem not_refusedRun_of_fit (P : Params) {i : Instr} {s : State} (hfit : (refPixelsAt P i s).length ≤ s.room) :
    ¬ RefusedRun P i s := by
  rintro ⟨_, frun, rfl, hlong⟩
  rw [refPixelsAt, refPixels, List.length_replicate] at hfit
  exact absurd hlong (Nat.not_lt.2 hfit)

theorem emittedRun_px (p : Pixel) (k : Nat) (s : State) : (s.emittedRun p k).px = (List.replicate k p).getLastD s.px := by
  induction k generalizing s with
  | zero => rfl
  | succ k ih =>
    rw [List.replicate_succ, List.getLastD_cons]
    exact ih (s.emitted p)

theorem cacheLookup_store (cache : Vector Pixel 64) (p : Pixel) :
    cacheLookup (cacheStore cache p) = fun i => if i = hashSlot p then p else cacheLookup cache i := by
  funext i
  split
  case isTrue h => rw [h, cacheLookup_store_same]
  case isFalse h => exact cacheLookup_store_other cache p i h

theorem emittedRun_cache (p : Pixel) (k : Nat) (s : State) :
    cacheLookup (s.emittedRun p k).cache = refStore (cacheLookup s.cache) (List.replicate k p) := by
  induction k generalizing s with
  | zero => rfl
  | succ k ih =>
    rw [List.replicate_succ, refStore, ← cacheLookup_store]
    exact ih (s.emitted p)

/-- After an opcode the machine holds what the reference decoder goes on from. -/
theorem refDecodeAt_cons {P : Params} {i : Instr} {s : State} {k : Nat} {p : Pixel}
    (h : refPixelsAt P i s = List.replicate k p) (ops : List Instr) :
    refDecodeAt P (i :: ops) s = refPixelsAt P i s ++ refDecodeAt P ops (s.emittedRun p k).finish := by
  simp only [refDecodeAt, State.finish_px, State.finish_cache, emittedRun_px, emittedRun_cache, ← h]
  rfl

/-! ## The session between two records -/

/-- The header of a `w` by `h` image is accepted, the Pixels `img` are emitted, and a tag or the trailer is next. -/
structure Decoded (w h : BitVec 32) (img : List Pixel) (s : State) : Prop where
  phase : s.phase = if img.length = w.toNat * h.toNat then .trailer else .ops
  op : s.op = .none
  width : s.width = w
  height : s.height = h
  npix : s.npix.toNat = w.toNat * h.toNat
  wptr : s.wptr.toNat = img.length
  tcnt : s.tcnt = 0
  pb : s.pb = memoryOf (img.flatMap pixelBytes)

section
variable {w h : BitVec 32} {img : List Pixel} {s : State} (hs : Decoded w h img s)
include hs

theorem Decoded.room : s.room = w.toNat * h.toNat - img.length := by
  rw [State.room, hs.npix, hs.wptr]

theorem Decoded.wptr_lt (hmore : img.length < w.toNat * h.toNat) : s.wptr < s.npix := by
  rw [BitVec.lt_def, hs.wptr, hs.npix]
  exact hmore

theorem Decoded.phase_ops (hmore : img.length < w.toNat * h.toNat) : s.phase = .ops := by
  rw [hs.phase, if_neg hmore.ne]

theorem Decoded.finish : Decoded w h img s.finish := { hs with op := rfl }

theorem Decoded.emitted (p : Pixel) (hmore : img.length < w.toNat * h.toNat) : Decoded w h (img ++ [p]) (s.emitted p) := by
  have hroom : s.wptr < s.npix := hs.wptr_lt hmore
  have hwptr : (s.wptr + 1).toNat = (img ++ [p]).length := by rw [wptr_succ_toNat s hroom, hs.wptr]; simp
  exact
    { hs with
      phase := by
        simp only [State.emitted_phase, hs.phase_ops hmore, ← BitVec.toNat_inj, hwptr, hs.npix]
      wptr := hwptr
      pb := by rw [State.emitted_pb, pixelOffset, hs.wptr, hs.pb, writePixel_memoryOf] }

theorem Decoded.emittedRun (p : Pixel) (k : Nat) (hfit : img.length + k ≤ w.toNat * h.toNat) :
    Decoded w h (img ++ List.replicate k p) (s.emittedRun p k) := by
  induction k generalizing img s with
  | zero => simpa using hs
  | succ k ih =>
    have hrest := ih (hs.emitted p (by omega)) (by simp; omega)
    rwa [List.append_assoc] at hrest

/-- One opcode, byte by byte: its Pixels are the reference decoder's, and so are those of the opcodes behind it. -/
theorem Decoded.acceptAll_opcode (P : Params) {i : Instr} (hspace : i.space = .ops) (hwf : i.wellFormed = true)
    (hmore : img.length < w.toNat * h.toNat) (hfit : img.length + (refPixelsAt P i s).length ≤ w.toNat * h.toNat) :
    ∃ t, acceptAll P (byteEvents (encode i)) s = .next t ∧ Decoded w h (img ++ refPixelsAt P i s) t ∧
      ∀ ops, refDecodeAt P (i :: ops) s = refPixelsAt P i s ++ refDecodeAt P ops t := by
  have hroom : s.wptr < s.npix := hs.wptr_lt hmore
  have hfits : (refPixelsAt P i s).length ≤ s.room := by rw [hs.room]; omega
  have hexec := execWith_opcode P i s hspace (not_refusedRun_of_fit P hfits) hroom
  have hpixels := refPixelsAt_eq_replicate P hspace hfits
  have hrun : Decoded w h (img ++ refPixelsAt P i s) (s.emittedRun (opcodePixel P i s) (opcodeCount i s)) := by
    rw [hpixels, List.length_replicate] at hfit
    rw [hpixels]
    exact hs.emittedRun _ _ hfit
  exact ⟨_, (acceptAll_encode_opcode P hspace hwf (hs.phase_ops hmore) hs.op).trans hexec, hrun.finish,
    refDecodeAt_cons hpixels⟩

/-- All opcodes, by induction on them: each finds room, and the Pixels of all fill the buffer. -/
theorem Decoded.acceptAll_opcodes (P : Params) (ops : List Instr) (hops : ∀ i ∈ ops, i.space = .ops ∧ i.wellFormed = true)
    (htotal : img.length + (refDecodeAt P ops s).length = w.toNat * h.toNat)
    (hmore : ∀ k, k < ops.length → img.length + (refDecodeAt P (ops.take k) s).length < w.toNat * h.toNat) :
    ∃ t, acceptAll P (byteEvents (ops.flatMap encode)) s = .next t ∧ Decoded w h (img ++ refDecodeAt P ops s) t := by
  induction ops generalizing img s with
  | nil => exact ⟨s, rfl, by simpa using hs⟩
  | cons i ops ih =>
    obtain ⟨⟨hspace, hwf⟩, hops⟩ := List.forall_mem_cons.1 hops
    have hfirst : img.length < w.toNat * h.toNat := by simpa using hmore 0 (by simp)
    have hfit : img.length + (refPixelsAt P i s).length ≤ w.toNat * h.toNat := by
      rw [refDecodeAt, refDecode, List.length_append] at htotal
      rw [refPixelsAt]
      omega
    obtain ⟨t, hrun, ht, hsplit⟩ := hs.acceptAll_opcode P hspace hwf hfirst hfit
    rw [hsplit, List.length_append] at htotal
    obtain ⟨u, hrest, hu⟩ := ih ht hops (by rw [List.length_append]; omega) (fun k hk => by
      have hk' := hmore (k + 1) (Nat.succ_lt_succ hk)
      rw [List.take_succ_cons, hsplit, List.length_append] at hk'
      rw [List.length_append]
      omega)
    refine ⟨u, ?_, ?_⟩
    · rw [List.flatMap_cons, byteEvents_append, acceptAll_append hrun, hrest]
    · rwa [hsplit, ← List.append_assoc]

/-- The trailer and End complete a full image. -/
theorem Decoded.acceptAll_trailer (P : Params) (hfull : img.length = w.toNat * h.toNat) :
    acceptAll P (byteEvents (encode .trailer) ++ [.endOfStream]) s = .next s.verifyTrailer.complete := by
  have hphase : s.phase = .trailer := by rw [hs.phase, if_pos hfull]
  have hend : endEvent s.verifyTrailer = s.verifyTrailer.complete := by
    simp [endEvent, hphase]
  rw [acceptAll_append (acceptAll_encode_trailer P hphase hs.tcnt), acceptAll_singleton, accept, hend]

theorem Decoded.result_complete :
    s.verifyTrailer.complete.result = some ⟨w, h, img.flatMap pixelBytes⟩ := by
  simp [State.result, hs.width, hs.height, hs.pb, memoryOf_bytes]

end

/-! ## The stream -/

/-- 41_header.md R115: a legal header opens a session without Pixels, with the registers of reset. -/
theorem acceptAll_serialize (P : Params) (w h : BitVec 32) {c cs : Byte} (hc : c = 3 ∨ c = 4) (hcs : cs = 0 ∨ cs = 1)
    (hlimit : w.toNat * h.toNat ≤ P.maxPixels) :
    ∃ t, acceptAll P (byteEvents (serialize P.magic w h c cs)) State.reset = .next t ∧ Decoded w h [] t ∧
      t.px = .seed ∧ cacheLookup t.cache = fun _ => .clear := by
  have hrun := acceptAll_encode_header P P.magic w h c cs (s := State.reset) rfl rfl
  rcases execHeaderWith_cases P P.magic w h c cs State.reset with
    ⟨_, ⟨_, hbad⟩ | ⟨_, _, h3, h4⟩ | ⟨_, _, _, h0, h1⟩, _⟩ | ⟨_, _, _, ⟨hlarge, _⟩ | ⟨_, e⟩⟩
  · exact absurd rfl hbad
  · exact absurd hc (not_or.2 ⟨h3, h4⟩)
  · exact absurd hcs (not_or.2 ⟨h0, h1⟩)
  · omega
  · refine ⟨_, hrun.trans e, ?_, rfl, funext fun i => cacheLookup_replicate _ i⟩
    exact
      { phase := by simp only [State.acceptHeader_phase, List.length_nil, eq_comm]
        op := rfl
        width := rfl
        height := rfl
        npix := npix_toNat w h
        wptr := rfl
        tcnt := rfl
        pb := rfl }

/-- Settles O14: header, opcodes, trailer and End are accepted one after the other. -/
theorem wellFormedStreamDecodesToItsImage : Obligations.WellFormedStreamDecodesToItsImage := by
  intro P w h c cs ops hc hcs hlimit hops htotal hmore
  obtain ⟨t, hheader, ht, hpx, hcache⟩ := acceptAll_serialize P w h hc hcs hlimit
  have himage : ∀ is, refDecodeAt P is t = refImage P.diffCoding is := fun is => by
    rw [refDecodeAt, hpx, hcache, refImage]
  obtain ⟨u, hopcodes, hu⟩ := ht.acceptAll_opcodes P ops hops (by simpa [himage] using htotal) (by simpa [himage] using hmore)
  rw [himage, List.nil_append] at hu
  have hrun : acceptAll P (streamEvents P w h c cs ops) State.reset = .next u.verifyTrailer.complete := by
    simp only [streamEvents, byteEvents_append, List.append_assoc]
    rw [acceptAll_append hheader, acceptAll_append hopcodes]
    exact hu.acceptAll_trailer P htotal
  have hsteps := runStepsWith_eq_acceptAll P (streamEvents P w h c cs ops) [] State.reset
  rw [List.append_nil, hrun, thenDo_next] at hsteps
  exact ⟨_, hsteps, rfl, hu.result_complete⟩

end Sys2Proof.Machine
end

section
/-! SUPPORT. Steps by the event they take (40_stream_sequencer.md R96, R97): End in each phase, and the terminal phases. -/

namespace Sys2Proof.Machine

theorem step_of_input {s : State} {e : InputEvent} {es : List InputEvent} (hin : s.input = e :: es) :
    step s = accept Config.params e (s.withInput es) := by
  unfold step stepWith
  rw [hin]

theorem step_of_endOfStream {s : State} {es : List InputEvent} (hin : s.input = .endOfStream :: es) :
    step s = .next (endEvent (s.withInput es)) := step_of_input hin

theorem endEvent_of_unfinished {s : State} (h : s.phase = .header ∨ s.phase = .ops ∨ s.phase = .trailer ∧ s.tcnt ≠ 8) :
    endEvent s = raise .prematureEndOfStream s := by
  rcases h with hphase | hphase | ⟨hphase, hne⟩
  · simp only [endEvent, hphase]
  · simp only [endEvent, hphase]
  · simp only [endEvent, hphase, if_neg hne]

theorem endEvent_of_verified {s : State} (hphase : s.phase = .trailer) (h8 : s.tcnt = 8) : endEvent s = s.complete := by
  simp only [endEvent, hphase, if_pos h8]

/-- 40_stream_sequencer.md R97. -/
theorem accept_of_terminal (P : Params) (e : InputEvent) {s : State} (hphase : s.phase = .done ∨ s.phase = .failed) :
    accept P e s = .next s := by
  cases e with
  | byte b => rcases hphase with h | h <;> simp only [accept, byteEvent, h]
  | endOfStream => rcases hphase with h | h <;> simp only [accept, endEvent, h]

/-- Settles O42: the terminal phases take every event and do nothing with it. -/
theorem terminalPhasesAbsorbEveryEvent : Obligations.TerminalPhasesAbsorbEveryEvent :=
  fun s e es hphase hin => (step_of_input hin).trans (accept_of_terminal Config.params e (s := s.withInput es) hphase)

/-- Settles O41: End is premature, or completes the session, or is absorbed. -/
theorem endOfStreamEffectByPhase : Obligations.EndOfStreamEffectByPhase := by
  intro s es hin
  rw [step_of_endOfStream hin]
  refine ⟨fun hphase => ?_, fun hphase h8 => ?_, fun hphase hne => ?_, fun hphase => ?_⟩
  · rw [endEvent_of_unfinished (s := s.withInput es) (hphase.imp_right .inl)]
  · rw [endEvent_of_verified (s := s.withInput es) hphase h8]
    rfl
  · rw [endEvent_of_unfinished (s := s.withInput es) (.inr (.inr ⟨hphase, hne⟩))]
  · exact accept_of_terminal Config.params .endOfStream (s := s.withInput es) hphase

end Sys2Proof.Machine
end

section
/-! SUPPORT. Records (40_stream_sequencer.md R93, R100): the steps of all bytes of a record, and the step of its last byte, are its
meaning. -/

namespace Sys2Proof.Machine

/-! ## A whole record -/

theorem length_encode (i : Instr) : (encode i).length = i.length := by
  cases i <;> rfl

theorem execTrailer_of_lt {s : State} (h : s.tcnt.toNat < 8) : execTrailer s = .next s.verifyTrailer := if_neg (Nat.not_le.2 h)

/-- The bytes of a record, accepted one after the other from a start of its space, run it. -/
theorem acceptAll_encode (P : Params) {i : Instr} {s : State} (hwf : i.wellFormed = true) (hstart : AtRecordStart i.space s) :
    acceptAll P (byteEvents (encode i)) s = execWith P i s := by
  have hopcode : i.space = .ops → acceptAll P (byteEvents (encode i)) s = execWith P i s := fun hspace => by
    rw [hspace] at hstart
    exact acceptAll_encode_opcode P hspace hwf hstart.phase hstart.op
  cases i with
  | header m w h c cs =>
    obtain ⟨hphase, hhcnt⟩ := hstart
    exact acceptAll_encode_header P m w h c cs hphase hhcnt
  | trailer =>
    obtain ⟨hphase, htcnt⟩ := hstart
    have hnone : s.tcnt.toNat < 8 := by rw [htcnt]; decide
    exact (acceptAll_encode_trailer P hphase htcnt).trans (execTrailer_of_lt hnone).symm
  | _ => exact hopcode rfl

theorem runStepsWith_encode (P : Params) {i : Instr} {s : State} (es : List InputEvent) (hwf : i.wellFormed = true)
    (hstart : AtRecordStart i.space s) :
    runStepsWith P i.length (s.withInput (byteEvents (encode i) ++ es)) = execWith P i (s.withInput es) := by
  have hlen : (byteEvents (encode i)).length = i.length := by rw [byteEvents, List.length_map, length_encode]
  rw [← hlen, runStepsWith_eq_acceptAll, acceptAll_encode P hwf hstart, execWith_withInput]

/-- Settles O12: a run over a record's bytes accepts them, and in each space that is the meaning of the record. -/
theorem byteStepsOfARecordAreItsMeaning : Obligations.ByteStepsOfARecordAreItsMeaning :=
  ⟨fun i _ es hwf hstart => (runStepsWith_encode Config.params es hwf hstart).trans (execWith_default i _),
    fun P _ _ es hwf hstart => runStepsWith_encode P es hwf hstart⟩

/-! ## The last byte of a record -/

/-- The bytes that stand in a buffer and the one stored behind them. -/
theorem received_append {size n : Nat} (buf : Vector Byte size) (hn : n < size) (b : Byte) :
    Received (n + 1) (buf.setIfInBounds n b) (buf.toList.take n ++ [b]) := by
  have hlen : (buf.toList.take n).length = n := by simp; omega
  have hbefore : Received n buf (buf.toList.take n ++ [b]) := fun j hj => by
    rw [List.getElem?_append_left (by omega), List.getElem?_take_of_lt hj, Vector.getElem?_toList]
  have hlast : (buf.toList.take n ++ [b])[n]'(by simp; omega) = b := by
    simp [List.getElem_append_right, hlen]
  have hstored := hbefore.store hn (by simp; omega)
  rwa [hlast] at hstored

/-- 41_header.md R110: the thirteen bytes in `hbuf` and this one. -/
theorem headerByte_of_decodeHeader (P : Params) {b : Byte} {s : State} {i : Instr}
    (h : decodeHeader (s.hbuf.toList.take s.hcnt.toNat ++ [b]) = .ok (i, [])) :
    headerByte P b s = execWith P i (s.storeHeaderByte b) := by
  obtain ⟨hmin, rfl, hrest⟩ := decodeHeader_eq_ok.1 h
  have hlen : (s.hbuf.toList.take s.hcnt.toNat ++ [b]).length = 14 := Nat.le_antisymm (List.drop_eq_nil_iff.1 hrest) hmin
  have hcnt : s.hcnt.toNat = 13 := by simp at hlen; omega
  have hlast : s.hcnt + 1 = 14 := by bv_omega
  have hstored := received_append s.hbuf (n := s.hcnt.toNat) (by omega) b
  have hall : (firstFourteen (s.hbuf.toList.take s.hcnt.toNat ++ [b])).toList = s.hbuf.toList.take s.hcnt.toNat ++ [b] := by
    rw [toList_firstFourteen hmin, List.take_of_length_le hlen.le]
  rw [← hall, show s.hcnt.toNat + 1 = 14 from congrArg (· + 1) hcnt] at hstored
  have hrun : headerByte P b s = execWith P (headerOf (s.storeHeaderByte b).hbuf) (s.storeHeaderByte b) := if_pos hlast
  rw [hrun, State.storeHeaderByte_hbuf, hstored.eq]

/-- 42_opcodes.md R125: an opcode of one byte. -/
theorem opcodeByte_of_decodeOpcode_tag (P : Params) {b : Byte} {s : State} {i : Instr} (hop : s.op = .none)
    (h : decodeOpcode [b] = .ok (i, [])) : opcodeByte P b s = execWith P i (s.storeTag b) := by
  obtain ⟨hmin, hi, hrest⟩ := decodeOpcode_eq_ok.1 h
  have hone : [b].length = opLength (kindOf b) := Nat.le_antisymm (List.drop_eq_nil_iff.1 hrest) hmin
  have hreceived : Received 1 (s.storeTag b).scratch [b] := fun j hj => by
    obtain rfl : j = 0 := by omega
    simp
  have hlen : opLength (kindOf b) = 1 := hone.symm
  rw [opcodeByte_tag P b hop, if_pos hlen]
  exact runAssembled_of (instrOf_received hone hreceived hi)

theorem kindOf_of_luma_topBits : ∀ b : Byte, b.extractLsb' 6 2 = 2 → kindOf b = .luma := by decide

/-- 10_state.md R29 items 5 and 6: while an opcode is assembled, its tag stands in `scratch[0]`. -/
theorem SessionInv.assembling {s : State} (hs : SessionInv s) (hop : s.op ≠ .none) :
    (s.op = .rgb ∨ s.op = .rgba ∨ s.op = .luma) ∧ kindOf s.scratch[0] = s.op ∧ 1 ≤ s.cnt.toNat ∧ s.cnt.toNat ≤ 4 := by
  obtain ⟨hindex, hdiff, hrun⟩ := hs.op_between
  cases h : s.op with
  | none => exact absurd h hop
  | rgb =>
    obtain ⟨hlow, hhigh, htag⟩ := hs.op_rgb h
    exact ⟨.inl rfl, by rw [htag]; rfl, hlow, by omega⟩
  | rgba =>
    obtain ⟨hlow, hhigh, htag⟩ := hs.op_rgba h
    exact ⟨.inr (.inl rfl), by rw [htag]; rfl, hlow, hhigh⟩
  | luma =>
    obtain ⟨hcnt, htag⟩ := hs.op_luma h
    exact ⟨.inr (.inr rfl), kindOf_of_luma_topBits _ htag, by rw [hcnt]; decide, by rw [hcnt]; decide⟩
  | index => exact absurd h hindex
  | diff => exact absurd h hdiff
  | run => exact absurd h hrun

theorem exists_take_append_eq_cons (v : Vector Byte 5) {n : Nat} (hn : 1 ≤ n) (bs : List Byte) :
    ∃ ds, v.toList.take n ++ bs = v[0] :: ds := by
  obtain ⟨m, rfl⟩ := Nat.exists_eq_add_of_le' hn
  have hcons : v.toList = v[0] :: v.toList.drop 1 := by
    rw [← Vector.getElem_toList (h := by simp), ← List.drop_eq_getElem_cons, List.drop_zero]
  exact ⟨(v.toList.drop 1).take m ++ bs, by rw [hcons]; rfl⟩

/-- 42_opcodes.md R126: the bytes in `scratch` and this one. -/
theorem opcodeByte_of_decodeOpcode_data (P : Params) {b : Byte} {s : State} {i : Instr} (hs : SessionInv s) (hop : s.op ≠ .none)
    (h : decodeOpcode (s.scratch.toList.take s.cnt.toNat ++ [b]) = .ok (i, [])) :
    opcodeByte P b s = execWith P i (s.storeData b) := by
  obtain ⟨hkind, htag, hlow, hhigh⟩ := hs.assembling hop
  have hstored := received_append s.scratch (n := s.cnt.toNat) (by omega) b
  have hlen : (s.scratch.toList.take s.cnt.toNat ++ [b]).length = s.cnt.toNat + 1 := by simp; omega
  obtain ⟨ds, hbytes⟩ := exists_take_append_eq_cons s.scratch hlow [b]
  rw [hbytes] at h hstored hlen
  obtain ⟨hmin, hi, hrest⟩ := decodeOpcode_eq_ok.1 h
  rw [htag] at hmin hi hrest
  have hall : (s.scratch[0] :: ds).length = opLength s.op := Nat.le_antisymm (List.drop_eq_nil_iff.1 hrest) hmin
  rw [opcodeByte_data P b hkind, if_pos (hlen.symm.trans hall)]
  rw [← hlen] at hstored
  exact runAssembled_of (u := s.storeData b) (instrOf_received hall hstored hi)

/-- 44_trailer.md R160: the seven good bytes before and this one. -/
theorem trailerByte_of_decodeTrailer (P : Params) {b : Byte} {s : State} {i : Instr}
    (h : decodeTrailer (trailerBytes.take s.tcnt.toNat ++ [b]) = .ok (i, [])) : trailerByte P b s = execWith P i s := by
  obtain ⟨rfl, hbytes⟩ := decodeTrailer_eq_ok.1 h
  rw [List.append_nil] at hbytes
  have hlen := congrArg List.length hbytes
  have hpattern : trailerBytes.length = 8 := rfl
  have hseven : s.tcnt.toNat = 7 := by
    rw [List.length_append, List.length_take, hpattern, List.length_singleton] at hlen
    omega
  have hgood : b = trailerExpected s.tcnt.toNat := by
    rw [hseven] at hbytes ⊢
    exact (List.cons.inj (List.append_cancel_left (as := trailerBytes.take 7) hbytes.symm)).1
  exact (trailerByte_last P hseven hgood).trans (execTrailer_of_lt (by omega)).symm

/-- Settles O11: in each space the byte that makes the bytes received a whole record runs it. -/
theorem stepRunsTheDecodedInstruction : Obligations.StepRunsTheDecodedInstruction := by
  intro s b es i hs hin
  rw [step_of_input hin]
  simp only [← execWith_default]
  refine ⟨fun hphase h => ?_, fun hphase hop h => ?_, fun hphase hop h => ?_, fun hphase h => ?_⟩
  · exact (accept_byte_header _ b (s := s.withInput es) hphase).trans (headerByte_of_decodeHeader _ h)
  · exact (accept_byte_ops _ b (s := s.withInput es) hphase).trans (opcodeByte_of_decodeOpcode_tag _ hop h)
  · exact (accept_byte_ops _ b (s := s.withInput es) hphase).trans
      (opcodeByte_of_decodeOpcode_data _ (sessionInv_withInput hs es) hop h)
  · exact (accept_byte_trailer _ b (s := s.withInput es) hphase).trans (trailerByte_of_decodeTrailer _ h)

end Sys2Proof.Machine
end

section
/-! SUPPORT. The phase transitions of one step (40_stream_sequencer.md R93 to R98). -/

namespace Sys2Proof.Machine

theorem headerByte_phase {P : Params} {b : Byte} {s t : State} (hnext : headerByte P b s = .next t) :
    t.phase = s.phase ∨ t.phase = .ops ∨ t.phase = .trailer ∨ t.phase = .failed := by
  rcases headerByte_next hnext with ⟨_, rfl⟩ | ⟨_, _, w, h, c, cs, _, ⟨k, _, rfl⟩ | ⟨_, _, _, _, rfl⟩⟩
  · exact .inl rfl
  · exact .inr (.inr (.inr rfl))
  · rcases acceptHeader_phase_cases w h c cs (s.storeHeaderByte b) with ⟨e, _⟩ | ⟨e, _⟩
    · exact .inr (.inr (.inl e))
    · exact .inr (.inl e)

theorem emittedRun_phase_eq_or (p : Pixel) (k : Nat) (s : State) :
    (s.emittedRun p k).phase = s.phase ∨ (s.emittedRun p k).phase = .trailer := by
  induction k generalizing s with
  | zero => exact .inl rfl
  | succ k ih =>
    rcases ih (s.emitted p) with h | h
    · rcases emitted_phase_cases p s with ⟨e, _⟩ | ⟨e, _⟩
      · exact .inr (h.trans e)
      · exact .inl (h.trans e)
    · exact .inr h

theorem opcodeByte_phase {P : Params} {b : Byte} {s t : State} (hnext : opcodeByte P b s = .next t) :
    t.phase = s.phase ∨ t.phase = .trailer := by
  rcases opcodeByte_next hnext with ⟨rfl, _⟩ | ⟨rfl, _⟩ | ⟨i, u, hu, _, hspace, hexec⟩
  · exact .inl rfl
  · exact .inl rfl
  · obtain ⟨rfl, _⟩ := execWith_opcode_next hspace hexec
    rcases hu with rfl | rfl
    · exact emittedRun_phase_eq_or _ _ (s.storeTag b)
    · exact emittedRun_phase_eq_or _ _ (s.storeData b)

theorem trailerByte_phase {P : Params} {b : Byte} {s t : State} (hnext : trailerByte P b s = .next t) :
    t.phase = s.phase ∨ t.phase = .failed := by
  rcases trailerByte_cases P b s with ⟨e, _⟩ | ⟨e, _⟩ | ⟨e, _⟩ <;> cases e.symm.trans hnext
  · exact .inr rfl
  · exact .inl rfl
  · exact .inl rfl

/-- The transitions of 40_stream_sequencer.md section 2, with the condition of R98 on the last one. -/
inductive PhaseMoves (s t : State) : Prop
  | stay (h : t.phase = s.phase)
  | fail (h : s.phase = .header ∨ s.phase = .ops ∨ s.phase = .trailer) (ht : t.phase = .failed)
  | parsed (h : s.phase = .header) (ht : t.phase = .ops ∨ t.phase = .trailer)
  | filled (h : s.phase = .ops) (ht : t.phase = .trailer)
  | complete (h : s.phase = .trailer) (h8 : s.tcnt = 8) (hend : ∃ es, s.input = .endOfStream :: es) (ht : t.phase = .done)

theorem phaseMoves_stepWith {P : Params} {s t : State} (hnext : stepWith P s = .next t) : PhaseMoves s t := by
  rcases stepWith_cases hnext with ⟨_, rfl⟩ | ⟨es, hin, rfl⟩ |
    ⟨b, es, _, ⟨hphase, h⟩ | ⟨hphase, h⟩ | ⟨hphase, h⟩ | ⟨_, rfl⟩⟩
  · exact .stay rfl
  · rcases endEvent_cases (s.withInput es) with ⟨e, hphase⟩ | ⟨e, hphase, h8⟩ | ⟨e, _⟩ <;> rw [e]
    · exact .fail (hphase.imp_right (Or.imp_right And.left)) rfl
    · exact .complete hphase h8 ⟨es, hin⟩ rfl
    · exact .stay rfl
  · rcases headerByte_phase h with e | e | e | e
    · exact .stay e
    · exact .parsed hphase (.inl e)
    · exact .parsed hphase (.inr e)
    · exact .fail (.inl hphase) e
  · rcases opcodeByte_phase h with e | e
    · exact .stay e
    · exact .filled hphase e
  · rcases trailerByte_phase h with e | e
    · exact .stay e
    · exact .fail (.inr (.inr hphase)) e
  · exact .stay rfl

/-- Settles O43: no other transition leads to DONE. -/
theorem successIsCommittedOnlyAtEnd : Obligations.SuccessIsCommittedOnlyAtEnd := by
  intro s t hnext hdone hbefore
  cases phaseMoves_stepWith hnext with
  | stay h => exact absurd (h.symm.trans hdone) hbefore
  | fail _ ht => cases ht.symm.trans hdone
  | parsed _ ht => rcases ht with ht | ht <;> cases ht.symm.trans hdone
  | filled _ ht => cases ht.symm.trans hdone
  | complete h h8 hend _ => exact ⟨h, h8, hend⟩

/-- Settles O44: every transition that is no stay stands in the table. -/
theorem phaseTransitionsAreTheTable : Obligations.PhaseTransitionsAreTheTable := by
  intro s t hnext hmoves
  cases phaseMoves_stepWith hnext with
  | stay h => exact absurd h.symm hmoves
  | fail h ht => rcases h with h | h | h <;> simp [h, ht]
  | parsed h ht => rcases ht with ht | ht <;> simp [h, ht]
  | filled h ht => simp [h, ht]
  | complete h _ _ ht => simp [h, ht]

end Sys2Proof.Machine
end

section
/-! SUPPORT. What one step or one clock cycle returns and writes (40_stream_sequencer.md R92, R99): at most one event that is none of a
Pixel, or the Pixels of one opcode. -/

namespace Sys2Proof.Machine

/-! ## Events that are none of a Pixel -/

/-- From `s` to `t` no Pixel is emitted: `wptr` stays, and at most one event is returned, which is none of a Pixel. -/
def EmitsNoPixel (s t : State) : Prop :=
  t.wptr = s.wptr ∧ ∃ evs, t.outputs = s.outputs ++ evs ∧
    (evs = [] ∨ (∃ w h c cs, evs = [.headerParsed w h c cs]) ∨ evs = [.trailerVerified] ∨ evs = [.completed] ∨
      ∃ k, evs = [.failed k])

theorem emitsNoPixel_of_eq {s t : State} (hwptr : t.wptr = s.wptr) (houtputs : t.outputs = s.outputs) : EmitsNoPixel s t :=
  ⟨hwptr, [], by rw [houtputs, List.append_nil], .inl rfl⟩

theorem emitsNoPixel_raise (k : ErrorKind) (s : State) : EmitsNoPixel s (raise k s) :=
  ⟨rfl, _, rfl, .inr (.inr (.inr (.inr ⟨k, rfl⟩)))⟩

theorem emitsNoPixel_endEvent (s : State) : EmitsNoPixel s (endEvent s) := by
  rcases endEvent_cases s with ⟨e, _⟩ | ⟨e, _⟩ | ⟨e, _⟩ <;> rw [e]
  · exact emitsNoPixel_raise _ s
  · exact ⟨rfl, _, rfl, .inr (.inr (.inr (.inl rfl)))⟩
  · exact emitsNoPixel_of_eq rfl rfl

theorem emitsNoPixel_headerByte {P : Params} {b : Byte} {s t : State} (hnext : headerByte P b s = .next t) :
    EmitsNoPixel s t := by
  rcases headerByte_next hnext with ⟨_, rfl⟩ | ⟨_, _, w, h, c, cs, _, ⟨k, _, rfl⟩ | ⟨_, _, _, _, rfl⟩⟩
  · exact emitsNoPixel_of_eq rfl rfl
  · exact emitsNoPixel_raise k (s.storeHeaderByte b)
  · exact ⟨rfl, _, rfl, .inr (.inl ⟨w, h, c, cs, rfl⟩)⟩

theorem emitsNoPixel_trailerByte {P : Params} {b : Byte} {s t : State} (hnext : trailerByte P b s = .next t) :
    EmitsNoPixel s t := by
  rcases trailerByte_cases P b s with ⟨e, _⟩ | ⟨e, _⟩ | ⟨e, _⟩ <;> cases e.symm.trans hnext
  · exact emitsNoPixel_raise _ s
  · exact ⟨rfl, _, rfl, .inr (.inr (.inl rfl))⟩
  · exact emitsNoPixel_of_eq rfl rfl

/-! ## The Pixels of an opcode -/

theorem opcodeByte_next_op {P : Params} {b : Byte} {s t : State} (hnext : opcodeByte P b s = .next t) :
    s.op = .none ∨ s.op = .rgb ∨ s.op = .rgba ∨ s.op = .luma := by
  cases hop : s.op with
  | none => exact .inl rfl
  | rgb => exact .inr (.inl rfl)
  | rgba => exact .inr (.inr (.inl rfl))
  | luma => exact .inr (.inr (.inr rfl))
  | _ => simp only [opcodeByte, hop, reduceCtorEq] at hnext

theorem runAssembled_next {P : Params} {u t : State} (hnext : runAssembled P u = .next t) :
    ∃ i, instrOf u.op u.scratch = some i ∧ execWith P i u = .next t := by
  cases hi : instrOf u.op u.scratch with
  | none => simp only [runAssembled, hi, reduceCtorEq] at hnext
  | some i => exact ⟨i, rfl, (runAssembled_of hi).symm.trans hnext⟩

/-- A byte is the tag of an opcode or data of the one in `op`; it is stored, and the opcode waits for more or runs. -/
theorem opcodeByte_next_stored {P : Params} {b : Byte} {s t : State} (hnext : opcodeByte P b s = .next t) :
    ∃ u, (s.op = .none ∧ u = s.storeTag b ∨ s.op ≠ .run ∧ u = s.storeData b) ∧
      (t = u ∨ ∃ i, instrOf u.op u.scratch = some i ∧ execWith P i u = .next t) := by
  rcases opcodeByte_next_op hnext with hop | hop
  · refine ⟨s.storeTag b, .inl ⟨hop, rfl⟩, ?_⟩
    rw [opcodeByte_tag P b hop] at hnext
    split at hnext
    · exact .inr (runAssembled_next hnext)
    · cases hnext
      exact .inl rfl
  · have hne : s.op ≠ .run := by rcases hop with h | h | h <;> rw [h] <;> decide
    refine ⟨s.storeData b, .inr ⟨hne, rfl⟩, ?_⟩
    rw [opcodeByte_data P b hop] at hnext
    split at hnext
    · exact .inr (runAssembled_next hnext)
    · cases hnext
      exact .inl rfl

theorem opcodeCount_of_instrOf {k : Op} {v : Vector Byte 5} {i : Instr} (h : instrOf k v = some i) (hk : k ≠ .run) (s : State) :
    opcodeCount i s = 1 := by
  cases k with
  | run => exact absurd rfl hk
  | none => cases h
  | _ => cases h; rfl

/-- 42_opcodes.md R137: a well-formed opcode emits at most 62 Pixels. -/
theorem opcodeCount_le {i : Instr} (hwf : i.wellFormed = true) (s : State) : opcodeCount i s ≤ 62 := by
  cases i with
  | run frun =>
    have hlt : frun.toNat < 62 := of_decide_eq_true hwf
    exact (Nat.min_le_left _ _).trans hlt
  | _ => exact Nat.one_le_ofNat

/-! ## The events of one step -/

/-- From `s` to `t` an opcode emits its Pixel, once or as often as a RUN says (42_opcodes.md R137). -/
def EmitsPixels (s t : State) : Prop :=
  ∃ n p, 1 ≤ n ∧ n ≤ 62 ∧
    t.outputs = s.outputs ++ (List.range n).map fun i => .pixelEmitted (s.wptr + BitVec.ofNat 64 i) p

theorem emitsPixels_execWith {P : Params} {i : Instr} {s t : State} (hspace : i.space = .ops) (hroom : s.wptr < s.npix)
    (hcount : opcodeCount i s ≤ 62) (hnext : execWith P i s = .next t) : EmitsPixels s t := by
  obtain ⟨rfl, _⟩ := execWith_opcode_next hspace hnext
  exact ⟨opcodeCount i s, opcodePixel P i s, opcodeCount_pos i s hroom, hcount, emittedRun_outputs _ _ s⟩

theorem emits_opcodeByte {P : Params} {b : Byte} {s t : State} (hroom : s.wptr < s.npix)
    (hnext : opcodeByte P b s = .next t) : EmitsNoPixel s t ∨ EmitsPixels s t := by
  obtain ⟨u, ⟨_, rfl⟩ | ⟨hne, rfl⟩, rfl | ⟨i, hi, hexec⟩⟩ := opcodeByte_next_stored hnext
  · exact .inl (emitsNoPixel_of_eq rfl rfl)
  · have htag : (s.storeTag b).scratch[0] = b := Vector.getElem_set_self _
    obtain ⟨hwf, _⟩ := encode_of_instrOf (v := (s.storeTag b).scratch) (i := i) (by rw [htag]; exact hi)
    exact .inr (emitsPixels_execWith (s := s.storeTag b) (instrOf_space hi) hroom (opcodeCount_le hwf _) hexec)
  · exact .inl (emitsNoPixel_of_eq rfl rfl)
  · have hcount := opcodeCount_of_instrOf hi hne (s.storeData b)
    exact .inr (emitsPixels_execWith (s := s.storeData b) (instrOf_space hi) hroom (by omega) hexec)

theorem emits_stepWith {P : Params} {s t : State} (hs : SessionInv s) (hnext : stepWith P s = .next t) :
    EmitsNoPixel s t ∨ EmitsPixels s t := by
  rcases stepWith_cases hnext with ⟨_, rfl⟩ | ⟨es, _, rfl⟩ |
    ⟨b, es, _, ⟨_, h⟩ | ⟨hphase, h⟩ | ⟨_, h⟩ | ⟨_, rfl⟩⟩
  · exact .inl (emitsNoPixel_of_eq rfl rfl)
  · exact .inl (emitsNoPixel_endEvent (s.withInput es))
  · exact .inl (emitsNoPixel_headerByte (s := s.withInput es) h)
  · obtain ⟨_, hroom, _⟩ := hs.ops_open hphase
    exact emits_opcodeByte (s := s.withInput es) hroom h
  · exact .inl (emitsNoPixel_trailerByte (s := s.withInput es) h)
  · exact .inl (emitsNoPixel_of_eq rfl rfl)

/-- Settles O49: a step returns at most one event that is none of a Pixel, or the Pixels of one opcode. -/
theorem stepReturnsTheStatedEvents : Obligations.StepReturnsTheStatedEvents := by
  intro s t hs hnext
  rcases emits_stepWith hs hnext with ⟨_, evs, ho, h | h | h | h | h⟩ | ⟨n, p, hlow, hhigh, ho⟩
  · exact ⟨evs, ho, .inl h⟩
  · exact ⟨evs, ho, .inr (.inl h)⟩
  · exact ⟨evs, ho, .inr (.inr (.inr (.inl h)))⟩
  · exact ⟨evs, ho, .inr (.inr (.inr (.inr (.inl h))))⟩
  · exact ⟨evs, ho, .inr (.inr (.inr (.inr (.inr h))))⟩
  · exact ⟨_, ho, .inr (.inr (.inl ⟨n, p, hlow, hhigh, rfl⟩))⟩

/-! ## The Pixel write of a clock cycle -/

/-- From `s` to `t` the one Pixel that then stands in `px` is written at `wptr` and emitted (40_stream_sequencer.md R99). -/
def WritesPixel (s t : State) : Prop :=
  t.wptr = s.wptr + 1 ∧ Memory.readPixel t.pb s.wptr.toNat = some t.px ∧
    t.outputs = s.outputs ++ [.pixelEmitted s.wptr t.px]

theorem writesPixel_emitted (p : Pixel) (s : State) : WritesPixel s (s.emitted p) :=
  ⟨rfl, Memory.readPixel_writePixel_same _ _ p, rfl⟩

theorem WritesPixel.runLeft {s t : State} (h : WritesPixel s t) (k : BitVec 6) : WritesPixel s (t.runLeft k) := by
  unfold State.runLeft
  split
  · exact h
  · exact h

theorem writesPixel_emit_runLeft {p : Pixel} {k : BitVec 6} {s t : State}
    (hnext : (thenDo (emit p s) fun u => .next (u.runLeft k)) = .next t) : WritesPixel s t := by
  obtain ⟨u, hemit, hleft⟩ := thenDo_eq_next hnext
  obtain ⟨_, rfl⟩ := emit_eq_next hemit
  cases hleft
  exact (writesPixel_emitted p s).runLeft k

theorem writesPixel_startRunWith {P : Params} {frun : BitVec 6} {s t : State} (hnext : startRunWith P frun s = .next t) :
    WritesPixel s t := by
  unfold startRunWith at hnext
  split at hnext
  · cases hnext
  · exact writesPixel_emit_runLeft hnext

theorem writesPixel_execWith {P : Params} {k : Op} {v : Vector Byte 5} {i : Instr} {s t : State} (hi : instrOf k v = some i)
    (hk : k ≠ .run) (hnext : execWith P i s = .next t) : WritesPixel s t := by
  obtain ⟨rfl, _⟩ := execWith_opcode_next (instrOf_space hi) hnext
  rw [opcodeCount_of_instrOf hi hk s]
  exact writesPixel_emitted _ s

/-- A byte that is no tag of a RUN completes at most one opcode of one Pixel. -/
theorem writes_opcodeByte {P : Params} {b : Byte} {s t : State} (hsingle : ¬ (s.op = .none ∧ kindOf b = .run))
    (hnext : opcodeByte P b s = .next t) : EmitsNoPixel s t ∨ WritesPixel s t := by
  obtain ⟨u, ⟨hop, rfl⟩ | ⟨hne, rfl⟩, rfl | ⟨i, hi, hexec⟩⟩ := opcodeByte_next_stored hnext
  · exact .inl (emitsNoPixel_of_eq rfl rfl)
  · exact .inr (writesPixel_execWith (s := s.storeTag b) hi (fun hrun => hsingle ⟨hop, hrun⟩) hexec)
  · exact .inl (emitsNoPixel_of_eq rfl rfl)
  · exact .inr (writesPixel_execWith (s := s.storeData b) hi hne hexec)

theorem writes_byteCycle {P : Params} {b : Byte} {s t : State} (hnext : byteCycle P b s = .next t) :
    EmitsNoPixel s t ∨ WritesPixel s t := by
  unfold byteCycle at hnext
  split at hnext
  case isTrue => exact .inr (writesPixel_startRunWith (s := s.storeTag b) hnext)
  case isFalse hother =>
    cases hphase : s.phase with
    | header => exact .inl (emitsNoPixel_headerByte ((accept_byte_header P b hphase).symm.trans hnext))
    | ops =>
      exact writes_opcodeByte (fun hrun => hother ⟨hphase, hrun⟩) ((accept_byte_ops P b hphase).symm.trans hnext)
    | trailer => exact .inl (emitsNoPixel_trailerByte ((accept_byte_trailer P b hphase).symm.trans hnext))
    | done =>
      cases (accept_of_terminal P (.byte b) (.inl hphase)).symm.trans hnext
      exact .inl (emitsNoPixel_of_eq rfl rfl)
    | failed =>
      cases (accept_of_terminal P (.byte b) (.inr hphase)).symm.trans hnext
      exact .inl (emitsNoPixel_of_eq rfl rfl)

/-- 70_reset_and_hazards.md R220: one Pixel write at most in a cycle without reset. -/
theorem writes_cycle {P : Params} {i : PortsIn} {s t : State} (hrst : i.rst = false) (hnext : cycle P i s = .next t) :
    EmitsNoPixel s t ∨ WritesPixel s t := by
  rw [cycle, hrst, if_neg Bool.false_ne_true] at hnext
  split at hnext
  · cases hnext
  split at hnext
  · exact .inr (writesPixel_emit_runLeft hnext)
  split at hnext
  · exact writes_byteCycle hnext
  split at hnext
  · cases hnext
    exact .inl (emitsNoPixel_endEvent s)
  · cases hnext
    exact .inl (emitsNoPixel_of_eq rfl rfl)

theorem EmitsNoPixel.no_pixelEmitted {s t : State} (h : EmitsNoPixel s t) :
    ∃ evs, t.outputs = s.outputs ++ evs ∧ ∀ m p, .pixelEmitted m p ∉ evs := by
  obtain ⟨_, evs, ho, hevs⟩ := h
  refine ⟨evs, ho, fun m p => ?_⟩
  rcases hevs with rfl | ⟨w, h, c, cs, rfl⟩ | rfl | rfl | ⟨k, rfl⟩ <;> simp

theorem portsOut_pbWe (P : Params) (n : Nat) {i : PortsIn} (hrst : i.rst = false) (s t : State) :
    (portsOut P n i s t).pbWe = decide (t.wptr ≠ s.wptr) := by
  simp only [portsOut, hrst, Bool.not_false, Bool.true_and]

/-- With `pb_we` high the port shows the index and the channels of the Pixel written. -/
theorem portsOut_pixel {P : Params} {n : Nat} {i : PortsIn} {s t : State} (hwe : (portsOut P n i s t).pbWe = true) :
    (portsOut P n i s t).pbIndex = s.wptr ∧
      (⟨(portsOut P n i s t).pbR, (portsOut P n i s t).pbG, (portsOut P n i s t).pbB, (portsOut P n i s t).pbA⟩ : Pixel) =
        t.px := by
  have hwe' : (!i.rst && decide (t.wptr ≠ s.wptr)) = true := hwe
  simp only [portsOut, hwe', if_true, and_self]

/-- Settles O59: `pb_we` tells the cycles that write a Pixel from those that emit none, since a write moves `wptr`. -/
theorem writePortShowsTheWrittenPixel : Obligations.WritePortShowsTheWrittenPixel := by
  intro P n i s t hrst hnext
  rcases writes_cycle hrst hnext with hnone | hwrite
  · have hevents := hnone.no_pixelEmitted
    obtain ⟨hwptr, _⟩ := hnone
    have hwe : (portsOut P n i s t).pbWe = false := by simp [portsOut_pbWe P n hrst, hwptr]
    exact ⟨fun h => absurd (hwe.symm.trans h) Bool.false_ne_true, fun _ => ⟨hwptr, hevents⟩⟩
  · obtain ⟨hwptr, hread, hevent⟩ := hwrite
    have hmoved : t.wptr ≠ s.wptr := by bv_omega
    have hwe : (portsOut P n i s t).pbWe = true := by simp [portsOut_pbWe P n hrst, hmoved]
    obtain ⟨hindex, hpixel⟩ := portsOut_pixel hwe
    refine ⟨fun _ => ?_, fun h => absurd (h.symm.trans hwe) Bool.false_ne_true⟩
    rw [hindex, hpixel]
    exact ⟨hread, hwptr, hevent⟩

end Sys2Proof.Machine
end

section
/-! SUPPORT. HEADER (41_header.md): each branch of its checks, the effects of an accepted one, and its bytes one by one and in a fresh session. -/

namespace Sys2Proof.Machine

/-! ## The branches of HEADER (R111, R113 to R115, R119) -/

section
variable (P : Params) {m : BitVec 32} (w h : BitVec 32)

theorem execHeaderWith_badMagic (c cs : Byte) (s : State) (hm : m ≠ P.magic) :
    execHeaderWith P m w h c cs s = .next (raise .headerMagicMismatch (s.withHeaderBytes (headerBytes m w h c cs))) :=
  if_pos hm

theorem execHeaderWith_badChannels {c : Byte} (cs : Byte) (s : State) (hm : m = P.magic) (hc : c ≠ 3 ∧ c ≠ 4) :
    execHeaderWith P m w h c cs s = .next (raise .unsupportedChannelMode (s.withHeaderBytes (headerBytes m w h c cs))) :=
  (if_neg (not_not.2 hm)).trans (if_pos hc)

theorem execHeaderWith_goodChannels {c : Byte} (cs : Byte) (s : State) (hm : m = P.magic) (hc : c = 3 ∨ c = 4) :
    execHeaderWith P m w h c cs s =
      if cs ≠ 0 ∧ cs ≠ 1 then
        .next (raise .unsupportedColorspaceMode (s.withHeaderBytes (headerBytes m w h c cs)))
      else if P.maxPixels < w.toNat * h.toNat then .refused .imageTooLarge
      else .next ((s.withHeaderBytes (headerBytes m w h c cs)).acceptHeader w h c cs) :=
  (if_neg (not_not.2 hm)).trans (if_neg fun ⟨h3, h4⟩ => hc.elim h3 h4)

/-- A header that passes the three checks is taken unless its image is too large. -/
theorem execHeaderWith_legal {c cs : Byte} (s : State) (hm : m = P.magic) (hc : c = 3 ∨ c = 4) (hcs : cs = 0 ∨ cs = 1) :
    execHeaderWith P m w h c cs s =
      if P.maxPixels < w.toNat * h.toNat then .refused .imageTooLarge
      else .next ((s.withHeaderBytes (headerBytes m w h c cs)).acceptHeader w h c cs) :=
  (execHeaderWith_goodChannels P w h cs s hm hc).trans (if_neg fun ⟨h0, h1⟩ => hcs.elim h0 h1)

theorem execHeaderWith_accepted {c cs : Byte} (s : State) (hm : m = P.magic) (hc : c = 3 ∨ c = 4) (hcs : cs = 0 ∨ cs = 1)
    (hlimit : w.toNat * h.toNat ≤ P.maxPixels) :
    execHeaderWith P m w h c cs s = .next ((s.withHeaderBytes (headerBytes m w h c cs)).acceptHeader w h c cs) :=
  (execHeaderWith_legal P w h s hm hc hcs).trans (if_neg (Nat.not_lt.2 hlimit))

end

/-- What the bytes of a HEADER record and `AcceptHeader` write, and all that they leave. -/
theorem acceptsHeader_acceptHeader (m w h : BitVec 32) (c cs : Byte) (s : State) :
    AcceptsHeader m w h c cs s ((s.withHeaderBytes (headerBytes m w h c cs)).acceptHeader w h c cs) where
  width := rfl
  height := rfl
  channels := rfl
  colorspace := rfl
  npix := npix_toNat w h
  hdrValid := rfl
  unwritten := Memory.read_nil
  phase := rfl
  event := rfl
  bytes := ⟨rfl, rfl⟩
  pixels := ⟨rfl, rfl, rfl, rfl, rfl, rfl, rfl⟩
  rest := ⟨rfl, rfl, rfl⟩

/-- Settles O32: the header is taken, and `AcceptHeader` writes what R115 says. -/
theorem goodHeaderIsAccepted : Obligations.GoodHeaderIsAccepted :=
  fun P w h c cs s hc hcs hlimit =>
    ⟨_, execHeaderWith_accepted P w h s rfl hc hcs hlimit, acceptsHeader_acceptHeader P.magic w h c cs s⟩

/-- Settles O33: the default limit exceeds every image. -/
theorem headerInstructionCompletes : Obligations.HeaderInstructionCompletes :=
  fun w h c cs s hc hcs => goodHeaderIsAccepted Config.params w h c cs s hc hcs (dimensions_le_maxPixels w h)

/-- Settles O34: one branch of HEADER for each check, and the branch in which all pass. -/
theorem headerChecksAreMadeInOrder : Obligations.HeaderChecksAreMadeInOrder := by
  intro P m w h c cs s
  refine ⟨fun hm => ?_, fun hm h3 h4 => ?_, fun hm hc h0 h1 => ?_, fun hm hc hcs hlimit => ?_⟩
  · exact execHeaderWith_badMagic P w h c cs s hm
  · exact execHeaderWith_badChannels P w h cs s hm ⟨h3, h4⟩
  · exact (execHeaderWith_goodChannels P w h cs s hm hc).trans (if_pos ⟨h0, h1⟩)
  · exact ⟨_, execHeaderWith_accepted P w h s hm hc hcs hlimit, rfl, rfl, rfl, rfl⟩

/-- The one branch of HEADER that is refused (R119). -/
theorem execHeaderWith_refused {P : Params} {m w h : BitVec 32} {c cs : Byte} {s : State} {r : Refusal}
    (hrefused : execHeaderWith P m w h c cs s = .refused r) :
    r = .imageTooLarge ∧ m = P.magic ∧ (c = 3 ∨ c = 4) ∧ (cs = 0 ∨ cs = 1) ∧ P.maxPixels < w.toNat * h.toNat := by
  rcases execHeaderWith_cases P m w h c cs s with ⟨_, _, e⟩ | ⟨hm, hc, hcs, ⟨hlarge, e⟩ | ⟨_, e⟩⟩ <;>
    cases e.symm.trans hrefused
  exact ⟨rfl, hm, hc, hcs, hlarge⟩

/-- Settles O35: HEADER has one branch that is refused, and under the default limit no image gets there. -/
theorem onlyTooLargeImagesAreRefused : Obligations.OnlyTooLargeImagesAreRefused := by
  refine ⟨fun P w h c cs s hc hcs hlarge => ?_, fun P m w h c cs s r => execHeaderWith_refused, dimensions_le_maxPixels,
    fun m w h c cs s r hrefused => ?_⟩
  · exact (execHeaderWith_legal P w h s rfl hc hcs).trans (if_pos hlarge)
  · obtain ⟨_, _, _, _, hlarge⟩ := execHeaderWith_refused (P := Config.params) hrefused
    exact Nat.not_lt.2 (dimensions_le_maxPixels w h) hlarge

/-! ## The bytes of a header -/

/-- R110: a byte that is not the 14th. -/
theorem headerByte_early (P : Params) (b : Byte) {s : State} (hearly : s.hcnt + 1 ≠ 14) :
    headerByte P b s = .next (s.storeHeaderByte b) := if_neg hearly

/-- Settles O36: the byte is not the 14th, so it is stored and nothing is parsed. -/
theorem earlyHeaderBytesAreOnlyStored : Obligations.EarlyHeaderBytesAreOnlyStored := by
  intro s b es hphase hin hcnt
  have hstep : step s = .next ((s.withInput es).storeHeaderByte b) := by
    rw [step_of_input hin, accept_byte_header _ b (s := s.withInput es) hphase]
    exact headerByte_early _ b (s := s.withInput es) (by rw [State.withInput_hcnt]; bv_omega)
  refine ⟨_, hstep, ?_, ?_, rfl⟩
  · rw [State.storeHeaderByte_hcnt, State.withInput_hcnt]
    bv_omega
  · exact Vector.toList_setIfInBounds

/-- Fourteen bytes spell a header. -/
theorem exists_serialize_of_length {bs : List Byte} (hlen : bs.length = 14) : ∃ m w h c cs, bs = serialize m w h c cs := by
  refine ⟨_, _, _, _, _, Eq.trans ?_ (encode_headerOf (firstFourteen bs)).symm⟩
  rw [toList_firstFourteen hlen.ge, List.take_of_length_le hlen.le]

/-- Fourteen steps of a fresh session run the HEADER that they deliver. -/
theorem runSteps_serialize (m w h : BitVec 32) (c cs : Byte) :
    runSteps 14 (State.reset.withInput (byteEvents (serialize m w h c cs))) =
      execHeaderWith Config.params m w h c cs State.reset := by
  have hrun := runStepsWith_encode Config.params (i := .header m w h c cs) (s := State.reset) [] rfl ⟨rfl, rfl⟩
  rwa [List.append_nil] at hrun

/-- A HEADER after which `hdr_valid` is 1, where it was 0, has passed its checks and left its fields in the registers. -/
theorem execHeaderWith_valid {P : Params} {m w h : BitVec 32} {c cs : Byte} {s t : State} (hbefore : s.hdrValid = false)
    (hnext : execHeaderWith P m w h c cs s = .next t) (hvalid : t.hdrValid = true) :
    m = P.magic ∧ (c = 3 ∨ c = 4) ∧ (cs = 0 ∨ cs = 1) ∧ AcceptsHeader m w h c cs s t := by
  rcases execHeaderWith_cases P m w h c cs s with ⟨k, _, e⟩ | ⟨hm, hc, hcs, ⟨_, e⟩ | ⟨_, e⟩⟩ <;> cases e.symm.trans hnext
  · exact absurd (hbefore.symm.trans hvalid) Bool.false_ne_true
  · exact ⟨hm, hc, hcs, acceptsHeader_acceptHeader m w h c cs s⟩

/-- Settles O37: the steps of fourteen bytes are the HEADER they spell, and only an accepted one sets `hdr_valid`. -/
theorem headerSerialisationRoundTrips : Obligations.HeaderSerialisationRoundTrips := by
  refine ⟨fun w h c cs hc hcs => ?_, fun bs t hlen hrun hvalid => ?_⟩
  · obtain ⟨t, hnext, ht⟩ := goodHeaderIsAccepted Config.params w h c cs State.reset hc hcs (dimensions_le_maxPixels w h)
    exact ⟨t, (runSteps_serialize _ w h c cs).trans hnext, ht.event, ht.width, ht.height, ht.channels, ht.colorspace⟩
  · obtain ⟨m, w, h, c, cs, rfl⟩ := exists_serialize_of_length hlen
    obtain ⟨rfl, hc, hcs, ht⟩ := execHeaderWith_valid rfl ((runSteps_serialize m w h c cs).symm.trans hrun) hvalid
    rw [ht.width, ht.height, ht.channels, ht.colorspace]
    exact ⟨rfl, hc, hcs⟩

end Sys2Proof.Machine
end

section
/-! SUPPORT. Once phase HEADER is left, the registers `channels` and `colorspace` are passed through (41_header.md R116): each operation of a step
commutes with a change of them. -/

namespace Sys2Proof.Machine

/-- The state with other `channels` and `colorspace`. -/
def State.withMode (c cs : Byte) (s : State) : State := { s with channels := c, colorspace := cs }

@[simp] theorem State.withMode_phase (c cs : Byte) (s : State) : (s.withMode c cs).phase = s.phase := rfl
@[simp] theorem State.withMode_op (c cs : Byte) (s : State) : (s.withMode c cs).op = s.op := rfl
@[simp] theorem State.withMode_scratch (c cs : Byte) (s : State) : (s.withMode c cs).scratch = s.scratch := rfl
@[simp] theorem State.withMode_input (c cs : Byte) (s : State) : (s.withMode c cs).input = s.input := rfl

/-- The outcome with other `channels` and `colorspace` in the next state, if there is one. -/
def modeChanged (c cs : Byte) (o : Host.Outcome State Fault Refusal) : Host.Outcome State Fault Refusal :=
  thenDo o fun t => .next (t.withMode c cs)

section
variable (c cs : Byte)

/-- Operations that commute with the change, one after the other. -/
theorem thenDo_modeChanged {f : State → Host.Outcome State Fault Refusal}
    (hf : ∀ s, f (s.withMode c cs) = modeChanged c cs (f s)) (o : Host.Outcome State Fault Refusal) :
    thenDo (modeChanged c cs o) f = modeChanged c cs (thenDo o f) := by
  cases o with
  | next s => exact hf s
  | fault r => rfl
  | refused r => rfl

/-! ## Opcodes -/

theorem emit_withMode (p : Pixel) (s : State) : emit p (s.withMode c cs) = modeChanged c cs (emit p s) := by
  unfold emit
  rw [apply_ite (modeChanged c cs)]
  rfl

theorem emitRun_withMode (p : Pixel) (k : Nat) (s : State) :
    emitRun p k (s.withMode c cs) = modeChanged c cs (emitRun p k s) := by
  induction k generalizing s with
  | zero => rfl
  | succ k ih => simp only [emitRun, emit_withMode, thenDo_modeChanged c cs ih]

theorem emitOne_withMode (p : Pixel) (s : State) : emitOne p (s.withMode c cs) = modeChanged c cs (emitOne p s) := by
  simp only [emitOne, emit_withMode]
  exact thenDo_modeChanged c cs (fun _ => rfl) _

theorem execRunWith_withMode (P : Params) (frun : BitVec 6) (s : State) :
    execRunWith P frun (s.withMode c cs) = modeChanged c cs (execRunWith P frun s) := by
  have hcopies := thenDo_modeChanged c cs (f := fun t => .next t.finish) (fun _ => rfl)
    (emitRun s.px (min (runLength frun) s.room) s)
  rw [← emitRun_withMode] at hcopies
  unfold execRunWith
  rw [apply_ite (modeChanged c cs), ← hcopies]
  rfl

theorem execWith_withMode (P : Params) {i : Instr} (hspace : i.space = .ops) (s : State) :
    execWith P i (s.withMode c cs) = modeChanged c cs (execWith P i s) := by
  cases i with
  | rgb r g b => exact emitOne_withMode c cs _ s
  | rgba r g b a => exact emitOne_withMode c cs _ s
  | index idx => exact emitOne_withMode c cs _ s
  | diff fr fg fb => exact emitOne_withMode c cs _ s
  | luma fg frg fbg => exact emitOne_withMode c cs _ s
  | run frun => exact execRunWith_withMode c cs P frun s
  | header _ _ _ _ _ => cases hspace
  | trailer => cases hspace

theorem runAssembled_withMode (P : Params) (s : State) :
    runAssembled P (s.withMode c cs) = modeChanged c cs (runAssembled P s) := by
  unfold runAssembled
  rw [State.withMode_op, State.withMode_scratch]
  cases hi : instrOf s.op s.scratch with
  | none => rfl
  | some i => exact execWith_withMode c cs P (instrOf_space hi) s

theorem opcodeByte_withMode (P : Params) (b : Byte) (s : State) :
    opcodeByte P b (s.withMode c cs) = modeChanged c cs (opcodeByte P b s) := by
  have hdata : s.op = .rgb ∨ s.op = .rgba ∨ s.op = .luma →
      opcodeByte P b (s.withMode c cs) = modeChanged c cs (opcodeByte P b s) := fun hop => by
    rw [opcodeByte_data P b hop, opcodeByte_data P b (s := s.withMode c cs) hop, apply_ite (modeChanged c cs),
      ← runAssembled_withMode]
    rfl
  cases hop : s.op with
  | none =>
    rw [opcodeByte_tag P b hop, opcodeByte_tag P b (s := s.withMode c cs) hop, apply_ite (modeChanged c cs),
      ← runAssembled_withMode]
    rfl
  | rgb => exact hdata (.inl hop)
  | rgba => exact hdata (.inr (.inl hop))
  | luma => exact hdata (.inr (.inr hop))
  | _ =>
    simp only [opcodeByte, hop, State.withMode_op]
    rfl

/-! ## The trailer and End -/

theorem trailerByte_withMode (P : Params) (b : Byte) (s : State) :
    trailerByte P b (s.withMode c cs) = modeChanged c cs (trailerByte P b s) := by
  simp only [trailerByte, execWith, execTrailer, apply_ite (modeChanged c cs)]
  rfl

theorem endEvent_withMode (s : State) : endEvent (s.withMode c cs) = (endEvent s).withMode c cs := by
  unfold endEvent
  rw [State.withMode_phase]
  cases s.phase with
  | trailer => exact (apply_ite (State.withMode c cs) (s.tcnt = 8) s.complete (raise .prematureEndOfStream s)).symm
  | _ => rfl

/-! ## One step -/

theorem accept_withMode (P : Params) (e : InputEvent) {s : State} (hphase : s.phase ≠ .header) :
    accept P e (s.withMode c cs) = modeChanged c cs (accept P e s) := by
  cases e with
  | endOfStream => exact congrArg Host.Outcome.next (endEvent_withMode c cs s)
  | byte b =>
    cases hp : s.phase with
    | header => exact absurd hp hphase
    | ops =>
      rw [accept_byte_ops P b hp, accept_byte_ops P b (s := s.withMode c cs) hp]
      exact opcodeByte_withMode c cs P b s
    | trailer =>
      rw [accept_byte_trailer P b hp, accept_byte_trailer P b (s := s.withMode c cs) hp]
      exact trailerByte_withMode c cs P b s
    | done =>
      rw [accept_of_terminal P _ (.inl hp), accept_of_terminal P _ (s := s.withMode c cs) (.inl hp)]
      rfl
    | failed =>
      rw [accept_of_terminal P _ (.inr hp), accept_of_terminal P _ (s := s.withMode c cs) (.inr hp)]
      rfl

theorem stepWith_withMode (P : Params) {s : State} (hphase : s.phase ≠ .header) :
    stepWith P (s.withMode c cs) = modeChanged c cs (stepWith P s) := by
  unfold stepWith
  rw [State.withMode_input]
  cases s.input with
  | nil => rfl
  | cons e es => exact accept_withMode c cs P e (s := s.withInput es) hphase

end

/-- Settles O50: outside phase HEADER a step commutes with every change of the two registers. -/
theorem channelsAndColorspaceNeverMatter : Obligations.ChannelsAndColorspaceNeverMatter :=
  fun _ _ c cs hphase hnext =>
    (stepWith_withMode c cs Config.params hphase).trans (congrArg (modeChanged c cs) hnext)

end Sys2Proof.Machine
end

section
/-! SUPPORT. The six opcodes (42_opcodes.md R127 to R138): what Pixels emitted and Finish do to each register, and from it the meaning of each
opcode, its frame and its bounds. -/

namespace Sys2Proof.Machine

/-! ## Pixels emitted and Finish -/

theorem wptr_add_room {s : State} (hroom : s.wptr < s.npix) : s.wptr.toNat + s.room = s.npix.toNat :=
  Nat.add_sub_of_le (Nat.le_of_lt hroom)

theorem keepsSession_emittedRun_finish (p : Pixel) (k : Nat) (s : State) : KeepsSession s (s.emittedRun p k).finish where
  hbuf := emittedRun_hbuf p k s
  hcnt := emittedRun_hcnt p k s
  width := emittedRun_width p k s
  height := emittedRun_height p k s
  channels := emittedRun_channels p k s
  colorspace := emittedRun_colorspace p k s
  hdrValid := emittedRun_hdrValid p k s
  npix := emittedRun_npix p k s
  tcnt := emittedRun_tcnt p k s
  err := emittedRun_err p k s
  runcnt := emittedRun_runcnt p k s
  input := emittedRun_input p k s

theorem emitsOne_emitted_finish (p : Pixel) (s : State) : EmitsOne p s (s.emitted p).finish where
  px := rfl
  wptr := rfl
  written := Memory.readPixel_writePixel_same _ _ _
  elsewhere := fun a ha => Memory.read_writePixel_other _ _ a p ha
  stored := cacheLookup_store_same _ p
  other_slots := cacheLookup_store_other _ p
  event := rfl
  phase := rfl
  finished := ⟨rfl, rfl, rfl⟩

theorem emittedRun_lookup_other (p : Pixel) (k : Nat) (s : State) (j : BitVec 6) (hj : j ≠ hashSlot p) :
    cacheLookup (s.emittedRun p k).cache j = cacheLookup s.cache j := by
  cases k with
  | zero => rfl
  | succ k => rw [emittedRun_cache_succ, cacheLookup_store_other _ _ _ hj]

/-- Pixels that fit leave phase OPS only when they fill the buffer (40_stream_sequencer.md R95). -/
theorem emittedRun_phase_eq_or_full (p : Pixel) (k : Nat) (s : State) (hk : k ≤ s.room) :
    (s.emittedRun p k).phase = s.phase ∨ (s.emittedRun p k).phase = .trailer ∧ (s.emittedRun p k).wptr = s.npix := by
  cases k with
  | zero => exact .inl rfl
  | succ k =>
    rw [emittedRun_phase p k s hk]
    split
    case isTrue hfull => exact .inr ⟨rfl, BitVec.eq_of_toNat_eq ((emittedRun_wptr p _ s hk).trans hfull)⟩
    case isFalse => exact .inl rfl

/-! ## The opcodes of one Pixel -/

theorem opcodeCount_of_ne_run {i : Instr} (hi : ∀ f, i ≠ .run f) (s : State) : opcodeCount i s = 1 := by
  cases i with
  | run f => exact absurd rfl (hi f)
  | _ => rfl

theorem exec_emitsOne {i : Instr} {s : State} (hspace : i.space = .ops) (hi : ∀ f, i ≠ .run f) (hroom : s.wptr < s.npix) :
    ∃ t, exec i s = .next t ∧ EmitsOne (opcodePixel Config.params i s) s t ∧ KeepsSession s t := by
  refine ⟨_, exec_opcode i s hspace hroom, ?_, keepsSession_emittedRun_finish _ _ s⟩
  rw [opcodeCount_of_ne_run hi]
  exact emitsOne_emitted_finish _ s

/-- Settles O15: RGB's Pixel has the stream's colour and the alpha of `px`. -/
theorem rgbEmitsItsColourWithPreviousAlpha : Obligations.RgbEmitsItsColourWithPreviousAlpha :=
  fun _ _ _ _ hroom => exec_emitsOne rfl nofun hroom

/-- Settles O16: RGBA's Pixel is its four data bytes. -/
theorem rgbaEmitsItsFourChannels : Obligations.RgbaEmitsItsFourChannels :=
  fun _ _ _ _ _ hroom => exec_emitsOne rfl nofun hroom

/-- Settles O17: INDEX's Pixel is looked up in the cache of the state before. -/
theorem indexEmitsTheCachedPixel : Obligations.IndexEmitsTheCachedPixel :=
  fun _ _ hroom => exec_emitsOne rfl nofun hroom

/-- Settles O18: each channel of DIFF's Pixel is a residue modulo 256. -/
theorem diffAddsItsDeltasModulo256 : Obligations.DiffAddsItsDeltasModulo256 := by
  intro fr fg fb s hroom
  obtain ⟨t, hexec, hemits, hkeeps⟩ := exec_emitsOne (i := .diff fr fg fb) rfl nofun hroom
  exact ⟨t, _, hexec, hemits, hkeeps, addChannel_toNat _ _, addChannel_toNat _ _, addChannel_toNat _ _, rfl⟩

/-- Settles O19: each channel of LUMA's Pixel is a residue modulo 256. -/
theorem lumaAddsItsDeltasModulo256 : Obligations.LumaAddsItsDeltasModulo256 := by
  intro fg frg fbg s hroom
  obtain ⟨t, hexec, hemits, hkeeps⟩ := exec_emitsOne (i := .luma fg frg fbg) rfl nofun hroom
  exact ⟨t, _, hexec, hemits, hkeeps, addChannel_toNat _ _, addChannel_toNat _ _, addChannel_toNat _ _, rfl⟩

/-- Settles O22: one Pixel has no place in a full buffer, and the defaults refuse no opcode. -/
theorem singlePixelOpcodesStopOnAFullBuffer : Obligations.SinglePixelOpcodesStopOnAFullBuffer := by
  intro i s hspace hi hfull
  rw [← execWith_default]
  rcases execWith_opcode_cases Config.params i s hspace with ⟨hrefused, _⟩ | ⟨_, hfault⟩ | ⟨_, hfit, _⟩
  · exact absurd hrefused (not_refusedRun_default i s)
  · exact hfault
  · rw [opcodeCount_of_ne_run hi] at hfit
    exact absurd ((room_pos_iff s).1 hfit) hfull

/-! ## RUN -/

/-- Settles O20: with room for one Pixel, RUN emits `px` at least once. -/
theorem runEmitsCopiesOfThePreviousPixel : Obligations.RunEmitsCopiesOfThePreviousPixel := by
  intro frun s hroom
  have hpos : 1 ≤ min (runLength frun) s.room := opcodeCount_pos (.run frun) s hroom
  have hexec := execRun_eq frun s
  have hcount : min (runLength frun) s.room = min (frun.toNat + 1) (s.npix.toNat - s.wptr.toNat) := rfl
  have hfit : min (runLength frun) s.room ≤ s.room := Nat.min_le_right _ _
  obtain ⟨k, hk⟩ := Nat.exists_eq_add_of_le' hpos
  rw [hk] at hexec hcount hfit
  exact ⟨_, k + 1, hexec, hcount, emittedRun_px_succ _ _ s, emittedRun_wptr _ _ s hfit, emittedRun_readPixel _ _ s hfit,
    emittedRun_read_other _ _ s hfit, by simp, emittedRun_lookup_other _ _ s, emittedRun_outputs _ _ s,
    emittedRun_phase _ _ s hfit, rfl, rfl, rfl, keepsSession_emittedRun_finish _ _ s⟩

/-- 42_opcodes.md R134: what the copies of a clamped RUN leave. -/
theorem emittedRun_room_fills (p : Pixel) {s : State} (hroom : s.wptr < s.npix) :
    (s.emittedRun p s.room).wptr = s.npix ∧ (s.emittedRun p s.room).phase = .trailer ∧ (s.emittedRun p s.room).px = p := by
  have hfills := wptr_add_room hroom
  refine ⟨BitVec.eq_of_toNat_eq ((emittedRun_wptr p _ s le_rfl).trans hfills), ?_⟩
  obtain ⟨k, hk⟩ := Nat.exists_eq_add_of_le' ((room_pos_iff s).2 hroom)
  rw [hk] at hfills ⊢
  exact ⟨by rw [emittedRun_phase p k s hk.ge, if_pos hfills], emittedRun_px_succ p k s⟩

/-- Settles O21: a RUN longer than the room is refused, or its copies are as many as the room. -/
theorem overlongRunClampsOrIsRefused : Obligations.OverlongRunClampsOrIsRefused := by
  intro P frun s hroom hlong
  change s.room < runLength frun at hlong
  refine ⟨fun hrefuse => if_pos ⟨hlong, hrefuse⟩, fun hclamp => ?_⟩
  rcases execRunWith_cases P frun s with ⟨⟨hrefuse, _⟩, _⟩ | ⟨_, hexec⟩
  · cases hclamp.symm.trans hrefuse
  · rw [Nat.min_eq_right hlong.le] at hexec
    have hfills := wptr_add_room hroom
    obtain ⟨hwptr, hphase, hpx⟩ := emittedRun_room_fills s.px hroom
    refine ⟨_, hexec, hwptr, emittedRun_npix _ _ s, hphase, emittedRun_err _ _ s, hpx, ?_, ?_⟩
    · intro i hlow hhigh
      exact emittedRun_readPixel _ _ s le_rfl i hlow (by omega)
    · intro a ha
      exact emittedRun_read_other _ _ s le_rfl a (.inr (by rw [pixelOffset]; omega))

/-! ## Alpha, frame and bounds -/

/-- It holds even of a RUN that emits nothing: its Pixel is `px`. -/
theorem exec_opcode_px {i : Instr} {s t : State} (hspace : i.space = .ops) (hexec : exec i s = .next t) :
    t.px = opcodePixel Config.params i s := by
  obtain ⟨rfl, _⟩ := exec_opcode_next hspace hexec
  rw [State.finish_px]
  cases i with
  | run frun =>
    cases opcodeCount (.run frun) s with
    | zero => rfl
    | succ k => exact emittedRun_px_succ _ k s
  | header _ _ _ _ _ => cases hspace
  | trailer => cases hspace
  | _ => rfl

theorem exec_opcode_alpha {i : Instr} {s t : State} (hspace : i.space = .ops) (hexec : exec i s = .next t) :
    t.px.a = (opcodePixel Config.params i s).a := congrArg Pixel.a (exec_opcode_px hspace hexec)

theorem execHeaderWith_px {P : Params} {m w h : BitVec 32} {c cs : Byte} {s t : State}
    (hexec : execHeaderWith P m w h c cs s = .next t) : t.px = s.px := by
  rcases execHeaderWith_cases P m w h c cs s with ⟨_, _, e⟩ | ⟨_, _, _, ⟨_, e⟩ | ⟨_, e⟩⟩ <;> cases e.symm.trans hexec
  · rfl
  · rfl

theorem execTrailer_px {s t : State} (hexec : execTrailer s = .next t) : t.px = s.px := by
  unfold execTrailer at hexec
  split at hexec <;> cases hexec
  · rfl
  · rfl

/-- Settles O23: after an opcode `px` is its Pixel, whose alpha is the old one but for RGBA and INDEX. -/
theorem alphaChangesOnlyByRgbaAndIndex : Obligations.AlphaChangesOnlyByRgbaAndIndex :=
  fun _ _ => ⟨fun _ _ _ => exec_opcode_alpha rfl, fun _ _ _ => exec_opcode_alpha rfl, fun _ _ _ => exec_opcode_alpha rfl,
    fun _ => exec_opcode_alpha rfl, fun _ _ _ _ => exec_opcode_alpha rfl, fun _ => exec_opcode_alpha rfl,
    fun _ _ _ _ _ => execHeaderWith_px, execTrailer_px⟩

/-- Settles O24: the frame of Pixels emitted and Finish, for a single Pixel and for a RUN. -/
theorem opcodesChangeNothingElse : Obligations.OpcodesChangeNothingElse := by
  intro i s t hspace hexec
  have hpx := exec_opcode_px hspace hexec
  obtain ⟨rfl, hfit⟩ := exec_opcode_next hspace hexec
  have hother := emittedRun_read_other (opcodePixel Config.params i s) _ s hfit
  refine ⟨keepsSession_emittedRun_finish _ _ s, emittedRun_phase_eq_or_full _ _ s hfit, fun j hj => ?_, fun a hi ha => ?_,
    fun a f hi ha => ?_, _, emittedRun_outputs _ _ s⟩
  · rw [hpx] at hj
    exact emittedRun_lookup_other _ _ s j hj
  · exact hother a (by rw [opcodeCount_of_ne_run hi]; exact ha)
  · subst hi
    exact hother a ha

/-- Settles O25: `wptr` grows by the number of Pixels emitted. -/
theorem opcodesEmitOneToSixtyTwoPixels : Obligations.OpcodesEmitOneToSixtyTwoPixels := by
  intro i s t hspace hwf hroom hexec
  obtain ⟨rfl, hfit⟩ := exec_opcode_next hspace hexec
  have hpos := opcodeCount_pos i s hroom
  have hmax := opcodeCount_le hwf s
  have hend := wptr_add_room hroom
  rw [State.finish_wptr, emittedRun_wptr _ _ s hfit]
  omega

end Sys2Proof.Machine
end

section
/-! SUPPORT. The tagged variant of an opcode in progress (42_opcodes.md R139): in the session invariant the bytes it leaves out are clear. -/

namespace Sys2Proof.Machine

theorem length_receivedData {s : State} (hcnt : s.cnt.toNat ≤ 5) : (receivedData s).length = s.cnt.toNat - 1 := by
  rw [receivedData, List.length_take, List.length_drop, Vector.length_toList]
  omega

/-- 10_state.md R13: the entries of `scratch` from `cnt` on are clear, so the data received so far and zeros are all of them. -/
theorem SessionInv.getD_receivedData {s : State} (hs : SessionInv s) {k : Nat} (hk : k + 1 < 5) :
    (receivedData s).getD k 0 = s.scratch[k + 1] := by
  by_cases hreceived : k < s.cnt.toNat - 1
  · simp [receivedData, hreceived, hk]
  · have hclear := hs.scratch_clear ⟨k + 1, hk⟩ (by show s.cnt.toNat ≤ k + 1; omega)
    rw [List.getD_eq_default, hclear]
    exact (List.length_take_le _ _).trans (Nat.le_of_not_lt hreceived)

theorem SessionInv.scratch_eq {s : State} (hs : SessionInv s) :
    #v[s.scratch[0], (receivedData s).getD 0 0, (receivedData s).getD 1 0, (receivedData s).getD 2 0,
      (receivedData s).getD 3 0] = s.scratch := by
  rw [hs.getD_receivedData (k := 0) (by decide), hs.getD_receivedData (k := 1) (by decide),
    hs.getD_receivedData (k := 2) (by decide), hs.getD_receivedData (k := 3) (by decide)]
  ext j hj
  interval_cases j <;> rfl

theorem cnt_of_receivedData {s : State} (hlow : 1 ≤ s.cnt.toNat) (hhigh : s.cnt.toNat ≤ 5) :
    BitVec.ofNat 3 ((receivedData s).length + 1) = s.cnt := by
  rw [length_receivedData hhigh, Nat.sub_add_cancel hlow, BitVec.ofNat_toNat, BitVec.setWidth_eq]

/-- Settles O60: in the three kinds of several bytes the tag stands in `scratch[0]`, and the data behind it tell the rest and `cnt`. -/
theorem taggedVariantIsLossless : Obligations.TaggedVariantIsLossless := by
  intro s hs
  have hscratch := hs.scratch_eq
  obtain ⟨hindex, hdiff, hrun⟩ := hs.op_between
  unfold assemblyOf
  cases hop : s.op with
  | none =>
    obtain ⟨hcnt, hclear⟩ := hs.op_none hop
    rw [hcnt, hclear]
    rfl
  | rgb =>
    obtain ⟨hlow, hhigh, htag⟩ := hs.op_rgb hop
    rw [htag] at hscratch
    simp only [assemblyRegisters, hscratch, cnt_of_receivedData hlow (by omega)]
  | rgba =>
    obtain ⟨hlow, hhigh, htag⟩ := hs.op_rgba hop
    rw [htag] at hscratch
    simp only [assemblyRegisters, hscratch, cnt_of_receivedData hlow (by omega)]
  | luma =>
    obtain ⟨hcnt, _⟩ := hs.op_luma hop
    have hnoData : receivedData s = [] := by
      rw [← List.length_eq_zero_iff, length_receivedData (by rw [hcnt]; decide), hcnt]
      rfl
    rw [hnoData] at hscratch
    rw [hcnt, ← hscratch]
    rfl
  | index => exact absurd hop hindex
  | diff => exact absurd hop hdiff
  | run => exact absurd hop hrun

end Sys2Proof.Machine
end

section
/-! SUPPORT. The Color Cache (43_color_cache.md): the hash, the store of an opcode's Pixel, and the re-store of INDEX. -/

namespace Sys2Proof.Machine

/-! ## The hash (R150) -/

theorem hashSlot_toNat (p : Pixel) :
    (hashSlot p).toNat = (p.r.toNat * 3 + p.g.toNat * 5 + p.b.toNat * 7 + p.a.toNat * 11) % 64 := by
  rw [hashSlot, BitVec.toNat_ofNat, Nat.mod_mod]

theorem hashSlot_clear : hashSlot ⟨0, 0, 0, 0⟩ = 0 := rfl

theorem mod_64_of_lowBits {c d : Byte} (h : c.extractLsb' 0 6 = d.extractLsb' 0 6) : c.toNat % 64 = d.toNat % 64 :=
  (congrArg BitVec.toNat h :)

/-- Settles O28: modulo 64 the sum depends on the channels modulo 64 alone, which are their low six bits. -/
theorem hashIsTheStatedFormula : Obligations.HashIsTheStatedFormula := by
  refine ⟨hashSlot_toNat, fun p q hr hg hb ha => BitVec.eq_of_toNat_eq ?_⟩
  have hr := mod_64_of_lowBits hr
  have hg := mod_64_of_lowBits hg
  have hb := mod_64_of_lowBits hb
  have ha := mod_64_of_lowBits ha
  rw [hashSlot_toNat, hashSlot_toNat]
  omega

/-! ## The store (R152, R155) -/

/-- The copies of a RUN go to one slot, so as soon as one Pixel is emitted the cache has exactly one store. -/
theorem exec_opcode_cache {i : Instr} {s t : State} (hspace : i.space = .ops) (hcount : 1 ≤ opcodeCount i s)
    (hexec : exec i s = .next t) : t.cache = cacheStore s.cache (opcodePixel Config.params i s) := by
  obtain ⟨k, hk⟩ := Nat.exists_eq_add_of_le' hcount
  obtain ⟨rfl, _⟩ := exec_opcode_next hspace hexec
  rw [State.finish_cache, hk, emittedRun_cache_succ]

/-- Settles O29: with room at least one Pixel is emitted, and it is `px` afterwards. -/
theorem cacheStoreOverwritesItsSlotOnly : Obligations.CacheStoreOverwritesItsSlotOnly := by
  refine ⟨fun cache p => congrFun (cacheLookup_store cache p), fun i s t hspace hroom hexec => ?_⟩
  rw [exec_opcode_px hspace hexec]
  exact exec_opcode_cache hspace (opcodeCount_pos i s hroom) hexec

/-- Settles O30: INDEX stores what it looked up, either where it stood or, if it is clear, in slot 0. -/
theorem indexRestoreMayDisplaceSlotZero : Obligations.IndexRestoreMayDisplaceSlotZero := by
  intro idx s t hexec
  have hcache : t.cache = cacheStore s.cache (cacheLookup s.cache idx) :=
    exec_opcode_cache (i := .index idx) rfl le_rfl hexec
  refine ⟨fun hslot => ?_, fun hclear => ?_⟩
  · rw [hcache, cacheStore_of_lookup _ _ (congrArg _ hslot)]
  · rw [hcache, hclear, cacheLookup_store, hashSlot_clear]
    exact ⟨if_pos rfl, fun _ hj => if_neg hj⟩

end Sys2Proof.Machine
end

section
/-! SUPPORT. The registers of the opcode state machine and the Pixel Buffer outside phase OPS (43_color_cache.md R157, 44_trailer.md R160,
41_header.md R115). -/

namespace Sys2Proof.Machine

theorem keepsPixels_refl (s : State) : KeepsPixels s s := ⟨rfl, rfl, rfl, rfl, rfl, rfl, rfl⟩

theorem keepsPixels_raise (k : ErrorKind) (s : State) : KeepsPixels s (raise k s) := { keepsPixels_refl s with }

/-- The events to come are none of these registers. -/
theorem KeepsPixels.of_withInput {s t : State} {es : List InputEvent} (h : KeepsPixels (s.withInput es) t) : KeepsPixels s t :=
  { h with }

/-- A header byte may write the buffer: an accepted header allocates it (41_header.md R115). -/
theorem keepsPixels_headerByte {P : Params} {b : Byte} {s t : State} (hnext : headerByte P b s = .next t) :
    KeepsPixels s t := by
  rcases headerByte_next hnext with ⟨_, rfl⟩ | ⟨_, _, _, _, _, _, _, ⟨k, _, rfl⟩ | ⟨_, _, _, _, rfl⟩⟩
  · exact { keepsPixels_refl s with }
  · exact { keepsPixels_refl s with }
  · exact { keepsPixels_refl s with }

theorem keepsPixels_pb_trailerByte {P : Params} {b : Byte} {s t : State} (hnext : trailerByte P b s = .next t) :
    KeepsPixels s t ∧ t.pb = s.pb := by
  rcases trailerByte_cases P b s with ⟨e, _⟩ | ⟨e, _⟩ | ⟨e, _⟩ <;> cases e.symm.trans hnext
  · exact ⟨keepsPixels_raise _ s, rfl⟩
  · exact ⟨{ keepsPixels_refl s with }, rfl⟩
  · exact ⟨{ keepsPixels_refl s with }, rfl⟩

theorem keepsPixels_pb_endEvent (s : State) : KeepsPixels s (endEvent s) ∧ (endEvent s).pb = s.pb := by
  rcases endEvent_cases s with ⟨e, _⟩ | ⟨e, _⟩ | ⟨e, _⟩ <;> rw [e]
  · exact ⟨keepsPixels_raise _ s, rfl⟩
  · exact ⟨{ keepsPixels_refl s with }, rfl⟩
  · exact ⟨keepsPixels_refl s, rfl⟩

/-- Settles O47: none of the operations of a step outside phase OPS emits a Pixel, and only HEADER's acceptance writes the buffer. -/
theorem onlyOpcodesTouchPixelState : Obligations.OnlyOpcodesTouchPixelState := by
  intro s t hphase hnext
  rcases step_cases hnext with ⟨_, rfl⟩ | ⟨es, _, rfl⟩ |
    ⟨b, es, _, ⟨hheader, h⟩ | ⟨hops, _⟩ | ⟨_, h⟩ | ⟨_, rfl⟩⟩
  · exact ⟨keepsPixels_refl t, fun _ => rfl⟩
  · obtain ⟨hkeeps, hpb⟩ := keepsPixels_pb_endEvent (s.withInput es)
    exact ⟨hkeeps.of_withInput, fun _ => hpb⟩
  · exact ⟨(keepsPixels_headerByte h).of_withInput, fun hlater => absurd hheader hlater⟩
  · exact absurd hops hphase
  · obtain ⟨hkeeps, hpb⟩ := keepsPixels_pb_trailerByte h
    exact ⟨hkeeps.of_withInput, fun _ => hpb⟩
  · exact ⟨(keepsPixels_refl (s.withInput es)).of_withInput, fun _ => rfl⟩

end Sys2Proof.Machine
end

section
/-! SUPPORT. TRAILER (44_trailer.md R160 to R162): its bytes one by one, and the record as one instruction. -/

namespace Sys2Proof.Machine

theorem trailerByte_mismatch (P : Params) {b : Byte} {s : State}
    (hbad : 8 ≤ s.tcnt.toNat ∨ b ≠ trailerExpected s.tcnt.toNat) :
    trailerByte P b s = .next (raise .trailerMismatch s) := by
  rcases trailerByte_cases P b s with ⟨e, _⟩ | ⟨_, hlast, hgood⟩ | ⟨_, hmore, hgood⟩
  · exact e
  · exact absurd hgood (hbad.resolve_left (by omega))
  · exact absurd hgood (hbad.resolve_left (by omega))

theorem trailerExpected_of_lt {k : Nat} (h : k < 7) : trailerExpected k = 0x00 := trailerExpected_of_ne h.ne

theorem step_trailerByte {s : State} {b : Byte} {es : List InputEvent} (hphase : s.phase = .trailer)
    (hin : s.input = .byte b :: es) : step s = trailerByte Config.params b (s.withInput es) :=
  (step_of_input hin).trans (accept_byte_trailer Config.params b (s := s.withInput es) hphase)

/-- Settles O39: a step in TRAILER is its byte's check, and the byte expected is 00 below position 7 and 01 there. -/
theorem trailerBytesAreCheckedByPosition : Obligations.TrailerBytesAreCheckedByPosition := by
  intro s b es hphase hin
  rw [step_trailerByte hphase hin]
  refine ⟨fun hlow hzero => ?_, fun hseven hone => ?_, fun hbad => ?_⟩
  · exact trailerByte_more _ (s := s.withInput es) hlow (hzero.trans (trailerExpected_of_lt hlow).symm)
  · have hgood : b = trailerExpected s.tcnt.toNat := by rw [hseven, hone, trailerExpected_seven]
    exact trailerByte_last _ (s := s.withInput es) hseven hgood
  · apply trailerByte_mismatch
    rw [State.withInput_tcnt]
    rcases hbad with ⟨hlow, hzero⟩ | ⟨hseven, hone⟩ | hfull
    · exact .inr (by rwa [trailerExpected_of_lt hlow])
    · exact .inr (by rwa [hseven, trailerExpected_seven])
    · exact .inl hfull

theorem execTrailer_of_ge {s : State} (h : 8 ≤ s.tcnt.toNat) : execTrailer s = .next (raise .trailerMismatch s) := if_pos h

/-- Settles O40: below `tcnt = 8` the record is accepted, and from there on it is a further byte. -/
theorem trailerInstructionCompletes : Obligations.TrailerInstructionCompletes :=
  fun s => ⟨fun hlow => ⟨s.verifyTrailer, execTrailer_of_lt hlow, rfl, rfl, rfl⟩, execTrailer_of_ge⟩

end Sys2Proof.Machine
end

section
/-! SUPPORT. The result of a session (45_pixel_buffer.md R174, R175): a canonical buffer that is written from offset 0 on without a gap lists its
bytes in address order. -/

namespace Sys2Proof.Machine

/-! ## A buffer without gaps -/

theorem read_memoryOf (bs : List Byte) (a : Nat) : Memory.read (memoryOf bs) a = bs[a]? := by
  induction bs using List.reverseRecOn with
  | nil => rfl
  | append_singleton bs v ih =>
    rw [← write_memoryOf bs v rfl]
    by_cases ha : a = bs.length
    · rw [ha, Memory.read_write_same, List.getElem?_concat_length]
    · rw [Memory.read_write_other _ _ _ _ ha, ih, List.getElem?_append]
      split
      · rfl
      · rw [List.getElem?_eq_none (by omega), List.getElem?_eq_none (by simp; omega)]

theorem wf_memoryOf (bs : List Byte) : Memory.wf (memoryOf bs) := by
  induction bs using List.reverseRecOn with
  | nil => exact List.Pairwise.nil
  | append_singleton bs v ih =>
    rw [← write_memoryOf bs v rfl]
    exact Memory.wf_write _ _ _ ih

/-- The canonical form has one buffer for the bytes that are read. -/
theorem Memory.eq_memoryOf {m : Memory} {n : Nat} (hwf : Memory.wf m)
    (hwritten : ∀ a, (Memory.read m a).isSome = true ↔ a < n) : ∃ bs : List Byte, bs.length = n ∧ m = memoryOf bs := by
  refine ⟨(List.range n).map fun a => (Memory.read m a).getD 0, by simp, ?_⟩
  refine Memory.ext_of_wf _ _ hwf (wf_memoryOf _) fun a => ?_
  rw [read_memoryOf]
  by_cases ha : a < n
  · obtain ⟨v, hv⟩ := Option.isSome_iff_exists.1 ((hwritten a).2 ha)
    simp [ha, hv]
  · have hnone : Memory.read m a = none := Option.not_isSome_iff_eq_none.1 (mt (hwritten a).1 ha)
    simp [ha, hnone]

/-- The bytes that a canonical buffer lists are the bytes that are read, if none is missing. -/
theorem Memory.bytes_of_written {m : Memory} {n : Nat} (hwf : Memory.wf m)
    (hwritten : ∀ a, (Memory.read m a).isSome = true ↔ a < n) :
    (m.map (·.2)).length = n ∧ ∀ a : Nat, (m.map (·.2))[a]? = Memory.read m a := by
  obtain ⟨bs, rfl, rfl⟩ := Memory.eq_memoryOf hwf hwritten
  rw [memoryOf_bytes]
  exact ⟨rfl, fun a => (read_memoryOf bs a).symm⟩

/-! ## The result -/

theorem result_isSome_iff (s : State) : s.result.isSome = true ↔ s.phase = .done := by
  unfold State.result
  split <;> simp [*]

theorem result_eq_some {s : State} {r : Result} (h : s.result = some r) :
    s.phase = .done ∧ r = ⟨s.width, s.height, s.pb.map (·.2)⟩ := by
  have hphase : s.phase = .done := (result_isSome_iff s).1 (h ▸ rfl)
  rw [State.result, if_pos hphase] at h
  exact ⟨hphase, (Option.some.inj h).symm⟩

/-- Settles O53: in DONE the buffer is full, so it is its bytes from offset 0 on, without a gap. -/
theorem resultExistsExactlyWhenDone : Obligations.ResultExistsExactlyWhenDone := by
  intro s hs
  refine ⟨result_isSome_iff s, fun r hr => ?_⟩
  obtain ⟨hphase, rfl⟩ := result_eq_some hr
  obtain ⟨hlen, hbytes⟩ := Memory.bytes_of_written hs.pb_wf hs.pb_written
  rw [hs.wptr_of_done hphase] at hlen
  exact ⟨rfl, rfl, hlen, hbytes⟩

end Sys2Proof.Machine
end

section
/-! SUPPORT. No operation of a step reads the Pixel Buffer (45_pixel_buffer.md R173, 20_memory.md R46): each answers the same under every other
buffer, but for the buffer of the next state. -/

namespace Sys2Proof.Machine

/-- The state with another Pixel Buffer. -/
def State.withBuffer (m : Memory) (s : State) : State := { s with pb := m }

@[simp] theorem State.withBuffer_phase (m : Memory) (s : State) : (s.withBuffer m).phase = s.phase := rfl
@[simp] theorem State.withBuffer_op (m : Memory) (s : State) : (s.withBuffer m).op = s.op := rfl
@[simp] theorem State.withBuffer_scratch (m : Memory) (s : State) : (s.withBuffer m).scratch = s.scratch := rfl
@[simp] theorem State.withBuffer_input (m : Memory) (s : State) : (s.withBuffer m).input = s.input := rfl

/-- The outcomes are the same but for the buffer of the next state, if there is one. -/
def AlikeButBuffer (o o' : Host.Outcome State Fault Refusal) : Prop :=
  ∃ m, o' = thenDo o fun t => .next (t.withBuffer m)

/-- The operation does not read the buffer. -/
def IgnoresBuffer (f : State → Host.Outcome State Fault Refusal) : Prop :=
  ∀ m s, AlikeButBuffer (f s) (f (s.withBuffer m))

/-! ## How operations are put together -/

theorem alikeButBuffer_next (m : Memory) (s : State) : AlikeButBuffer (.next s) (.next (s.withBuffer m)) := ⟨m, rfl⟩

theorem alikeButBuffer_fault (r : Fault) : AlikeButBuffer (.fault r) (.fault r) := ⟨[], rfl⟩

theorem alikeButBuffer_refused (r : Refusal) : AlikeButBuffer (.refused r) (.refused r) := ⟨[], rfl⟩

theorem AlikeButBuffer.ite {q : Prop} [Decidable q] {a b a' b' : Host.Outcome State Fault Refusal}
    (ha : AlikeButBuffer a a') (hb : AlikeButBuffer b b') : AlikeButBuffer (if q then a else b) (if q then a' else b') := by
  split
  · exact ha
  · exact hb

theorem AlikeButBuffer.thenDo {o o' : Host.Outcome State Fault Refusal} (ho : AlikeButBuffer o o')
    {f : State → Host.Outcome State Fault Refusal} (hf : IgnoresBuffer f) : AlikeButBuffer (thenDo o f) (thenDo o' f) := by
  obtain ⟨m, rfl⟩ := ho
  cases o with
  | next s => exact hf m s
  | fault r => exact alikeButBuffer_fault r
  | refused r => exact alikeButBuffer_refused r

/-! ## Opcodes -/

theorem ignoresBuffer_emit (p : Pixel) : IgnoresBuffer (emit p) := fun m s =>
  .ite (alikeButBuffer_next (Memory.writePixel m (pixelOffset s.wptr) p) (s.emitted p)) (alikeButBuffer_fault _)

theorem ignoresBuffer_finish : IgnoresBuffer fun t => .next t.finish := fun m s => alikeButBuffer_next m s.finish

theorem ignoresBuffer_emitRun (p : Pixel) (k : Nat) : IgnoresBuffer (emitRun p k) := by
  induction k with
  | zero => exact alikeButBuffer_next
  | succ k ih => exact fun m s => (ignoresBuffer_emit p m s).thenDo ih

theorem ignoresBuffer_emitOne (p : Pixel) : IgnoresBuffer (emitOne p) := fun m s =>
  (ignoresBuffer_emit p m s).thenDo ignoresBuffer_finish

theorem ignoresBuffer_execRunWith (P : Params) (frun : BitVec 6) : IgnoresBuffer (execRunWith P frun) := fun m s =>
  .ite (alikeButBuffer_refused _) ((ignoresBuffer_emitRun s.px (min (runLength frun) s.room) m s).thenDo ignoresBuffer_finish)

/-! ## HEADER and TRAILER -/

theorem ignoresBuffer_raise (k : ErrorKind) : IgnoresBuffer fun s => .next (raise k s) := fun m s =>
  alikeButBuffer_next m (raise k s)

/-- An accepted header gives both the same unwritten buffer (41_header.md R115). -/
theorem ignoresBuffer_execHeaderWith (P : Params) (magic w h : BitVec 32) (c cs : Byte) :
    IgnoresBuffer (execHeaderWith P magic w h c cs) := fun m s =>
  let t := s.withHeaderBytes (headerBytes magic w h c cs)
  .ite (ignoresBuffer_raise _ m t) <| .ite (ignoresBuffer_raise _ m t) <| .ite (ignoresBuffer_raise _ m t) <|
    .ite (alikeButBuffer_refused _) (alikeButBuffer_next [] (t.acceptHeader w h c cs))

theorem ignoresBuffer_execTrailer : IgnoresBuffer execTrailer := fun m s =>
  .ite (ignoresBuffer_raise _ m s) (alikeButBuffer_next m s.verifyTrailer)

theorem ignoresBuffer_execWith (P : Params) (i : Instr) : IgnoresBuffer (execWith P i) := fun m s => by
  cases i with
  | rgb r g b => exact ignoresBuffer_emitOne _ m s
  | rgba r g b a => exact ignoresBuffer_emitOne _ m s
  | index idx => exact ignoresBuffer_emitOne _ m s
  | diff fr fg fb => exact ignoresBuffer_emitOne _ m s
  | luma fg frg fbg => exact ignoresBuffer_emitOne _ m s
  | run frun => exact ignoresBuffer_execRunWith P frun m s
  | header magic w h c cs => exact ignoresBuffer_execHeaderWith P magic w h c cs m s
  | trailer => exact ignoresBuffer_execTrailer m s

/-! ## The bytes of each phase -/

theorem ignoresBuffer_headerByte (P : Params) (b : Byte) : IgnoresBuffer (headerByte P b) := fun m s =>
  .ite (ignoresBuffer_execWith P _ m (s.storeHeaderByte b)) (alikeButBuffer_next m (s.storeHeaderByte b))

theorem ignoresBuffer_runAssembled (P : Params) : IgnoresBuffer (runAssembled P) := fun m s => by
  unfold runAssembled
  rw [State.withBuffer_op, State.withBuffer_scratch]
  cases instrOf s.op s.scratch with
  | none => exact alikeButBuffer_fault _
  | some i => exact ignoresBuffer_execWith P i m s

theorem ignoresBuffer_opcodeByte (P : Params) (b : Byte) : IgnoresBuffer (opcodeByte P b) := fun m s => by
  have hdata (q : Prop) [Decidable q] := AlikeButBuffer.ite (q := q) (ignoresBuffer_runAssembled P m (s.storeData b))
    (alikeButBuffer_next m (s.storeData b))
  unfold opcodeByte
  rw [State.withBuffer_op]
  cases s.op with
  | none => exact .ite (ignoresBuffer_runAssembled P m (s.storeTag b)) (alikeButBuffer_next m (s.storeTag b))
  | rgb => exact hdata (s.cnt.toNat + 1 = 4)
  | rgba => exact hdata (s.cnt.toNat + 1 = 5)
  | luma => exact hdata (s.cnt.toNat + 1 = 2)
  | _ => exact alikeButBuffer_fault _

theorem ignoresBuffer_trailerByte (P : Params) (b : Byte) : IgnoresBuffer (trailerByte P b) := fun m s =>
  .ite (ignoresBuffer_raise _ m s) <| .ite (ignoresBuffer_raise _ m s) <|
    .ite (ignoresBuffer_execWith P .trailer m s) (alikeButBuffer_next m s.bumpTrailer)

/-! ## One step -/

theorem endEvent_withBuffer (m : Memory) (s : State) : endEvent (s.withBuffer m) = (endEvent s).withBuffer m := by
  unfold endEvent
  rw [State.withBuffer_phase]
  cases s.phase with
  | trailer => exact (apply_ite (State.withBuffer m) (s.tcnt = 8) s.complete (raise .prematureEndOfStream s)).symm
  | _ => rfl

theorem ignoresBuffer_byteEvent (P : Params) (b : Byte) : IgnoresBuffer (byteEvent P b) := fun m s => by
  unfold byteEvent
  rw [State.withBuffer_phase]
  cases s.phase with
  | header => exact ignoresBuffer_headerByte P b m s
  | ops => exact ignoresBuffer_opcodeByte P b m s
  | trailer => exact ignoresBuffer_trailerByte P b m s
  | done => exact alikeButBuffer_next m s
  | failed => exact alikeButBuffer_next m s

theorem ignoresBuffer_accept (P : Params) (e : InputEvent) : IgnoresBuffer (accept P e) := fun m s => by
  cases e with
  | endOfStream => exact ⟨m, congrArg Host.Outcome.next (endEvent_withBuffer m s)⟩
  | byte b => exact ignoresBuffer_byteEvent P b m s

theorem ignoresBuffer_stepWith (P : Params) : IgnoresBuffer (stepWith P) := fun m s => by
  unfold stepWith
  rw [State.withBuffer_input]
  cases s.input with
  | nil => exact alikeButBuffer_next m s
  | cons e es => exact ignoresBuffer_accept P e m (s.withInput es)

/-- Settles O51: every operation that a step is made of answers the same whatever the buffer holds. -/
theorem theCoreNeverReadsTheBuffer : Obligations.TheCoreNeverReadsTheBuffer := by
  intro s t m hnext
  obtain ⟨m', hm'⟩ := ignoresBuffer_stepWith Config.params m s
  exact ⟨m', hm'.trans (congrArg (thenDo · fun t => .next (t.withBuffer m')) hnext)⟩

end Sys2Proof.Machine
end

section
/-! SUPPORT. The failures of one step (60_exceptions.md R180 to R188): it raises one error kind, with the kind's cause, or leaves `err` and does not
fail. -/

namespace Sys2Proof.Machine

/-! ## The checks of a received header (41_header.md R111, R113, R114) -/

/-- The check that kind `k` stands for is the first one that the 14 bytes in `v` do not pass. -/
def HeaderCheckFails (P : Params) (v : Vector Byte 14) (k : ErrorKind) : Prop :=
  match k with
  | .headerMagicMismatch => v.toList.take 4 ≠ (serialize P.magic 0 0 0 0).take 4
  | .unsupportedChannelMode => v.toList.take 4 = (serialize P.magic 0 0 0 0).take 4 ∧ v[12] ≠ 3 ∧ v[12] ≠ 4
  | .unsupportedColorspaceMode => v.toList.take 4 = (serialize P.magic 0 0 0 0).take 4 ∧ (v[12] = 3 ∨ v[12] = 4) ∧ v[13] ≠ 0 ∧ v[13] ≠ 1
  | .trailerMismatch => False
  | .prematureEndOfStream => False

/-- The first four bytes of a header are its magic, big-endian. -/
theorem take_four_serialize (m w h : BitVec 32) (c cs : Byte) :
    (serialize m w h c cs).take 4 = [byteOf32 m 0, byteOf32 m 1, byteOf32 m 2, byteOf32 m 3] := rfl

theorem take_four_serialize_inj {m m' w w' h h' : BitVec 32} {c c' cs cs' : Byte} :
    (serialize m w h c cs).take 4 = (serialize m' w' h' c' cs').take 4 ↔ m = m' := by
  constructor
  · intro hbytes
    simp only [take_four_serialize, List.cons.injEq, and_true] at hbytes
    obtain ⟨h0, h1, h2, h3⟩ := hbytes
    rw [← be32_byteOf32 m, h0, h1, h2, h3, be32_byteOf32]
  · rintro rfl
    rfl

theorem take_four_of_headerOf {v : Vector Byte 14} {m w h : BitVec 32} {c cs : Byte} (hv : headerOf v = .header m w h c cs)
    (magic : BitVec 32) : v.toList.take 4 = (serialize magic 0 0 0 0).take 4 ↔ m = magic := by
  have hbytes : v.toList = serialize m w h c cs := by rw [serialize, ← hv, encode_headerOf]
  rw [hbytes, take_four_serialize_inj]

theorem headerCheckFails_of_headerOf {P : Params} {v : Vector Byte 14} {m w h : BitVec 32} {c cs : Byte} {k : ErrorKind}
    (hv : headerOf v = .header m w h c cs)
    (hk : k = .headerMagicMismatch ∧ m ≠ P.magic ∨ k = .unsupportedChannelMode ∧ m = P.magic ∧ c ≠ 3 ∧ c ≠ 4 ∨
      k = .unsupportedColorspaceMode ∧ m = P.magic ∧ (c = 3 ∨ c = 4) ∧ cs ≠ 0 ∧ cs ≠ 1) :
    HeaderCheckFails P v k := by
  obtain ⟨_, _, rfl, rfl⟩ := headerOf_fields v m w h c cs hv
  have hmagic := take_four_of_headerOf hv P.magic
  rcases hk with ⟨rfl, hm⟩ | ⟨rfl, hm, hc⟩ | ⟨rfl, hm, hc, hcs⟩
  · exact fun hbytes => hm (hmagic.1 hbytes)
  · exact ⟨hmagic.2 hm, hc⟩
  · exact ⟨hmagic.2 hm, hc, hcs⟩

/-! ## The failure of a step -/

/-- From `s` to `t` kind `k` is raised: the event, the phase and the condition of 60_exceptions.md R181 to R185, and the effect of R188. -/
inductive Raises (P : Params) (s t : State) : ErrorKind → Prop
  | header {k : ErrorKind} (b : Byte) (es : List InputEvent) (hin : s.input = .byte b :: es) (hphase : s.phase = .header)
      (hlast : s.hcnt = 13) (hfails : HeaderCheckFails P t.hbuf k) (ht : t = raise k ((s.withInput es).storeHeaderByte b)) :
      Raises P s t k
  | trailer (b : Byte) (es : List InputEvent) (hin : s.input = .byte b :: es) (hphase : s.phase = .trailer)
      (hbad : 8 ≤ s.tcnt.toNat ∨ b ≠ trailerExpected s.tcnt.toNat) (ht : t = raise .trailerMismatch (s.withInput es)) :
      Raises P s t .trailerMismatch
  | endOfStream (es : List InputEvent) (hin : s.input = .endOfStream :: es)
      (hphase : s.phase = .header ∨ s.phase = .ops ∨ s.phase = .trailer ∧ s.tcnt ≠ 8)
      (ht : t = raise .prematureEndOfStream (s.withInput es)) : Raises P s t .prematureEndOfStream

/-- From `s` to `t` nothing is raised. -/
def DoesNotFail (s t : State) : Prop := t.err = s.err ∧ t.phase ≠ .failed

theorem Raises.err {P : Params} {s t : State} {k : ErrorKind} (h : Raises P s t k) : t.err = some k := by
  cases h with
  | header _ _ _ _ _ _ ht => rw [ht, raise_err]
  | trailer _ _ _ _ _ ht => rw [ht, raise_err]
  | endOfStream _ _ _ ht => rw [ht, raise_err]

theorem headerByte_raises_or_doesNotFail {P : Params} {b : Byte} {s : State} {es : List InputEvent} {t : State} (hin : s.input = .byte b :: es)
    (hphase : s.phase = .header) (hnext : headerByte P b (s.withInput es) = .next t) :
    (∃ k, Raises P s t k) ∨ DoesNotFail s t := by
  rcases headerByte_next hnext with ⟨_, rfl⟩ | ⟨hlast, m, w, h, c, cs, hfields, ⟨k, hk, rfl⟩ | ⟨_, _, _, _, rfl⟩⟩
  · exact .inr ⟨rfl, hphase.trans_ne (by decide)⟩
  · rw [State.withInput_hcnt] at hlast
    exact .inl ⟨k, .header b es hin hphase (by bv_omega) (headerCheckFails_of_headerOf hfields hk) rfl⟩
  · refine .inr ⟨rfl, ?_⟩
    rcases acceptHeader_phase_cases w h c cs ((s.withInput es).storeHeaderByte b) with ⟨e, _⟩ | ⟨e, _⟩ <;>
      exact e.trans_ne (by decide)

theorem opcodeByte_err {P : Params} {b : Byte} {s t : State} (hnext : opcodeByte P b s = .next t) : t.err = s.err := by
  rcases opcodeByte_next hnext with ⟨rfl, _⟩ | ⟨rfl, _⟩ | ⟨i, u, hu, _, hspace, hexec⟩
  · rfl
  · rfl
  · obtain ⟨rfl, _⟩ := execWith_opcode_next hspace hexec
    rw [State.finish_err, emittedRun_err]
    rcases hu with rfl | rfl <;> rfl

theorem opcodeByte_doesNotFail {P : Params} {b : Byte} {s t : State} (hphase : s.phase = .ops)
    (hnext : opcodeByte P b s = .next t) : DoesNotFail s t := by
  refine ⟨opcodeByte_err hnext, ?_⟩
  rcases opcodeByte_phase hnext with e | e
  · exact (e.trans hphase).trans_ne (by decide)
  · exact e.trans_ne (by decide)

theorem trailerByte_raises_or_doesNotFail {P : Params} {b : Byte} {s : State} {es : List InputEvent} {t : State} (hin : s.input = .byte b :: es)
    (hphase : s.phase = .trailer) (hnext : trailerByte P b (s.withInput es) = .next t) :
    (∃ k, Raises P s t k) ∨ DoesNotFail s t := by
  rcases trailerByte_cases P b (s.withInput es) with ⟨e, hbad⟩ | ⟨e, _⟩ | ⟨e, _⟩ <;> cases e.symm.trans hnext
  · exact .inl ⟨_, .trailer b es hin hphase hbad rfl⟩
  · exact .inr ⟨rfl, hphase.trans_ne (by decide)⟩
  · exact .inr ⟨rfl, hphase.trans_ne (by decide)⟩

theorem endEvent_raises_or_doesNotFail (P : Params) {s : State} {es : List InputEvent} (hin : s.input = .endOfStream :: es)
    (hphase : s.phase ≠ .failed) :
    (∃ k, Raises P s (endEvent (s.withInput es)) k) ∨ DoesNotFail s (endEvent (s.withInput es)) := by
  rcases endEvent_cases (s.withInput es) with ⟨e, hunfinished⟩ | ⟨e, _⟩ | ⟨e, _⟩
  · exact .inl ⟨_, .endOfStream es hin hunfinished e⟩
  · rw [e]
    exact .inr ⟨rfl, nofun⟩
  · rw [e]
    exact .inr ⟨rfl, hphase⟩

/-- A step either raises, with its cause and its effect, or does not fail. -/
theorem stepWith_raises_or_doesNotFail {P : Params} {s t : State} (hnext : stepWith P s = .next t) (hphase : s.phase ≠ .failed) :
    (∃ k, Raises P s t k) ∨ DoesNotFail s t := by
  rcases stepWith_cases hnext with ⟨_, rfl⟩ | ⟨es, hin, rfl⟩ |
    ⟨b, es, hin, ⟨hheader, h⟩ | ⟨hops, h⟩ | ⟨htrailer, h⟩ | ⟨_, rfl⟩⟩
  · exact .inr ⟨rfl, hphase⟩
  · exact endEvent_raises_or_doesNotFail P hin hphase
  · exact headerByte_raises_or_doesNotFail hin hheader h
  · exact .inr (opcodeByte_doesNotFail (s := s.withInput es) hops h)
  · exact trailerByte_raises_or_doesNotFail hin htrailer h
  · exact .inr ⟨rfl, hphase⟩

/-! ## The obligations -/

/-- Settles O45: `err` is clear before a step that has not failed, so the kind it holds afterwards was raised, with that kind's cause. -/
theorem eachErrorHasItsCause : Obligations.EachErrorHasItsCause := by
  refine ⟨⟨rfl, rfl, rfl, rfl, rfl, rfl⟩, fun P s t k hs hnext hphase herr => ?_⟩
  obtain ⟨k', hraises⟩ : ∃ k', Raises P s t k' := by
    refine (stepWith_raises_or_doesNotFail hnext hphase).resolve_right fun ⟨hkept, _⟩ => ?_
    cases (hs.err_none hphase).symm.trans (hkept.symm.trans herr)
  obtain rfl : k = k' := Option.some.inj (herr.symm.trans hraises.err)
  have hle := hs.tcnt_le
  cases hraises with
  | header b es hin hheader hlast hfails _ =>
    cases k with
    | headerMagicMismatch | unsupportedChannelMode | unsupportedColorspaceMode => exact ⟨⟨b, es, hin⟩, hheader, hlast, hfails⟩
    | trailerMismatch | prematureEndOfStream => exact hfails.elim
  | trailer b es hin htrailer hbad _ =>
    exact ⟨htrailer, b, es, hin, hbad.imp_left fun hge => by bv_omega⟩
  | endOfStream es hin hunfinished _ =>
    exact ⟨⟨es, hin⟩, hunfinished.imp_right (Or.imp_right (And.imp_right fun hne => by bv_omega))⟩

/-- The 14th header byte (41_header.md R110). -/
theorem storeHeaderByte_last {s : State} (hlast : s.hcnt = 13) (b : Byte) :
    s.storeHeaderByte b = { s with hbuf := s.hbuf.set 13 b, hcnt := 14 } := by
  have hstored : s.hbuf.setIfInBounds 13 b = s.hbuf.set 13 b := by
    simp [Vector.setIfInBounds, Vector.set, Array.setIfInBounds]
  simp only [State.storeHeaderByte, hlast, ← hstored]
  rfl

/-- Settles O46: a step to FAILED is a `raise`, whose event was consumed before, and with it the 14th header byte was stored. -/
theorem raiseWritesOnlyPhaseErrAndEvent : Obligations.RaiseWritesOnlyPhaseErrAndEvent := by
  intro s t hnext hphase hfailed
  obtain ⟨k, hraises⟩ := (stepWith_raises_or_doesNotFail hnext hphase).resolve_right fun ⟨_, hno⟩ => hno hfailed
  cases hraises with
  | header b es hin hheader hlast _ ht =>
    rw [storeHeaderByte_last (s := s.withInput es) hlast] at ht
    exact ⟨k, .byte b, es, hin, .inr ⟨hheader, hlast, b, rfl, ht⟩⟩
  | trailer b es hin _ _ ht => exact ⟨_, .byte b, es, hin, .inl ht⟩
  | endOfStream es hin _ ht => exact ⟨_, .endOfStream, es, hin, .inl ht⟩

end Sys2Proof.Machine
end

section
/-! SUPPORT. Reset and hazards (70_reset_and_hazards.md R210, R215): the reset values, and an opcode of several bytes that is not complete. -/

namespace Sys2Proof.Machine

/-- Settles O1: every register holds its reset value, and every slot of the fresh cache is clear. -/
theorem resetHoldsTheSpecValues : Obligations.ResetHoldsTheSpecValues :=
  ⟨rfl, rfl, rfl, rfl, rfl, cacheLookup_replicate .clear, rfl, rfl, rfl, rfl, rfl, rfl, rfl, rfl, rfl, Memory.read_nil, rfl⟩

/-- 42_opcodes.md R138: an opcode that has run leaves none in `op`. -/
theorem execWith_op {P : Params} {i : Instr} {s t : State} (hspace : i.space = .ops) (hexec : execWith P i s = .next t) :
    t.op = .none := by
  obtain ⟨rfl, _⟩ := execWith_opcode_next hspace hexec
  rfl

/-- 42_opcodes.md R125, R126: an opcode byte that leaves an opcode partial is only stored. -/
theorem opcodeByte_partial {P : Params} {b : Byte} {s t : State} (hnext : opcodeByte P b s = .next t) (hop : t.op ≠ .none) :
    t = { s with op := t.op, cnt := t.cnt, scratch := t.scratch } := by
  rcases opcodeByte_next hnext with ⟨rfl, _⟩ | ⟨rfl, _⟩ | ⟨i, u, _, _, hspace, hexec⟩
  · rfl
  · rfl
  · exact absurd (execWith_op hspace hexec) hop

theorem step_byte_ops {s : State} {b : Byte} {es : List InputEvent} (hphase : s.phase = .ops) (hin : s.input = .byte b :: es) :
    step s = opcodeByte Config.params b (s.withInput es) :=
  (step_of_input hin).trans (accept_byte_ops Config.params b (s := s.withInput es) hphase)

theorem stepWith_of_no_input (P : Params) {s : State} (hin : s.input = []) : stepWith P s = .next s := by
  simp only [stepWith, hin]

/-- 40_stream_sequencer.md R90: waiting changes no state, by induction on the steps. -/
theorem runStepsWith_of_no_input (P : Params) (n : Nat) {s : State} (hin : s.input = []) : runStepsWith P n s = .next s := by
  induction n with
  | zero => rfl
  | succ n ih => exact (runStepsWith_succ (stepWith_of_no_input P hin) n).trans ih

/-- Settles O31: a byte that completes no opcode is only stored, a wait does nothing, and End in phase OPS is premature. -/
theorem partialOpcodesHaveNoOtherEffect : Obligations.PartialOpcodesHaveNoOtherEffect := by
  refine ⟨fun s t b es hphase hin hnext hop => ?_, fun s n _ _ hin => ?_, fun s es hphase _ hin => ?_⟩
  · exact opcodeByte_partial ((step_byte_ops hphase hin).symm.trans hnext) hop
  · exact runStepsWith_of_no_input Config.params n hin
  · rw [step_of_endOfStream hin, endEvent_of_unfinished (s := s.withInput es) (.inr (.inl hphase))]

end Sys2Proof.Machine
end

section
/-! SUPPORT. Clock cycles (70_reset_and_hazards.md R220): what a cycle does with a core that is reset, that drains a RUN, or that is ready; and
the cycles of a RUN, which together are its step. -/

namespace Sys2Proof.Machine

/-! ## One cycle -/

theorem inReady_iff (s : State) : inReady false s = true ↔ s.busy = true ∧ s.draining = false := by
  simp [inReady]

theorem inReady_of_draining {s : State} (h : s.draining = true) : inReady false s = false := by
  simp [inReady, h]

theorem inReady_of_ops {s : State} (hphase : s.phase = .ops) (hop : s.op = .none) : inReady false s = true :=
  (inReady_iff s).2 ⟨by simp [State.busy, hphase], by simp [State.draining, hop]⟩

theorem cycle_reset (P : Params) {i : PortsIn} (hrst : i.rst = true) (s : State) : cycle P i s = .next (newSession s) :=
  if_pos hrst

section Draining

variable (P : Params) {s : State} (hdraining : s.draining = true)
include hdraining

theorem cycle_offer_draining (b : Byte) : cycle P (.offer b) s = drainCycle s := by
  simp [cycle, PortsIn.offer, hdraining]

theorem cycle_offerEnd_draining : cycle P .offerEnd s = drainCycle s := by
  simp [cycle, PortsIn.offerEnd, hdraining]

theorem cycle_idle_draining : cycle P .idle s = drainCycle s := by
  simp [cycle, PortsIn.idle, hdraining]

end Draining

section Ready

variable (P : Params) {s : State} (hready : inReady false s = true)
include hready

theorem cycle_offer_ready (b : Byte) : cycle P (.offer b) s = byteCycle P b s := by
  have hdraining := ((inReady_iff s).1 hready).2
  simp [cycle, PortsIn.offer, hdraining, hready]

theorem cycle_offerEnd_ready : cycle P .offerEnd s = .next (endEvent s) := by
  have hdraining := ((inReady_iff s).1 hready).2
  simp [cycle, PortsIn.offerEnd, hdraining, hready]

theorem cycle_idle_ready : cycle P .idle s = .next s := by
  have hdraining := ((inReady_iff s).1 hready).2
  simp [cycle, PortsIn.idle, hdraining]

end Ready

/-- Settles O58: a ready core takes the event of the cycle, a draining one ignores it, and reset comes before all else. -/
theorem otherCyclesAreSteps : Obligations.OtherCyclesAreSteps := by
  refine ⟨fun P s hready => ⟨fun b hother => ?_, ?_, ?_⟩, fun P s hdraining b => ⟨?_, ?_⟩, fun P i s hrst => ⟨?_, ?_⟩⟩
  · exact (cycle_offer_ready P hready b).trans (if_neg hother)
  · exact cycle_offerEnd_ready P hready
  · exact cycle_idle_ready P hready
  · rw [cycle_offer_draining P hdraining, cycle_idle_draining P hdraining]
  · rw [cycle_offerEnd_draining P hdraining, cycle_idle_draining P hdraining]
  · exact cycle_reset P hrst s
  · simp [inReady, hrst]

/-! ## The cycles of a RUN -/

/-- A RUN with no Pixel left is finished. -/
theorem runLeft_zero {s : State} (h : s.runcnt = 0) : s.runLeft 0 = s.finish := by
  have hkept : s.setRuncnt 0 = s := by rw [← h]; rfl
  rw [State.runLeft, if_pos rfl, hkept]

theorem runLeft_of_ne_zero (s : State) {k : BitVec 6} (hk : k ≠ 0) : s.runLeft k = s.setRuncnt k := if_neg hk

theorem draining_runLeft {s : State} {k : BitVec 6} (hop : s.op = .run) (hk : k ≠ 0) : (s.runLeft k).draining = true := by
  rw [runLeft_of_ne_zero s hk]
  exact Bool.and_eq_true_iff.2 ⟨decide_eq_true hop, decide_eq_true hk⟩

/-- Emit neither reads nor writes `runcnt`, so the old count does not matter to the state after it. -/
theorem runLeft_emitted_setRuncnt (p : Pixel) (k m : BitVec 6) (s : State) :
    ((s.setRuncnt k).emitted p).runLeft m = (s.emitted p).runLeft m := rfl

theorem drainCycle_runLeft {s : State} {k : BitVec 6} (hk : k ≠ 0) (hroom : s.wptr < s.npix) :
    drainCycle (s.runLeft k) = .next ((s.emitted s.px).runLeft (k - 1)) := by
  rw [runLeft_of_ne_zero s hk, drainCycle, emit_of_room _ (s.setRuncnt k) hroom, thenDo_next]
  exact congrArg _ (runLeft_emitted_setRuncnt s.px k (k - 1) s)

/-- `j` draining cycles of a RUN with `j + m` Pixels left, by induction on `j`. -/
theorem idleCycles_runLeft (P : Params) (j m : Nat) {s : State} (hop : s.op = .run) (hfits : j + m < 64) (hroom : j ≤ s.room) :
    idleCycles P j (s.runLeft (BitVec.ofNat 6 (j + m))) = .next ((s.emittedRun s.px j).runLeft (BitVec.ofNat 6 m)) := by
  induction j generalizing s with
  | zero => rw [Nat.zero_add]; rfl
  | succ j ih =>
    have hlt : s.wptr < s.npix := (room_pos_iff s).1 (by omega)
    have hleft : BitVec.ofNat 6 (j + 1 + m) ≠ 0 := by bv_omega
    have hone : BitVec.ofNat 6 (j + 1 + m) - 1 = BitVec.ofNat 6 (j + m) := by bv_omega
    have hrest : j ≤ (s.emitted s.px).room := by rw [room_emitted _ s hlt]; omega
    rw [idleCycles, cycle_idle_draining P (draining_runLeft hop hleft), drainCycle_runLeft hleft hlt, thenDo_next, hone]
    exact ih (s := s.emitted s.px) hop (by omega) hrest

/-- With no Pixel left to emit, the draining cycles end in Finish. -/
theorem idleCycles_runLeft_all (P : Params) {k : Nat} {s : State} (hop : s.op = .run) (hruncnt : s.runcnt = 0) (hk : k < 64)
    (hroom : k ≤ s.room) : idleCycles P k (s.runLeft (BitVec.ofNat 6 k)) = .next (s.emittedRun s.px k).finish :=
  (idleCycles_runLeft P k 0 hop hk hroom).trans (congrArg _ (runLeft_zero ((emittedRun_runcnt s.px k s).trans hruncnt)))

/-- Before the last Pixel of a RUN the core takes no input. -/
theorem inReady_idleCycles_runLeft {P : Params} {j k : Nat} {s v : State} (hop : s.op = .run) (hk : k < 64) (hroom : k ≤ s.room)
    (hj : j < k) (hnext : idleCycles P j (s.runLeft (BitVec.ofNat 6 k)) = .next v) : inReady false v = false := by
  obtain ⟨m, rfl⟩ : ∃ m, k = j + m := ⟨k - j, by omega⟩
  rw [idleCycles_runLeft P j m hop hk (by omega)] at hnext
  cases hnext
  exact inReady_of_draining (draining_runLeft ((emittedRun_op s.px j s).trans hop) (by bv_omega))

theorem byteEvent_runTag (P : Params) {s : State} {b : Byte} (hphase : s.phase = .ops) (hop : s.op = .none)
    (hkind : kindOf b = .run) : byteEvent P b s = execRunWith P (b.extractLsb' 0 6) (s.storeTag b) := by
  have hone : opLength (kindOf b) = 1 := by rw [hkind]; rfl
  have hinstr : instrOf (s.storeTag b).op (s.storeTag b).scratch = some (.run (b.extractLsb' 0 6)) := by
    simp [hkind, instrOf]
  rw [show byteEvent P b s = opcodeByte P b s from accept_byte_ops P b hphase, opcodeByte_tag P b hop, if_pos hone,
    runAssembled_of hinstr]
  rfl

theorem cycle_offer_runTag (P : Params) {s : State} {b : Byte} (hphase : s.phase = .ops) (hop : s.op = .none)
    (hkind : kindOf b = .run) : cycle P (.offer b) s = startRunWith P (b.extractLsb' 0 6) (s.storeTag b) :=
  (cycle_offer_ready P (inReady_of_ops hphase hop) b).trans (if_pos ⟨hphase, hop, hkind⟩)

theorem startRunWith_of_not_refused {P : Params} {f : BitVec 6} {s : State} (hgoes : ¬ RefusedRun P (.run f) s)
    (hroom : s.wptr < s.npix) :
    startRunWith P f s = .next ((s.emitted s.px).runLeft (BitVec.ofNat 6 (min (runLength f) s.room - 1))) := by
  rw [startRunWith, if_neg fun ⟨hlong, hrefuse⟩ => hgoes ⟨hrefuse, f, rfl, hlong⟩, emit_of_room _ s hroom, thenDo_next]

theorem execRunWith_of_not_refused {P : Params} {f : BitVec 6} {s : State} (hgoes : ¬ RefusedRun P (.run f) s) :
    execRunWith P f s = .next (s.emittedRun s.px (min (runLength f) s.room)).finish :=
  ((execRunWith_cases P f s).resolve_left fun ⟨hrefused, _⟩ => hgoes hrefused).2

theorem not_refusedRun_of {P : Params} {f : BitVec 6} {s : State} (h : P.runOverrun = .clamp ∨ runLength f ≤ s.room) :
    ¬ RefusedRun P (.run f) s := by
  rintro ⟨hrefuse, _, e, hlong⟩
  cases e
  rcases h with hclamp | hfits
  · cases hclamp.symm.trans hrefuse
  · omega

/-- Settles O57: each cycle emits one of the Pixels that the step emits, and the last one finishes; a refused RUN is refused at once. -/
theorem drainingARunRefinesItsStep : Obligations.DrainingARunRefinesItsStep := by
  intro P s b ⟨hphase, hop, _, _⟩ hruncnt hlt hkind
  rw [cycle_offer_runTag P hphase hop hkind, byteEvent_runTag P hphase hop hkind]
  generalize b.extractLsb' 0 6 = f
  refine ⟨fun h => ?_, fun hrefuse hlong => ⟨if_pos ⟨hlong, hrefuse⟩, if_pos ⟨hlong, hrefuse⟩⟩⟩
  have hgoes : ¬ RefusedRun P (.run f) (s.storeTag b) := not_refusedRun_of h
  have hpos : 1 ≤ min (runLength f) s.room := opcodeCount_pos (.run f) s hlt
  have hbits : runLength f ≤ 64 := f.isLt
  have hrest : min (runLength f) s.room - 1 ≤ ((s.storeTag b).emitted s.px).room := by
    rw [room_emitted _ (s.storeTag b) hlt]
    exact Nat.sub_le_sub_right (Nat.min_le_right _ _) 1
  refine ⟨_, startRunWith_of_not_refused hgoes hlt, ?_, fun j v hj hnext => ?_⟩
  · refine (idleCycles_runLeft_all P (s := (s.storeTag b).emitted s.px) hkind hruncnt (by omega) hrest).trans ?_
    rw [execRunWith_of_not_refused hgoes, State.storeTag_px, show (s.storeTag b).room = s.room from rfl]
    obtain ⟨k, hk⟩ := Nat.exists_eq_add_of_le' hpos
    rw [hk]
    rfl
  · exact inReady_idleCycles_runLeft (s := (s.storeTag b).emitted s.px) hkind (by omega) hrest hj hnext

end Sys2Proof.Machine
end
